-- ==== Sys2Proof/Word.lean ====
section
/-! DEFINITION. The word types of the unit: bits as the spec numbers them (00_scope.md R13: bit 0 is the
least significant bit), and the complex word, a pair of 32-bit parts (20_memory.md R74). -/

namespace Sys2Proof

/-- Eight bits of a 32-bit word, as the byte order of R77 cuts it. -/
abbrev Byte := BitVec 8

/-- The spec's `bits32`: a register, a bus datum, one binary32 value (R13, R35, R151). -/
abbrev Word := BitVec 32

/-- The width of BASE, LEN and ARG0 to ARG2 (R42 to R44). -/
abbrev Half := BitVec 16

/-- The width of the command fields OP, L and S and of ERRCODE (R100, R40). -/
abbrev Nibble := BitVec 4

/-- A byte offset in the unit's 18-bit space (R70). -/
abbrev Offset := BitVec 18

/-- A complex word of the sample RAM or of the twiddle ROM: real and imaginary part, each a binary32 value
held as `bits32` (R14, R74, R157). -/
structure CWord where
  re : Word
  im : Word
deriving DecidableEq, Repr

end Sys2Proof
end

