-- ==== Sys2Proof/Syntax.lean ====
section
/-! DEFINITION. The commands of the unit, one constructor per row of spec/opcode_table.json (30_encoding.md R102).
A command is the only kind of instruction the unit has (R18, R33). -/

namespace Sys2Proof

/-- A decoded command word. `l` is the size exponent field CMD[7:4] and `st` the stage field CMD[11:8], each at
every value the field can hold: a value outside its legal range is checked after decode (R104, R106). -/
inductive Instr where
  /-- NOP, OP 0x0 (R235). -/
  | nop
  /-- BITREV, OP 0x1: bit-reversal permutation (R183). -/
  | bitrev (l : Nibble)
  /-- STAGE, OP 0x2: one butterfly stage (R187). -/
  | stage (l st : Nibble)
  /-- BFLY, OP 0x3: one butterfly (R190). -/
  | bfly (l : Nibble)
  /-- CFFT, OP 0x4: the complex transform (R193). -/
  | cfft (l : Nibble)
  /-- RPOST, OP 0x5: the real-transform recombination (R214). -/
  | rpost (l : Nibble)
  /-- RFFT, OP 0x6: the real transform (R218). -/
  | rfft (l : Nibble)
deriving DecidableEq, Repr

/-- The size exponent L of a command; NOP's L field is 0 (R100, R102). -/
def Instr.sizeExp : Instr → Nat
  | .nop => 0
  | .bitrev l => l.toNat
  | .stage l _ => l.toNat
  | .bfly l => l.toNat
  | .cfft l => l.toNat
  | .rpost l => l.toNat
  | .rfft l => l.toNat

end Sys2Proof
end

