-- ==== Sys2Proof/WellFormed.lean ====
section
/-! DEFINITION. The legal operand ranges of a command (30_encoding.md R106). A command outside them still decodes
and still runs: it is rejected with UNSUPPORTED_SIZE or BAD_ARG (60_exceptions.md R243, R244). -/

namespace Sys2Proof

/-- R106: "for every OP except NOP, 1 ≤ L ≤ LOG2_M". -/
def sizeInRange (log2M : Nat) (l : Nibble) : Bool := 1 ≤ l.toNat && l.toNat ≤ log2M

/-- R106: "for STAGE, in addition 1 ≤ S ≤ L". -/
def stageInRange (l st : Nibble) : Bool := 1 ≤ st.toNat && st.toNat ≤ l.toNat

/-- The command's fields are in the legal ranges of R106 for a unit with the given LOG2_M. -/
def Instr.wellFormed (log2M : Nat) : Instr → Bool
  | .nop => true
  | .bitrev l => sizeInRange log2M l
  | .stage l st => sizeInRange log2M l && stageInRange l st
  | .bfly l => sizeInRange log2M l
  | .cfft l => sizeInRange log2M l
  | .rpost l => sizeInRange log2M l
  | .rfft l => sizeInRange log2M l

end Sys2Proof
end

