-- ==== Sys2Proof/Decode.lean ====
section
/-! DEFINITION. The decoder of 30_encoding.md R104, total on 32-bit command words, and the encoder written from
the bit patterns of R103. -/

namespace Sys2Proof

/-- Why a command word is ILLEGAL (R105). The unit reports the one code ILLEGAL_CMD for all of them (R242). -/
inductive DecodeError where
  /-- RSV, bits 31 to 12, is not zero. -/
  | reservedBits
  /-- OP is 0x7 to 0xF. -/
  | reservedOp
  /-- A field the operation does not read (L and S of NOP, S of all but STAGE) is not zero. -/
  | unusedField
deriving DecidableEq, Repr

/-- CMD[3:0] (R100). -/
def opField (w : Word) : Nibble := w.extractLsb' 0 4

/-- CMD[7:4] (R100). -/
def sizeField (w : Word) : Nibble := w.extractLsb' 4 4

/-- CMD[11:8] (R100). -/
def stageField (w : Word) : Nibble := w.extractLsb' 8 4

/-- CMD[31:12] (R100). -/
def reservedField (w : Word) : BitVec 20 := w.extractLsb' 12 20

/-- The commands that read L and require S = 0 (R104: OP in 0x1, 0x3, 0x4, 0x5, 0x6). -/
def sizedCommand (op l : Nibble) : Option Instr :=
  if op = 0x1#4 then some (.bitrev l)
  else if op = 0x3#4 then some (.bfly l)
  else if op = 0x4#4 then some (.cfft l)
  else if op = 0x5#4 then some (.rpost l)
  else if op = 0x6#4 then some (.rfft l)
  else none

/-- The decoder, in the order of R104's pseudocode; every `error` is the spec's ILLEGAL (R105). -/
def decode (w : Word) : Except DecodeError Instr :=
  let op := opField w
  let l := sizeField w
  let st := stageField w
  if reservedField w ≠ 0 then .error .reservedBits
  else if op = 0x0#4 then
    if l = 0 ∧ st = 0 then .ok .nop else .error .unusedField
  else if op = 0x2#4 then .ok (.stage l st)
  else match sizedCommand op l with
    | some i => if st = 0 then .ok i else .error .unusedField
    | none => .error .reservedOp

/-- A command word from its four fields, RSV = 0 (R100). -/
def commandWord (op l st : Nibble) : Word := (0#20) ++ st ++ l ++ op

/-- The command word of each command, from the patterns of R103. -/
def encode : Instr → Word
  | .nop => commandWord 0x0#4 0 0
  | .bitrev l => commandWord 0x1#4 l 0
  | .stage l st => commandWord 0x2#4 l st
  | .bfly l => commandWord 0x3#4 l 0
  | .cfft l => commandWord 0x4#4 l 0
  | .rpost l => commandWord 0x5#4 l 0
  | .rfft l => commandWord 0x6#4 l 0

/-- One row of R103's table: `w` matches it when (w AND mask) = match. -/
structure OpcodeRow where
  pattern : Word
  mask : Word
deriving DecidableEq, Repr

/-- The rows of R103, in its order. -/
def opcodeRows : List OpcodeRow :=
  [ { pattern := 0x00000000#32, mask := 0xFFFFFFFF#32 },
    { pattern := 0x00000001#32, mask := 0xFFFFFF0F#32 },
    { pattern := 0x00000002#32, mask := 0xFFFFF00F#32 },
    { pattern := 0x00000003#32, mask := 0xFFFFFF0F#32 },
    { pattern := 0x00000004#32, mask := 0xFFFFFF0F#32 },
    { pattern := 0x00000005#32, mask := 0xFFFFFF0F#32 },
    { pattern := 0x00000006#32, mask := 0xFFFFFF0F#32 } ]

/-- R103: (w AND mask) = match. -/
def rowMatches (w : Word) (r : OpcodeRow) : Bool := w &&& r.mask == r.pattern

/-- The row of a command. -/
def rowOf : Instr → OpcodeRow
  | .nop => { pattern := 0x00000000#32, mask := 0xFFFFFFFF#32 }
  | .bitrev _ => { pattern := 0x00000001#32, mask := 0xFFFFFF0F#32 }
  | .stage _ _ => { pattern := 0x00000002#32, mask := 0xFFFFF00F#32 }
  | .bfly _ => { pattern := 0x00000003#32, mask := 0xFFFFFF0F#32 }
  | .cfft _ => { pattern := 0x00000004#32, mask := 0xFFFFFF0F#32 }
  | .rpost _ => { pattern := 0x00000005#32, mask := 0xFFFFFF0F#32 }
  | .rfft _ => { pattern := 0x00000006#32, mask := 0xFFFFFF0F#32 }

/-- The command word that an opcode-table word stands for: its low `nbits` bits, every bit above them 0. A command
is exactly one 32-bit word (R107), so nothing above bit 31 is kept. -/
def tableWord (nbits w : Nat) : Word := BitVec.ofNat 32 (w % 2 ^ nbits)

/-- The instruction the decoder reads from a word numbered as spec/opcode_table.json numbers it. A command word is
written to CMD as one 32-bit bus datum (R77, R100), so the table's bit i is bit i of the word. -/
def decodeTableWord (nbits w : Nat) : Option Instr :=
  match decode (tableWord nbits w) with
  | .ok i => some i
  | .error _ => none

end Sys2Proof
end

