-- ==== Sys2Proof/Config.lean ====
section
/-! DEFINITION. The parameters that a build of the unit fixes before reset and that no access changes
(10_state.md R31): LOG2_M, UNIT_BASE and LATENCY. They are plain data carried in `State.params`, so that a
statement about every state speaks of every build (92 D2: a model quantifying over LOG2_M is exact). NUMERICS
is fixed to REF32 (R11), DESIGN CHOICE (log 9): its arithmetic is Machine/Binary32.lean. -/

namespace Sys2Proof

/-- The synthesis and platform parameters of one unit (R9, R12). -/
structure Params where
  /-- LOG2_M less one: the type admits exactly the legal values 1 ≤ LOG2_M ≤ 12 (R9). -/
  maxExp : Fin 12
  /-- UNIT_BASE, the system address of offset 0 (R12, R72). -/
  unitBase : Nat
  /-- The table behind `Params.latency`: entry 16·op + L holds LATENCY(op, L) less one (R12, R292). -/
  latencies : List Nat
deriving DecidableEq, Repr

/-- LOG2_M, the exponent of the largest supported size (R9). -/
def Params.log2M (p : Params) : Nat := p.maxExp.val + 1

/-- M = 2^LOG2_M, the largest supported size and the number of sample RAM words (R9, R10). -/
def Params.size (p : Params) : Nat := 2 ^ p.log2M

/-- LATENCY(op, L), the number of clock cycles from the acceptance of a command to its completion: finite,
positive, and a function of the operation and the size exponent alone (R292). -/
def Params.latency (p : Params) (op l : Nat) : Nat := p.latencies.getD (16 * op + l) 0 + 1

/-- The parameters of `State.reset`: LOG2_M = 12 is the spec's reference value (R9); UNIT_BASE = 0 and a latency
of one cycle everywhere stand for parameters the spec leaves open. DESIGN CHOICE (log 1). -/
def Params.reference : Params := { maxExp := 11, unitBase := 0, latencies := [] }

end Sys2Proof
end

