-- ==== Sys2Proof/Machine/State.lean ====
section
/-! DEFINITION. The state of the unit (10_state.md R30, R36, R50, R51; 20_memory.md R71, R73), as plain data, its
reset (R52), and the reasons a step can stop. -/

namespace Sys2Proof.Machine

open Sys2Proof

/-- The STATUS register's implemented bits (R40): BUSY, DONE, ERR, OVR and ERRCODE. The reserved bits 7:4 and 31:12
read 0 and are not stored (R46). -/
structure Status where
  busy : Bool
  done : Bool
  err : Bool
  ovr : Bool
  errcode : Nibble
deriving DecidableEq, Repr

/-- LATCH, the command state captured at acceptance (R50). -/
structure Latch where
  op : Nibble
  l : Nibble
  st : Nibble
  base : Half
  len : Half
  p : Half
  q : Half
  k : Half
deriving DecidableEq, Repr

/-- The sequencer phase (R51). RUNNING carries the image `bout` = F(Bin) that completion writes into the window: F is
a function of Bin, LATCH and the twiddle ROM only (R181) and Bin is taken at acceptance (R231), so the image is fixed
there. DEDUCED (log 3). `left` is how many clock edges remain until the completion step (R233, R292). -/
inductive Phase where
  | idle
  | running (bout : List CWord) (left : Nat)
deriving DecidableEq, Repr

/-- One host transaction as it stands on the bus port: bus_we, bus_addr, bus_wdata and bus_wstrb (R71). -/
structure BusReq where
  we : Bool
  addr : Offset
  wdata : Word
  wstrb : Nibble
deriving DecidableEq, Repr

/-- The bus outputs of a step (R71): bus_ack, bus_err and bus_rdata. `rdata` is `none` where the spec states no value
for bus_rdata (no transaction, or a write that is not to an unmapped offset). -/
structure BusOut where
  ack : Bool
  err : Bool
  rdata : Option Word
deriving DecidableEq, Repr

/-- What can happen at the unit's ports (R71): a bus transaction is presented, a rising clock edge passes, or the
reset pin changes level. -/
inductive Event where
  | bus (t : BusReq)
  | clk
  | rst (level : Bool)
deriving DecidableEq, Repr

/-- Where the unit stands with respect to reset (R280): `held` while rst_n = 0; `ending` once rst_n = 1 and no rising clock
edge has passed since; `out` from the first rising clock edge with rst_n = 1. -/
inductive ResetPhase where
  | held
  | ending
  | out
deriving DecidableEq, Repr

/-- The sample RAM as (byte offset, byte) cells, strictly rising by offset. A byte that is not listed has not been
written since reset and has no value (R281, R282). DEDUCED (log 11). -/
abbrev Memory := List Host.Cell

/-- Everything the spec gives the unit, its ports (`resetPhase`, the reset pin and whether the unit has left reset, and `bus`, the
bus outputs of the last step), and two fields of the model's own: `params` (the build's parameters, fixed) and `agenda` (the
port events still to come, oldest first). -/
structure State where
  /-- LOG2_M, UNIT_BASE and LATENCY (R31). No step changes it. DESIGN CHOICE: carried in State (log 12). -/
  params : Params
  /-- The pin rst_n, active low, and whether the unit has left reset (R71, R280). -/
  resetPhase : ResetPhase
  /-- CTRL.IE (R39). -/
  ie : Bool
  /-- STATUS (R40). -/
  status : Status
  /-- BASE (R42). -/
  base : Half
  /-- LEN (R43). -/
  len : Half
  /-- ARG0, ARG1, ARG2 (R44). -/
  arg0 : Half
  arg1 : Half
  arg2 : Half
  /-- LATCH (R50); its value while IDLE is irrelevant (R52). -/
  latch : Latch
  /-- The sequencer phase (R51). -/
  phase : Phase
  /-- The sample RAM (R73). -/
  mem : Memory
  /-- The bus outputs of the last step (R71). -/
  bus : BusOut
  /-- The port events to come, oldest first (R84: accesses take effect one at a time, in order). DESIGN CHOICE (log 8). -/
  agenda : List Event
deriving DecidableEq, Repr

/-- Why the model stops. Every one of these is a stop that the spec asks of a model; none is a hardware outcome, and
each is safe: the hardware goes on with a value or an effect the spec does not state. -/
inductive Fault where
  /-- Raised by a legal host read of a sample RAM half that nothing has written since reset (R282, 93 U1). Safe. -/
  | unwrittenSample
  /-- Raised at the acceptance of a command whose window holds an unwritten word (R282, 93 U2). Safe. -/
  | unwrittenWindow
  /-- HAZARD_SRAM_BUSY: raised by a legal host read or write of the sample RAM while BUSY is 1 (R290, 93 U3). Safe. -/
  | hazardSramBusy
deriving DecidableEq, Repr

/-- Why the model gives no meaning. No meaning of this model refuses. -/
inductive Refusal where
  /-- Raised only by an arm of `exec` whose instruction has no meaning yet; none is left. Safe. -/
  | notModelled (mnemonic : String)
deriving DecidableEq, Repr

/-- What one step answers. -/
abbrev Result := Host.Outcome State Fault Refusal

/-- STATUS after reset: every field 0 (R40, R52). -/
def Status.reset : Status := { busy := false, done := false, err := false, ovr := false, errcode := 0 }

/-- LATCH after reset: the spec leaves it unspecified and never read while IDLE (R52). DESIGN CHOICE (log 2): zero. -/
def Latch.reset : Latch := { op := 0, l := 0, st := 0, base := 0, len := 0, p := 0, q := 0, k := 0 }

/-- The bus outputs when no transaction completes: bus_ack = 0 (R71, R280). R71 gives bus_err a meaning only with bus_ack;
DESIGN CHOICE (log 14): it is 0 here. -/
def BusOut.idle : BusOut := { ack := false, err := false, rdata := none }

/-- The state a unit with these parameters has right after reset (R52, R280, R281): every register at its reset value,
the sequencer IDLE, every sample RAM word unwritten, the unit out of reset (log 13), nothing on the bus. -/
def State.resetOf (p : Params) : State where
  params := p
  resetPhase := .out
  ie := false
  status := Status.reset
  base := 0
  len := 0
  arg0 := 0
  arg1 := 0
  arg2 := 0
  latch := Latch.reset
  phase := .idle
  mem := []
  bus := BusOut.idle
  agenda := []

/-- The reference unit (LOG2_M = 12) right after reset. -/
def State.reset : State := State.resetOf Params.reference

end Sys2Proof.Machine
end

