-- ==== Sys2Proof/Machine/Flags.lean ====
section
/-! DEFINITION. The flags of the unit: the STATUS bits (10_state.md R34, R40), the state change each event makes to
them (R41), the error codes (60_exceptions.md R241) and the interrupt output (R250). -/

namespace Sys2Proof.Machine

open Sys2Proof

/-- The errors a command can be rejected with (R241). -/
inductive ErrorKind where
  | illegalCmd
  | unsupportedSize
  | badArg
  | sizeMismatch
  | range
deriving DecidableEq, Repr

/-- The code STATUS.ERRCODE holds (R241). -/
def errorCode : ErrorKind → Nibble
  | .illegalCmd => 1
  | .unsupportedSize => 2
  | .badArg => 3
  | .sizeMismatch => 4
  | .range => 5

/-- R41, acceptance: BUSY <- 1, DONE <- 0, ERR <- 0, ERRCODE <- 0; OVR unchanged. -/
def statusAccepted (t : Status) : Status := { t with busy := true, done := false, err := false, errcode := 0 }

/-- R41, rejection: DONE <- 1, ERR <- 1, ERRCODE <- the code; BUSY stays as it is; OVR unchanged. -/
def statusRejected (e : ErrorKind) (t : Status) : Status := { t with done := true, err := true, errcode := errorCode e }

/-- R41, completion: BUSY <- 0, DONE <- 1; ERR, ERRCODE and OVR unchanged. -/
def statusCompleted (t : Status) : Status := { t with busy := false, done := true }

/-- R41, a CMD write while BUSY: OVR <- 1; nothing else changes. -/
def statusOverrun (t : Status) : Status := { t with ovr := true }

/-- R41, a host write of `w` to STATUS: w[1] clears DONE, w[2] clears ERR and ERRCODE, w[3] clears OVR; every other bit
of `w` is ignored. -/
def statusCleared (w : Word) (t : Status) : Status :=
  { busy := t.busy
    done := t.done && !w.getLsbD 1
    err := t.err && !w.getLsbD 2
    ovr := t.ovr && !w.getLsbD 3
    errcode := if w.getLsbD 2 then 0 else t.errcode }

/-- The word a read of STATUS returns, by the field layout of R40: bit 0 BUSY, bit 1 DONE, bit 2 ERR, bit 3 OVR, bits
7:4 zero, bits 11:8 ERRCODE, bits 31:12 zero. -/
def statusWord (t : Status) : Word :=
  (0#20) ++ t.errcode ++ (0#4) ++ BitVec.ofBool t.ovr ++ BitVec.ofBool t.err ++ BitVec.ofBool t.done
    ++ BitVec.ofBool t.busy

/-- The interrupt output: irq = CTRL.IE AND STATUS.DONE (R250). -/
def irq (s : State) : Bool := s.ie && s.status.done

end Sys2Proof.Machine
end

