-- ==== Sys2Proof/Machine/Operands.lean ====
section
/-! DEFINITION. The operands of a command: what LATCH captures (10_state.md R50, 30_encoding.md R101), the window
(42_cfft.md R180) and the checks that reject a command (60_exceptions.md R243 to R247). All index and size arithmetic
is exact arithmetic on natural numbers (41_datapath.md R150). -/

namespace Sys2Proof.Machine

open Sys2Proof

/-- N = 2^L (R101). -/
def commandSize (i : Instr) : Nat := 2 ^ i.sizeExp

/-- W, the number of sample RAM words in the command's window (R180): N, or N/2 for RPOST and RFFT; 0 for NOP (R233). -/
def windowWords : Instr → Nat
  | .nop => 0
  | .bitrev l => 2 ^ l.toNat
  | .stage l _ => 2 ^ l.toNat
  | .bfly l => 2 ^ l.toNat
  | .cfft l => 2 ^ l.toNat
  | .rpost l => 2 ^ l.toNat / 2
  | .rfft l => 2 ^ l.toNat / 2

/-- LATCH as acceptance captures it (R50): op, L and S from the command word, the rest from the operand registers. -/
def captureLatch (i : Instr) (s : State) : Latch where
  op := opField (encode i)
  l := sizeField (encode i)
  st := stageField (encode i)
  base := s.base
  len := s.len
  p := s.arg0
  q := s.arg1
  k := s.arg2

/-- R243: the size exponent is 0 or above LOG2_M. -/
def sizeUnsupported (p : Params) (i : Instr) : Bool := i.sizeExp == 0 || p.log2M < i.sizeExp

/-- R244 for STAGE: S = 0 or S > L. -/
def stageOutOfRange (l st : Nibble) : Bool := st.toNat == 0 || l.toNat < st.toNat

/-- R244 for BFLY with N = 2^L: p ≥ N, q ≥ N, p = q or k ≥ N/2. -/
def bflyArgsBad (l : Nibble) (s : State) : Bool :=
  2 ^ l.toNat ≤ s.arg0.toNat || 2 ^ l.toNat ≤ s.arg1.toNat || s.arg0 == s.arg1 || 2 ^ l.toNat / 2 ≤ s.arg2.toNat

/-- R244: only STAGE and BFLY have arguments that can be bad. -/
def argsBad (i : Instr) (s : State) : Bool :=
  match i with
  | .nop => false
  | .bitrev _ => false
  | .stage l st => stageOutOfRange l st
  | .bfly l => bflyArgsBad l s
  | .cfft _ => false
  | .rpost _ => false
  | .rfft _ => false

/-- R246: LEN differs from N. -/
def lengthMismatch (i : Instr) (s : State) : Bool := s.len.toNat != commandSize i

/-- R245: the window does not lie in the sample RAM, BASE + W > M. -/
def outOfRange (i : Instr) (s : State) : Bool := s.params.size < s.base.toNat + windowWords i

/-- The checks of a command that has a window, in the priority order of R247. -/
def validateSized (i : Instr) (s : State) : Option ErrorKind :=
  if sizeUnsupported s.params i then some .unsupportedSize
  else if argsBad i s then some .badArg
  else if lengthMismatch i s then some .sizeMismatch
  else if outOfRange i s then some .range
  else none

/-- R247's validation function on a decoded command: NOP is not checked, every other command is. An ILLEGAL word has no
command and is rejected before this (R242). -/
def validate (i : Instr) (s : State) : Option ErrorKind :=
  match i with
  | .nop => none
  | .bitrev l => validateSized (.bitrev l) s
  | .stage l st => validateSized (.stage l st) s
  | .bfly l => validateSized (.bfly l) s
  | .cfft l => validateSized (.cfft l) s
  | .rpost l => validateSized (.rpost l) s
  | .rfft l => validateSized (.rfft l) s

end Sys2Proof.Machine
end

