-- ==== Sys2Proof/Machine/Ops.lean ====
section
/-! DEFINITION. The shared operations: the sample RAM's bytes, halves and words (20_memory.md R73 to R77), the life of a
command (44_control.md R230 to R234), of which `reject` is the unit's one way of taking an error (60_exceptions.md R248)
and `hostClear` the host's return from it (R251), the clock edge and the reset pin (70_reset_and_hazards.md R280). -/

namespace Sys2Proof.Machine

open Sys2Proof

/-! ### Sample RAM -/

/-- The canonical form of a memory: strictly rising addresses. Every listed cell is a byte that has been written. -/
abbrev Memory.wf (m : Memory) : Prop := List.Pairwise (fun c d => c.1 < d.1) m

/-- The byte at an address, `none` if nothing has written it since reset (R281, R282). -/
def readByte (m : Memory) (a : Nat) : Option Byte := List.lookup a m

/-- Cells for consecutive bytes from address `a`. -/
def cellsFrom (a : Nat) : List Byte → List Host.Cell
  | [] => []
  | b :: bs => (a, b) :: cellsFrom (a + 1) bs

/-- The memory with consecutive bytes stored from address `a`, every other byte as it was. -/
def writeBytes (m : Memory) (a : Nat) (bs : List Byte) : Memory :=
  m.filter (fun c => c.1 < a) ++ cellsFrom a bs ++ m.filter (fun c => a + bs.length ≤ c.1)

/-- The four bytes of a 32-bit word, byte b holding bits 8·b+7 to 8·b: little-endian (R77). -/
def wordBytes (w : Word) : List Byte :=
  [w.extractLsb' 0 8, w.extractLsb' 8 8, w.extractLsb' 16 8, w.extractLsb' 24 8]

/-- The 32-bit word at an aligned address, `none` unless all its bytes are written (R77, R282). -/
def readHalf (m : Memory) (a : Nat) : Option Word :=
  match readByte m a, readByte m (a + 1), readByte m (a + 2), readByte m (a + 3) with
  | some b0, some b1, some b2, some b3 => some (b3 ++ b2 ++ b1 ++ b0)
  | _, _, _, _ => none

/-- The offset of the sample RAM (R72). -/
def ramBase : Nat := 0x20000

/-- The offset of complex word j (R73). -/
def sampleAddr (j : Nat) : Nat := ramBase + 8 * j

/-- S[j]: the real part at the lower offset, the imaginary part four above it (R74); `none` unless both halves are
written (R282). -/
def readSample (m : Memory) (j : Nat) : Option CWord :=
  match readHalf m (sampleAddr j), readHalf m (sampleAddr j + 4) with
  | some re, some im => some { re := re, im := im }
  | _, _ => none

/-- S[j], …, S[j + n − 1], `none` if any of them is unwritten. -/
def readWindow (m : Memory) (j : Nat) : Nat → Option (List CWord)
  | 0 => some []
  | n + 1 =>
    match readSample m j, readWindow m (j + 1) n with
    | some c, some cs => some (c :: cs)
    | _, _ => none

/-- The eight bytes of a complex word (R74, R77). -/
def sampleBytes (c : CWord) : List Byte := wordBytes c.re ++ wordBytes c.im

/-- S[j + i] <- cs[i] for every i (R233). -/
def writeWindow (m : Memory) (j : Nat) (cs : List CWord) : Memory :=
  writeBytes m (sampleAddr j) (cs.flatMap sampleBytes)

/-! ### The life of a command -/

/-- accept (R231): LATCH is captured, STATUS takes its acceptance values (R41), and the sequencer is RUNNING with the
image it will write; no sample word changes. -/
def accept (latch : Latch) (bout : List CWord) (s : State) : State :=
  { s with
    latch := latch
    status := statusAccepted s.status
    phase := .running bout (s.params.latency latch.op.toNat latch.l.toNat) }

/-- reject (R232, R248): the unit's form of taking an exception. ERRCODE is the only thing saved; no mode changes and
control goes nowhere. -/
def reject (e : ErrorKind) (s : State) : State := { s with status := statusRejected e s.status }

/-- overrun (R234). -/
def overrun (s : State) : State := { s with status := statusOverrun s.status }

/-- A host write of `w` to STATUS (R41), which is also the host's return from a completion or a rejection (R251). -/
def hostClear (w : Word) (s : State) : State := { s with status := statusCleared w s.status }

/-- The CMD write of a decoded command (R230), `f` being the command's function from LATCH and Bin to Bout (R181): dropped
while BUSY, rejected if a check fails, else accepted. A window with an unwritten word stops the model (R282). -/
def issue (i : Instr) (f : Latch → List CWord → List CWord) (s : State) : Result :=
  if s.status.busy then .next (overrun s)
  else match validate i s with
    | some e => .next (reject e s)
    | none =>
      match readWindow s.mem s.base.toNat (windowWords i) with
      | none => .fault .unwrittenWindow
      | some bin => .next (accept (captureLatch i s) (f (captureLatch i s) bin) s)

/-- The CMD write of an ILLEGAL word (R230, R242). -/
def issueIllegal (s : State) : State :=
  if s.status.busy then overrun s else reject .illegalCmd s

/-- complete (R233): the image is written into the window in one step, BUSY <- 0, DONE <- 1, the phase is IDLE. -/
def complete (s : State) : State :=
  match s.phase with
  | .idle => s
  | .running bout _ =>
    { s with
      mem := writeWindow s.mem s.latch.base.toNat bout
      status := statusCompleted s.status
      phase := .idle }

/-! ### Clock and reset -/

/-- A rising clock edge: the first with rst_n = 1 takes the unit out of reset (R280); a RUNNING sequencer completes at its last
edge (R233, R292). While IDLE, or while rst_n is low, nothing happens (R258, R280). -/
def clockEdge (s : State) : State :=
  match s.resetPhase with
  | .held => s
  | .ending => { s with resetPhase := .out }
  | .out =>
    match s.phase with
    | .idle => s
    | .running bout left => if left ≤ 1 then complete s else { s with phase := .running bout (left - 1) }

/-- The reset pin takes a level. Low puts every register at its reset value, the sequencer IDLE and the sample RAM
unwritten, whatever was running (R280, R281), at once: DEDUCED (log 13). High leaves that state as it is, until the next rising
clock edge ends reset (R280). -/
def setResetPin (level : Bool) (s : State) : State :=
  if level then
    match s.resetPhase with
    | .held => { s with resetPhase := .ending }
    | .ending => s
    | .out => s
  else { State.resetOf s.params with resetPhase := .held, agenda := s.agenda }

end Sys2Proof.Machine
end

