-- ==== Sys2Proof/Machine/Binary32.lean ====
section
/-! DEFINITION. The reference arithmetic REF32: IEEE 754 binary32 add, subtract and multiply, each rounded once to
nearest, ties to even, with subnormals, infinities and one canonical NaN (41_datapath.md R151 to R156). Exact values are
integers in units of 2^-149, the smallest positive binary32 value: every finite binary32 value is such an integer. -/

namespace Sys2Proof.Machine

open Sys2Proof

/-- Bit 31, the sign (R151). -/
def signBit (a : Word) : Bool := a.getLsbD 31

/-- Bits 30:23, the biased exponent (R151). -/
def expField (a : Word) : Nat := (a.extractLsb' 23 8).toNat

/-- Bits 22:0, the fraction (R151). -/
def fracField (a : Word) : Nat := (a.extractLsb' 0 23).toNat

/-- Exponent 255 with fraction ≠ 0 (R151). -/
def isNaN (a : Word) : Bool := expField a == 255 && fracField a != 0

/-- Exponent 255 with fraction 0 (R151). -/
def isInf (a : Word) : Bool := expField a == 255 && fracField a == 0

/-- |a| of a finite value in units of 2^-149: a subnormal's fraction, or a normal's significand scaled by its exponent
(R151: bias 127, so exponent field 1 has units of 2^-149). -/
def magnitude (a : Word) : Nat :=
  if expField a = 0 then fracField a else (2 ^ 23 + fracField a) * 2 ^ (expField a - 1)

/-- The value of a finite `a` in units of 2^-149. -/
def exactValue (a : Word) : Int := if signBit a then - (magnitude a : Int) else (magnitude a : Int)

/-- The canonical quiet NaN, the result of every NaN-valued operation (R154). -/
def canonicalNaN : Word := 0x7FC00000#32

/-- A word from a sign and the 31 bits below it. -/
def packSign (neg : Bool) (m : Nat) : Word := BitVec.ofNat 32 ((if neg then 2 ^ 31 else 0) + m)

/-- The infinity of the given sign (R151). -/
def infinity (neg : Bool) : Word := packSign neg 0x7F800000

/-- The zero of the given sign (R151). -/
def zero32 (neg : Bool) : Word := packSign neg 0

/-- m / 2^t rounded to the nearest integer, ties to even. -/
def roundEven (m t : Nat) : Nat :=
  if 2 ^ t < 2 * (m % 2 ^ t) ∨ (2 * (m % 2 ^ t) = 2 ^ t ∧ m / 2 ^ t % 2 = 1) then m / 2 ^ t + 1 else m / 2 ^ t

/-- The exponent, over 2^-149, of the rounding step of the magnitude m / 2^k: 24 significant bits are kept, and none
below 2^-149 (R152: subnormal results exactly as rounding gives them). -/
def quantumExp (m k : Nat) : Nat := Nat.log2 m - (k + 23)

/-- RN32 on a magnitude of m / 2^k units of 2^-149 (R152), as the 31 bits below the sign. With q the rounding step's
exponent and n the rounded count of steps, the exponent and fraction fields together are q·2^23 + n, also when n carries
to 2^24; from 0x7F800000 on the result is an infinity, which is R152's threshold 2^128 − 2^103. -/
def roundMagnitude (m k : Nat) : Nat :=
  min (quantumExp m k * 2 ^ 23 + roundEven m (k + quantumExp m k)) 0x7F800000

/-- RN32 of the exact real ±(m / 2^k)·2^-149 (R152). -/
def rn32 (neg : Bool) (m k : Nat) : Word := packSign neg (roundMagnitude m k)

/-- The rounded sum of two finite values; an exact zero sum is +0 unless both operands are −0 (R153). -/
def addFinite (a b : Word) : Word :=
  if exactValue a + exactValue b = 0 then zero32 (signBit a && signBit b)
  else rn32 (exactValue a + exactValue b < 0) (exactValue a + exactValue b).natAbs 0

/-- add32 with its special cases (R153, R154). -/
def add32 (a b : Word) : Word :=
  if isNaN a || isNaN b then canonicalNaN
  else if isInf a then
    if isInf b && signBit a != signBit b then canonicalNaN else a
  else if isInf b then b
  else addFinite a b

/-- neg32: the sign bit flipped, of every value (R155). -/
def neg32 (a : Word) : Word := a ^^^ 0x80000000#32

/-- sub32(a, b) = RN32(a − b) with the special cases of R153: the sum of a and the negated b. -/
def sub32 (a b : Word) : Word := add32 a (neg32 b)

/-- mul32 with its special cases (R153, R154); the exact product of two integers in units of 2^-149 has units of
2^-298. -/
def mul32 (a b : Word) : Word :=
  if isNaN a || isNaN b then canonicalNaN
  else if isInf a || isInf b then
    if (isInf a && magnitude b == 0) || (isInf b && magnitude a == 0) then canonicalNaN
    else infinity (signBit a != signBit b)
  else rn32 (signBit a != signBit b) (magnitude a * magnitude b) 149

/-- half32(a) = mul32(a, 0.5) (R155). -/
def half32 (a : Word) : Word := mul32 a 0x3F000000#32

end Sys2Proof.Machine
end

