-- ==== Sys2Proof/Machine/Datapath.lean ====
section
/-! DEFINITION. The complex multiply-accumulate datapath (41_datapath.md R157 to R164). No operation is fused: every
product is rounded before it is added (R156). -/

namespace Sys2Proof.Machine

open Sys2Proof

/-- Lane-wise sum (R157). -/
def cadd (a b : CWord) : CWord := { re := add32 a.re b.re, im := add32 a.im b.im }

/-- Lane-wise difference (R157). -/
def csub (a b : CWord) : CWord := { re := sub32 a.re b.re, im := sub32 a.im b.im }

/-- The conjugate, by a sign flip (R157). -/
def conj (a : CWord) : CWord := { re := a.re, im := neg32 a.im }

/-- The twiddle product: four rounded products and two rounded sums, in R158's order. -/
def cmul (t s : CWord) : CWord where
  re := sub32 (mul32 t.re s.re) (mul32 t.im s.im)
  im := add32 (mul32 t.re s.im) (mul32 t.im s.re)

/-- The twiddle multiplier with its bypass at twiddle index 0 (R159). -/
def tmul (t s : CWord) (k : Nat) : CWord := if k = 0 then s else cmul t s

/-- The radix-2 butterfly: f + t·s and f − t·s from the one rounded product (R160). -/
def butterfly (f s t : CWord) (k : Nat) : CWord × CWord :=
  (cadd f (tmul t s k), csub f (tmul t s k))

/-- R162's `sum`: the halved lane-wise sum. -/
def halfSum (a b : CWord) : CWord := { re := half32 (add32 a.re b.re), im := half32 (add32 a.im b.im) }

/-- R162's `diff`: the halved lane-wise difference. -/
def halfDiff (a b : CWord) : CWord := { re := half32 (sub32 a.re b.re), im := half32 (sub32 a.im b.im) }

/-- R162's `lo`, the word that goes to out[k]. -/
def recombineLo (sum diff t : CWord) : CWord where
  re := add32 (add32 sum.re (mul32 t.re sum.im)) (mul32 t.im diff.re)
  im := sub32 (add32 diff.im (mul32 t.im sum.im)) (mul32 t.re diff.re)

/-- R162's `hi`, the word that goes to out[N/2−k]. -/
def recombineHi (sum diff t : CWord) : CWord where
  re := sub32 (sub32 sum.re (mul32 t.re sum.im)) (mul32 t.im diff.re)
  im := sub32 (add32 (neg32 diff.im) (mul32 t.im sum.im)) (mul32 t.re diff.re)

/-- The recombination pair function of RPOST (R162). -/
def recombine (a b t : CWord) : CWord × CWord :=
  (recombineLo (halfSum a b) (halfDiff a b) t, recombineHi (halfSum a b) (halfDiff a b) t)

/-- The DC recombination: the imaginary part is +0 whatever a is (R163). -/
def dcBin (a : CWord) : CWord := { re := add32 a.re a.im, im := 0#32 }

/-- The midpoint recombination: the conjugate, by bit moves (R164). -/
def midBin (a : CWord) : CWord := conj a

end Sys2Proof.Machine
end

