-- ==== Sys2Proof/Machine/Tables.lean ====
section
/-! DEFINITION. The Table Provider (40_tables.md): the twiddle ROM W[j] (R130, R131), the size-n twiddle factors
TW(n, k) (R133) and the bit-reversal function rev(L, i) (R137).

The ROM's entries are the exact cosine and sine rounded once (R131). They are computed here from the Taylor series at a
rational angle: on an eighth of the circle, where the angle is at most π/4, ten levels of the series and π to twenty
decimals leave an error below 2^-60, and no entry lies that close to a rounding boundary. DEDUCED (log 4). -/

namespace Sys2Proof.Machine

open Sys2Proof

/-- π·10^20, rounded down. -/
def piDigits : Nat := 314159265358979323846

/-- The denominator of the angle: 2π·i/4096 is approximated by piDigits·i / angleDen. -/
def angleDen : Nat := 10 ^ 20 * 2048

/-- One eighth of the circle, nested: with y = (num/den)², the fraction 1 − y/((c+1)(c+2))·(1 − y/((c+3)(c+4))·(…)), as
numerator and denominator. -/
def nestedSeries (num den : Nat) : Nat → Nat → Nat × Nat
  | 0, _ => (1, 1)
  | n + 1, c =>
    let r := nestedSeries num den n (c + 2)
    let d := (c + 1) * (c + 2) * (den * den) * r.2
    (d - num * num * r.1, d)

/-- cos(2π·i/4096) for 0 ≤ i ≤ 512, as a fraction: 1 − x²/2·(1 − x²/(3·4)·(…)). -/
def cosFraction (i : Nat) : Nat × Nat := nestedSeries (piDigits * i) angleDen 10 0

/-- sin(2π·i/4096) for 0 ≤ i ≤ 512, as a fraction: x·(1 − x²/(2·3)·(1 − x²/(4·5)·(…))). -/
def sinFraction (i : Nat) : Nat × Nat :=
  let r := nestedSeries (piDigits * i) angleDen 10 1
  (piDigits * i * r.1, angleDen * r.2)

/-- RN32 of the non-negative fraction num/den (R152), as the 31 bits below the sign: the fraction is cut at 2^-149, and one
more bit, of half that weight, says whether anything was cut off. -/
def roundFraction (r : Nat × Nat) : Nat :=
  roundMagnitude (2 * (r.1 * 2 ^ 149 / r.2) + (if r.1 * 2 ^ 149 % r.2 = 0 then 0 else 1)) 1

/-- RN32(cos(2π·j/4096)) for 0 ≤ j ≤ 1024, as the 31 bits below the sign: the first quadrant, its upper half by
cos(π/2 − a) = sin(a) (R134). -/
def quadrantCos (j : Nat) : Nat :=
  if j ≤ 512 then roundFraction (cosFraction j) else roundFraction (sinFraction (1024 - j))

/-- RN32(cos(2π·j/4096)) for 0 ≤ j < 2048: cos(π − a) = −cos(a) (R131, R134). -/
def circleCos (j : Nat) : Word :=
  if j ≤ 1024 then packSign false (quadrantCos j) else packSign true (quadrantCos (2048 - j))

/-- RN32(−sin(2π·j/4096)) for 0 ≤ j < 2048; the sine is non-negative there, and an exact zero becomes +0 (R131). -/
def circleNegSin (j : Nat) : Word :=
  if j = 0 then zero32 false
  else if j ≤ 1024 then packSign true (quadrantCos (1024 - j))
  else packSign true (quadrantCos (j - 1024))

/-- ROM entry W[j] of a unit with M = 2^LOG2_M, for 0 ≤ j < M/2 (R131): j/M = j·(4096/M)/4096. -/
def romEntry (p : Params) (j : Nat) : CWord :=
  { re := circleCos (j * 2 ^ (12 - p.log2M)), im := circleNegSin (j * 2 ^ (12 - p.log2M)) }

/-- TW(2^l, k) = W[k·(M/2^l)], for 1 ≤ l ≤ LOG2_M and 0 ≤ k < 2^l/2 (R133). -/
def twiddle (p : Params) (l k : Nat) : CWord := romEntry p (k * (p.size / 2 ^ l))

/-- rev(L, i), the L-bit index i with its bit order reversed (R137): bit 0 of i becomes bit L − 1. -/
def rev : Nat → Nat → Nat
  | 0, _ => 0
  | l + 1, i => i % 2 * 2 ^ l + rev l (i / 2)

end Sys2Proof.Machine
end

