-- ==== Sys2Proof/Machine/Transform.lean ====
section
/-! DEFINITION. The transform functions F(Bin) of the commands: reorder, one butterfly, one stage, the complex
transform, its recursive form, the recombination and the real transform (42_cfft.md R182 to R192, 43_rfft.md R211 to
R217). A window is the list of its complex words; a function that reads or writes word i is used only where i is below
the list's length. -/

namespace Sys2Proof.Machine

open Sys2Proof

/-- B[i]. The default is never taken: every index below is less than the window's length (Laws/Transform.lean). -/
def wordAt (b : List CWord) (i : Nat) : CWord := b.getD i { re := 0, im := 0 }

/-- permute(L, B)[i] = B[rev(L, i)] for 0 ≤ i < 2^L (R182). -/
def permute (l : Nat) (b : List CWord) : List CWord := (List.range (2 ^ l)).map fun i => wordAt b (rev l i)

/-- (B[p], B[q]) = butterfly(B[p], B[q], t, k), both outputs formed before either is written (R160, R186, R190). -/
def butterflyAt (b : List CWord) (p q : Nat) (t : CWord) (k : Nat) : List CWord :=
  (b.set p (butterfly (wordAt b p) (wordAt b q) t k).1).set q (butterfly (wordAt b p) (wordAt b q) t k).2

/-- The butterflies (p, q, k) of one block of size 2·h that starts at word `start`: for k in [0, h), p = start + k and
q = p + h (R185, R186). -/
def blockPairs (start h : Nat) : List (Nat × Nat × Nat) :=
  (List.range h).map fun k => (start + k, start + k + h, k)

/-- The butterflies of stage S over 2^L words: for b in [0, N/n), the block at b·n, with n = 2^S (R186). -/
def stagePairs (l st : Nat) : List (Nat × Nat × Nat) :=
  (List.range (2 ^ l / 2 ^ st)).flatMap fun b => blockPairs (b * 2 ^ st) (2 ^ st / 2)

/-- The butterflies of a list, one after the other, with the twiddles TW(2^n, k). -/
def runPairs (prm : Params) (n : Nat) (pairs : List (Nat × Nat × Nat)) (b : List CWord) : List CWord :=
  pairs.foldl (fun acc x => butterflyAt acc x.1 x.2.1 (twiddle prm n x.2.2) x.2.2) b

/-- stage(L, S, B) (R186). -/
def stage (prm : Params) (l st : Nat) (b : List CWord) : List CWord := runPairs prm st (stagePairs l st) b

/-- stage(L, S, … stage(L, 1, B) …), the stages 1 to S in order. -/
def stagesUpTo (prm : Params) (l : Nat) : Nat → List CWord → List CWord
  | 0, b => b
  | st + 1, b => stage prm l (st + 1) (stagesUpTo prm l st b)

/-- cfft(L, B) (R192); cfft(0, B) = B, used only by RFFT at N = 2. -/
def cfft (prm : Params) (l : Nat) (b : List CWord) : List CWord :=
  if l = 0 then b else stagesUpTo prm l l (permute l b)

/-- combine(L, B), the document's recursive combination (R185): each half by recursion, then one block over the whole. -/
def combine (prm : Params) : Nat → List CWord → List CWord
  | 0, b => b
  | l + 1, b =>
    runPairs prm (l + 1) (blockPairs 0 (2 ^ l)) (combine prm l (b.take (2 ^ l)) ++ combine prm l (b.drop (2 ^ l)))

/-- (out[k], out[H−k]) = recombine(Z[k], Z[H−k], TW(2^L, k)), reading Z and never a word already written (R211). -/
def recombineAt (prm : Params) (l : Nat) (z out : List CWord) (k : Nat) : List CWord :=
  (out.set k (recombine (wordAt z k) (wordAt z (2 ^ l / 2 - k)) (twiddle prm l k)).1).set (2 ^ l / 2 - k)
    (recombine (wordAt z k) (wordAt z (2 ^ l / 2 - k)) (twiddle prm l k)).2

/-- R211's loop over k in [1, N/4), from out with out[0] = dc(Z[0]); empty when N ≤ 4. -/
def recombinePairs (prm : Params) (l : Nat) (z : List CWord) : List CWord :=
  (List.range' 1 (2 ^ l / 4 - 1)).foldl (recombineAt prm l z) (z.set 0 (dcBin (wordAt z 0)))

/-- rpost(L, Z) (R211): the DC word, the pairs, and for N ≥ 4 the midpoint. -/
def rpost (prm : Params) (l : Nat) (z : List CWord) : List CWord :=
  if 4 ≤ 2 ^ l then (recombinePairs prm l z).set (2 ^ l / 4) (midBin (wordAt z (2 ^ l / 4)))
  else recombinePairs prm l z

/-- rfft(L, B) = rpost(L, cfft(L − 1, B)) for L ≥ 1 (R217). -/
def rfft (prm : Params) (l : Nat) (b : List CWord) : List CWord := rpost prm l (cfft prm (l - 1) b)

end Sys2Proof.Machine
end

