-- ==== Sys2Proof/Machine/Cfft.lean ====
section
/-! DEFINITION. The meanings of the complex transform commands (42_cfft.md): the CMD write of each (44_control.md R230)
with its function from the window Bin to the image Bout. The sequencer reads only LATCH (10_state.md R50). -/

namespace Sys2Proof.Machine

open Sys2Proof

/-- BITREV (R183): Bout = permute(L, Bin). -/
def execBitrev (l : Nibble) (s : State) : Result :=
  issue (.bitrev l) (fun latch bin => permute latch.l.toNat bin) s

/-- STAGE (R187): Bout = stage(L, S, Bin). -/
def execStage (l st : Nibble) (s : State) : Result :=
  issue (.stage l st) (fun latch bin => stage s.params latch.l.toNat latch.st.toNat bin) s

/-- BFLY (R190): Bout is Bin but for (Bout[p], Bout[q]) = butterfly(Bin[p], Bin[q], TW(N, k), k). -/
def execBfly (l : Nibble) (s : State) : Result :=
  issue (.bfly l) (fun latch bin =>
    butterflyAt bin latch.p.toNat latch.q.toNat (twiddle s.params latch.l.toNat latch.k.toNat) latch.k.toNat) s

/-- CFFT (R193): Bout = cfft(L, Bin). -/
def execCfft (l : Nibble) (s : State) : Result :=
  issue (.cfft l) (fun latch bin => cfft s.params latch.l.toNat bin) s

end Sys2Proof.Machine
end

