-- ==== Sys2Proof/Machine/Control.lean ====
section
/-! DEFINITION. The meaning of NOP (44_control.md). -/

namespace Sys2Proof.Machine

open Sys2Proof

/-- NOP (R235): accepted with W = 0 and no check, its image is empty. -/
def execNop (s : State) : Result := issue .nop (fun _ _ => []) s

end Sys2Proof.Machine
end

