-- ==== Sys2Proof/Machine/Rfft.lean ====
section
/-! DEFINITION. The meanings of the real transform commands (43_rfft.md). Here L counts real samples and the window is
2^L / 2 complex words (R210). -/

namespace Sys2Proof.Machine

open Sys2Proof

/-- RPOST (R214): Bout = rpost(L, Bin). -/
def execRpost (l : Nibble) (s : State) : Result :=
  issue (.rpost l) (fun latch bin => rpost s.params latch.l.toNat bin) s

/-- RFFT (R218): Bout = rfft(L, Bin). -/
def execRfft (l : Nibble) (s : State) : Result :=
  issue (.rfft l) (fun latch bin => rfft s.params latch.l.toNat bin) s

end Sys2Proof.Machine
end

