-- ==== Sys2Proof/Machine/Dispatch.lean ====
section
/-! DEFINITION. exec: the CMD write of a decoded command (44_control.md R230), one arm per row of the opcode table. -/

namespace Sys2Proof.Machine

open Sys2Proof

def exec (i : Instr) (s : State) : Host.Outcome State Fault Refusal :=
  match i with
  | .nop => Sys2Proof.Machine.execNop s
  | .bitrev l => Sys2Proof.Machine.execBitrev l s
  | .stage l st => Sys2Proof.Machine.execStage l st s
  | .bfly l => Sys2Proof.Machine.execBfly l s
  | .cfft l => Sys2Proof.Machine.execCfft l s
  | .rpost l => Sys2Proof.Machine.execRpost l s
  | .rfft l => Sys2Proof.Machine.execRfft l s

end Sys2Proof.Machine
end

