-- ==== Sys2Proof/Machine/Bus.lean ====
section
/-! DEFINITION. The bus slave port: the address map (20_memory.md R72), the registers (10_state.md R36 to R46), the
legality of an access (R76, R81), reads (R79), writes, and the byte view of a byte-addressed host (R77). One transaction is
one atomic event that returns (rdata, err) (R71). -/

namespace Sys2Proof.Machine

open Sys2Proof

/-- The registers of R36, `reserved` for the offsets 0x028 to 0x0FC. -/
inductive Reg where
  | id | config | ctrl | status | base | len | arg0 | arg1 | arg2 | cmd | reserved
deriving DecidableEq, Repr

/-- Register r is at offset 4·r (R35, R36). -/
def regAt (r : Nat) : Reg :=
  match r with
  | 0 => .id
  | 1 => .config
  | 2 => .ctrl
  | 3 => .status
  | 4 => .base
  | 5 => .len
  | 6 => .arg0
  | 7 => .arg1
  | 8 => .arg2
  | 9 => .cmd
  | _ => .reserved

/-- The regions of the offset space (R72). A ROM word is named by its entry and whether it is the imaginary half (R78),
a sample RAM half by its offset. -/
inductive Region where
  | reg (r : Reg)
  | rom (j : Nat) (imag : Bool)
  | ram (a : Nat)
  | unmapped
deriving DecidableEq, Repr

/-- The offset of the twiddle ROM (R72). -/
def romBase : Nat := 0x10000

/-- The region an offset lies in (R72). -/
def regionOf (p : Params) (a : Nat) : Region :=
  if a < 0x100 then .reg (regAt (a / 4))
  else if a < romBase then .unmapped
  else if a < romBase + 4 * p.size then .rom ((a - romBase) / 8) ((a - romBase) / 4 % 2 == 1)
  else if a < ramBase then .unmapped
  else if a < ramBase + 8 * p.size then .ram a
  else .unmapped

/-- The ID register: "FFT" and architecture version 1 (R37). -/
def idWord : Word := 0x46465401#32

/-- The CONFIG register: bits 3:0 = LOG2_M, bits 31:4 zero (R38). -/
def configWord (p : Params) : Word := BitVec.ofNat 32 p.log2M

/-- The value a read of a register returns (R36 to R46); reserved bits read 0. -/
def readReg (s : State) (r : Reg) : Word :=
  match r with
  | .id => idWord
  | .config => configWord s.params
  | .ctrl => (BitVec.ofBool s.ie).setWidth 32
  | .status => statusWord s.status
  | .base => s.base.setWidth 32
  | .len => s.len.setWidth 32
  | .arg0 => s.arg0.setWidth 32
  | .arg1 => s.arg1.setWidth 32
  | .arg2 => s.arg2.setWidth 32
  | .cmd => 0
  | .reserved => 0

/-- A host write of `w` to CMD (R230): decode, then the command's meaning; an ILLEGAL word has none and is rejected. -/
def commandWrite (w : Word) (s : State) : Result :=
  match decode w with
  | .ok i => exec i s
  | .error _ => .next (issueIllegal s)

/-- A legal host write of `w` to a register: exactly the implemented bits are stored (R46); a write to ID, CONFIG or a
reserved offset is ignored (R36); a write to CMD issues a command (R45). -/
def writeReg (r : Reg) (w : Word) (s : State) : Result :=
  match r with
  | .id => .next s
  | .config => .next s
  | .ctrl => .next { s with ie := w.getLsbD 0 }
  | .status => .next (hostClear w s)
  | .base => .next { s with base := w.setWidth 16 }
  | .len => .next { s with len := w.setWidth 16 }
  | .arg0 => .next { s with arg0 := w.setWidth 16 }
  | .arg1 => .next { s with arg1 := w.setWidth 16 }
  | .arg2 => .next { s with arg2 := w.setWidth 16 }
  | .cmd => commandWrite w s
  | .reserved => .next s

/-- The ROM word at a half of an entry: the real part at the lower offset (R78). -/
def romWord (p : Params) (j : Nat) (imag : Bool) : Word := if imag then (romEntry p j).im else (romEntry p j).re

/-- The transaction completes with a value on bus_rdata and no error. -/
def ackRead (w : Word) (s : State) : State := { s with bus := { ack := true, err := false, rdata := some w } }

/-- The transaction completes without error; the spec states no bus_rdata for a write (log 6). -/
def ackWrite (s : State) : State := { s with bus := { ack := true, err := false, rdata := none } }

/-- The transaction completes with bus_err = 1 and has no effect on any state (R76, R81, R254). -/
def busError (rdata : Option Word) (s : State) : State := { s with bus := { ack := true, err := true, rdata := rdata } }

/-- R76: an access is legal only when bus_addr[1:0] = 0 and, for a write, bus_wstrb = 0b1111. -/
def accessLegal (t : BusReq) : Bool := t.addr.toNat % 4 == 0 && (!t.we || t.wstrb == 0xF#4)

/-- A legal read of the sample RAM: a hazard while BUSY (R290), and no value for a half that nothing has written (R282). -/
def ramRead (a : Nat) (s : State) : Result :=
  if s.status.busy then .fault .hazardSramBusy
  else match readHalf s.mem a with
    | some w => .next (ackRead w s)
    | none => .fault .unwrittenSample

/-- A legal write of the sample RAM: a hazard while BUSY (R290), else the word is stored (R79). -/
def ramWrite (a : Nat) (w : Word) (s : State) : Result :=
  if s.status.busy then .fault .hazardSramBusy
  else .next (ackWrite { s with mem := writeBytes s.mem a (wordBytes w) })

/-- A legal read (R79: no read has a side effect). -/
def busRead (g : Region) (s : State) : Result :=
  match g with
  | .reg r => .next (ackRead (readReg s r) s)
  | .rom j imag => .next (ackRead (romWord s.params j imag) s)
  | .ram a => ramRead a s
  | .unmapped => .next (busError (some 0) s)

/-- A legal write (R79); a write to the ROM is a bus error (R78). -/
def busWrite (g : Region) (w : Word) (s : State) : Result :=
  match g with
  | .reg r => writeReg r w (ackWrite s)
  | .rom _ _ => .next (busError none s)
  | .ram a => ramWrite a w s
  | .unmapped => .next (busError (some 0) s)

/-- One host transaction. An unmapped offset is a bus error with bus_rdata 0, whatever else is wrong (R81); an illegal
access is a bus error, and a misaligned read returns 0 (R76). The order of these checks, before the hazard of R290, is
DEDUCED (log 10). -/
def busAccess (t : BusReq) (s : State) : Result :=
  if regionOf s.params t.addr.toNat = .unmapped then .next (busError (some 0) s)
  else if accessLegal t then
    if t.we then busWrite (regionOf s.params t.addr.toNat) t.wdata s
    else busRead (regionOf s.params t.addr.toNat) s
  else .next (busError (if t.we then none else some 0) s)

/-- What one port event does: a transaction presented before the unit has left reset is not acknowledged (R280), and is gone
with its step: DESIGN CHOICE (log 7). -/
def portEvent (e : Event) (s : State) : Result :=
  match e with
  | .bus t => if s.resetPhase = .out then busAccess t s else .next s
  | .clk => .next (clockEdge s)
  | .rst level => .next (setResetPin level s)

/-! ### The transactions of a host -/

/-- MemRead(addr, 4) (R14). -/
def memRead (addr : Offset) : BusReq := { we := false, addr := addr, wdata := 0, wstrb := 0 }

/-- MemWrite(addr, 4, v) (R14). -/
def memWrite (addr : Offset) (v : Word) : BusReq := { we := true, addr := addr, wdata := v, wstrb := 0xF#4 }

/-- The offset of CMD (R36). -/
def cmdOffset : Offset := 0x024#18

/-- The offset of STATUS (R36). -/
def statusOffset : Offset := 0x00C#18

/-! ### The byte view -/

/-- The system address of an offset (R72). -/
def systemAddress (p : Params) (a : Offset) : Nat := p.unitBase + a.toNat

/-- The offset of a system address inside the unit's space (R72). -/
def systemOffset (p : Params) (addr : Nat) : Option Offset :=
  if p.unitBase ≤ addr ∧ addr < p.unitBase + 2 ^ 18 then some (BitVec.ofNat 18 (addr - p.unitBase)) else none

/-- The 32-bit word that stands at an aligned offset, `none` where it has no value. -/
def peek (s : State) (a : Nat) : Option Word :=
  match regionOf s.params a with
  | .reg r => some (readReg s r)
  | .rom j imag => some (romWord s.params j imag)
  | .ram a => readHalf s.mem a
  | .unmapped => none

/-- The byte a byte-addressed host sees at a system address: byte offset 4·w + b holds bits 8·b+7 to 8·b of the word at
offset 4·w (R77). -/
def systemByte (s : State) (addr : Nat) : Option Byte :=
  match systemOffset s.params addr with
  | none => none
  | some a => (peek s (a.toNat / 4 * 4)).map fun w => w.extractLsb' (8 * (a.toNat % 4)) 8

end Sys2Proof.Machine
end

