-- ==== Sys2Proof/Machine/Step.lean ====
section
/-! DEFINITION. One step of the unit: the next port event of the agenda takes effect (20_memory.md R84); with nothing to
come, time passes (44_control.md R233: completion happens). The unit has no program counter (10_state.md R33): the next
instruction is the word of the next CMD write. -/

namespace Sys2Proof.Machine

open Sys2Proof

/-- One step. The bus outputs are those of this step's transaction, if it completes one. -/
def step (s : State) : Host.Outcome State Fault Refusal :=
  match s.agenda with
  | [] => portEvent .clk { s with bus := BusOut.idle }
  | e :: rest => portEvent e { s with bus := BusOut.idle, agenda := rest }

/-- The state with the CMD write of a table word as the next port event, the unit out of reset: the very next step decodes
and runs that word (R89: a command is the value of one CMD write). See log 5. -/
def State.withFetchWord (s : State) (nbits w : Nat) : State :=
  { s with resetPhase := .out, agenda := .bus (memWrite cmdOffset (tableWord nbits w)) :: s.agenda }

end Sys2Proof.Machine
end

