-- ==== Sys2Proof/Machine/Script.lean ====
section
/-! DEFINITION. The host's side: the script language the spec writes host programs in (30_encoding.md R108 to R110), its
assembler, and a host that runs a script against the unit. The host is no part of the unit; it only puts port events at the
head of the agenda and reads the bus outputs. -/

namespace Sys2Proof.Machine

open Sys2Proof

/-- The command mnemonics, which take sizes and not exponents (R109). -/
inductive Mnemonic where
  | nop
  | bitrev (n : Nat)
  | stage (n block : Nat)
  | bfly (n : Nat)
  | cfft (n : Nat)
  | rpost (n : Nat)
  | rfft (n : Nat)
  | word (w : Word)
deriving DecidableEq, Repr

/-- The statements of the script language (R108) and its pseudo-instructions (R110). -/
inductive Stmt where
  | wr (r : Reg) (v : Word)
  | rd (r : Reg)
  | wrw (a : Offset) (v : Word)
  | rdw (a : Offset)
  | ws (j : Nat) (re im : Word)
  | wsr (j : Nat) (v : Word)
  | cmd (c : Mnemonic)
  | setbuf (b n : Word)
  | setbfly (p q k : Word)
  | wait
  | ack
  | run (c : Mnemonic)
deriving DecidableEq, Repr

/-- What a statement makes the host do: one bus transaction, or polling STATUS. -/
inductive HostOp where
  | access (t : BusReq)
  | poll
deriving DecidableEq, Repr

/-- L = log2(N); a size that is not a power of two from 2 to 2^15 is refused (R109). -/
def sizeExponent (n : Nat) : Option Nibble :=
  if 2 ≤ n ∧ n ≤ 2 ^ 15 ∧ 2 ^ Nat.log2 n = n then some (BitVec.ofNat 4 (Nat.log2 n)) else none

/-- The command word of a mnemonic (R109). R109 states the refusal of a size for N only; DESIGN CHOICE (log 15): the block size of
`stage` is refused alike unless it is a power of two from 2 to 2^15, so a block size of 1 (S = 0) is refused too. -/
def assembleWord : Mnemonic → Option Word
  | .nop => some (encode .nop)
  | .bitrev n => (sizeExponent n).map fun l => encode (.bitrev l)
  | .stage n block => (sizeExponent n).bind fun l => (sizeExponent block).map fun st => encode (.stage l st)
  | .bfly n => (sizeExponent n).map fun l => encode (.bfly l)
  | .cfft n => (sizeExponent n).map fun l => encode (.cfft l)
  | .rpost n => (sizeExponent n).map fun l => encode (.rpost l)
  | .rfft n => (sizeExponent n).map fun l => encode (.rfft l)
  | .word w => some w

/-- offset(REG) for the register names of R36. -/
def regOffset : Reg → Option Offset
  | .id => some 0x000#18
  | .config => some 0x004#18
  | .ctrl => some 0x008#18
  | .status => some 0x00C#18
  | .base => some 0x010#18
  | .len => some 0x014#18
  | .arg0 => some 0x018#18
  | .arg1 => some 0x01C#18
  | .arg2 => some 0x020#18
  | .cmd => some 0x024#18
  | .reserved => none

/-- The write of a register by name (R108). -/
def writeOp (r : Reg) (v : Word) : Option HostOp := (regOffset r).map fun a => .access (memWrite a v)

/-- The CMD write of a mnemonic (R108). -/
def commandOp (c : Mnemonic) : Option HostOp := (assembleWord c).map fun w => .access (memWrite cmdOffset w)

/-- The write of a 32-bit half of the sample RAM at byte `a` of it (R108). The offset is an exact integer and never wraps (R13,
R150). R108 bounds no sample number; DESIGN CHOICE (log 16): an offset outside the 18-bit space (R70) is refused. -/
def sampleOp (a : Nat) (v : Word) : Option HostOp :=
  if ramBase + a < 2 ^ 18 then some (.access (memWrite (BitVec.ofNat 18 (ramBase + a)) v)) else none

/-- The expansion of a statement (R108, R110); `none` if the assembler refuses it. -/
def assembleStmt : Stmt → Option (List HostOp)
  | .wr r v => (writeOp r v).map fun o => [o]
  | .rd r => (regOffset r).map fun a => [.access (memRead a)]
  | .wrw a v => some [.access (memWrite a v)]
  | .rdw a => some [.access (memRead a)]
  | .ws j re im => [sampleOp (8 * j) re, sampleOp (8 * j + 4) im].mapM id
  | .wsr j v => (sampleOp (4 * j) v).map fun o => [o]
  | .cmd c => (commandOp c).map fun o => [o]
  | .setbuf b n => [writeOp .base b, writeOp .len n].mapM id
  | .setbfly p q k => [writeOp .arg0 p, writeOp .arg1 q, writeOp .arg2 k].mapM id
  | .wait => some [.poll]
  | .ack => (writeOp .status 0x0000000E#32).map fun o => [o]
  | .run c => (commandOp c).map fun o => [o, .poll]

/-- A script, assembled statement by statement. -/
def assemble : List Stmt → Option (List HostOp)
  | [] => some []
  | x :: xs =>
    match assembleStmt x, assemble xs with
    | some a, some b => some (a ++ b)
    | _, _ => none

/-- The unit with a port event presented before everything else to come. -/
def present (e : Event) (s : State) : State := { s with agenda := e :: s.agenda }

/-- R110: `wait` ends when STATUS is read with bit 0 = 0 and bit 1 = 1. -/
def pollDone (o : BusOut) : Bool :=
  match o.rdata with
  | some w => !w.getLsbD 0 && w.getLsbD 1
  | none => false

/-- The transaction that an operation of the host presents. -/
def request : HostOp → BusReq
  | .access t => t
  | .poll => memRead statusOffset

/-- The operation has completed: an access when it is acknowledged (R71: bus_ack; R280: none under reset), polling when its read
of STATUS sees the end (R110, R296). -/
def finished : HostOp → BusOut → Bool
  | .access _, o => o.ack
  | .poll, o => o.ack && pollDone o

/-- One transaction of the host against the unit. An operation that has not completed is tried again, after the next event from
outside, or after a clock edge if there is none (log 8). -/
def hostStep : List HostOp → State → Host.Outcome (List HostOp × State) Fault Refusal
  | [], s => .next ([], s)
  | o :: rest, s =>
    match step (present (.bus (request o)) s) with
    | .next s' =>
      if finished o s'.bus then .next (rest, s')
      else match step s' with
        | .next s'' => .next (o :: rest, s'')
        | .fault e => .fault e
        | .refused e => .refused e
    | .fault e => .fault e
    | .refused e => .refused e

/-- At most `fuel` transactions of the host; the run has ended when no operation is left, that is, when its last statement has
completed (R296). -/
def hostRun : Nat → List HostOp → State → Host.Outcome (List HostOp × State) Fault Refusal
  | 0, ops, s => .next (ops, s)
  | fuel + 1, ops, s =>
    match hostStep ops s with
    | .next r => hostRun fuel r.1 r.2
    | .fault e => .fault e
    | .refused e => .refused e

end Sys2Proof.Machine
end

