-- ==== Sys2Proof/Safety.lean ====
section
/-! DEFINITION. What a safe run is, in the terms claims use: the invariant of the unit's state, the error a host program
must exclude, and a step that does not stop. -/

namespace Sys2Proof

open Sys2Proof.Machine

/-- The phase is RUNNING (R51). -/
def isRunning (p : Phase) : Bool :=
  match p with
  | .idle => false
  | .running _ _ => true

/-- Every listed byte lies in the sample RAM (R72). -/
def memInRam (s : State) : Prop := ∀ c ∈ s.mem, ramBase ≤ c.1 ∧ c.1 < ramBase + 8 * s.params.size

/-- The host writes whole 32-bit halves (R76, R282): a half with a listed byte is written. -/
def memWholeHalves (m : Memory) : Prop := ∀ c ∈ m, (readHalf m (c.1 / 4 * 4)).isSome = true

/-- LATCH and the image of a RUNNING sequencer: LATCH holds a command, the image has that command's word count, and its
window, if it has one, lies in the sample RAM (R50, R180, R235). -/
def runningFits (s : State) : Prop :=
  ∀ bout left, s.phase = .running bout left →
    ∃ i, decode (commandWord s.latch.op s.latch.l s.latch.st) = .ok i ∧ bout.length = windowWords i ∧
      (0 < windowWords i → s.latch.base.toNat + windowWords i ≤ s.params.size)

/-- Until the unit has left reset every register is at its reset value, the sequencer IDLE, the sample RAM unwritten (R280). -/
def heldInReset (s : State) : Prop :=
  s = { State.resetOf s.params with resetPhase := s.resetPhase, bus := s.bus, agenda := s.agenda }

/-- The invariant of the unit's state: it holds at reset and every step keeps it. -/
structure Inv (s : State) : Prop where
  /-- The memory is in canonical form. -/
  memSorted : Memory.wf s.mem
  memInRam : memInRam s
  memWhole : memWholeHalves s.mem
  /-- R41: ERR = 1 exactly when ERRCODE ≠ 0. -/
  errIffCode : s.status.err = true ↔ s.status.errcode ≠ 0
  /-- R241: the codes 6 to 15 are never produced. -/
  codeKnown : s.status.errcode.toNat ≤ 5
  /-- R41: BUSY = 1 implies DONE = 0 and ERR = 0. -/
  busyClean : s.status.busy = true → s.status.done = false ∧ s.status.err = false
  /-- R51: RUNNING exactly when STATUS.BUSY = 1. -/
  busyIffRunning : s.status.busy = isRunning s.phase
  runningFits : runningFits s
  resetHeld : s.resetPhase ≠ .out → heldInReset s

/-- R249: a model treats STATUS.ERR = 1 after a command as a fault of the host program, which a claim excludes by its
premises; the unit's own state stays well defined. -/
def hostProgramFault (s : State) : Prop := s.status.err = true

/-- The step does not stop. -/
def stepSafe (s : State) : Prop := ∃ t, step s = .next t

/-- The next port event is a legal host access to the sample RAM. -/
def sampleAccessNext (s : State) : Prop :=
  ∃ t rest a, s.agenda = .bus t :: rest ∧ s.resetPhase = .out ∧ regionOf s.params t.addr.toNat = .ram a ∧ accessLegal t = true

end Sys2Proof
end

