-- ==== Sys2Proof/Safety/Rounding.lean ====
section
/-! DEFINITION. RN32 as 41_datapath.md R152 states it, on exact real numbers: the terms in which claims about the arithmetic
and about the twiddle ROM are stated. Nothing of the machine uses this file. -/

namespace Sys2Proof

open Sys2Proof.Machine

/-- Neither an infinity nor a NaN (R151). -/
def finite32 (w : Word) : Bool := expField w != 255

/-- The value of a finite binary32 word (R151): its integer value in units of 2^-149. -/
def value32 (w : Word) : ℚ := (exactValue w : ℚ) / 2 ^ 149

/-- 2^128 − 2^103, from which on a magnitude rounds to an infinity (R152). -/
def overflowBound : ℝ := 2 ^ 128 - 2 ^ 103

/-- `w` is RN32(v), up to the sign of a zero that rounds an exact zero (R152): from the overflow bound on, the infinity of v's
sign; below it, a finite value with v's sign that no finite value is nearer to v than, and whose fraction is even if another
value is as near. -/
structure RoundsTo (v : ℝ) (w : Word) : Prop where
  overflow : overflowBound ≤ |v| → w = infinity (decide (v < 0))
  finite : |v| < overflowBound → finite32 w = true
  nearest : |v| < overflowBound → ∀ y, finite32 y = true → |v - (value32 w : ℝ)| ≤ |v - (value32 y : ℝ)|
  tieEven : |v| < overflowBound → ∀ y, finite32 y = true → value32 y ≠ value32 w →
    |v - (value32 y : ℝ)| = |v - (value32 w : ℝ)| → fracField w % 2 = 0
  sign : v ≠ 0 → signBit w = decide (v < 0)

end Sys2Proof
end

