-- ==== Sys2Proof/Certificates/Slice0/Obligations.lean ====
section
/-! DEFINITION. The statements about the model, each a def Obligations.<Name> : Prop whose docstring names the rule of spec/ it
formalises. The namespace Claims holds the few words they share. -/

namespace Sys2Proof.Claims

open Sys2Proof Sys2Proof.Machine

/-- LATCH as R50 captures it from a command word's fields and the operand registers. -/
def latchOf (op l st : Nibble) (s : State) : Latch :=
  { op := op, l := l, st := st, base := s.base, len := s.len, p := s.arg0, q := s.arg1, k := s.arg2 }

/-- The state after acceptance, field by field (R231, R41). -/
def acceptedState (s : State) (latch : Latch) (bout : List CWord) : State :=
  { s with
    latch := latch
    status := { busy := true, done := false, err := false, ovr := s.status.ovr, errcode := 0 }
    phase := .running bout (s.params.latency latch.op.toNat latch.l.toNat) }

/-- The state after rejection with a code, field by field (R232, R41). -/
def rejectedState (s : State) (code : Nibble) : State :=
  { s with status := { busy := s.status.busy, done := true, err := true, ovr := s.status.ovr, errcode := code } }

/-- The state after a CMD write while BUSY, field by field (R234, R41). -/
def overrunState (s : State) : State :=
  { s with status := { busy := s.status.busy, done := s.status.done, err := s.status.err, ovr := true, errcode := s.status.errcode } }

/-- The conditions under which a command of size exponent `l` with a window of `w` words passes every check that is common to
all of them (R247), its window being written and holding `bin` (R282). -/
def ready (s : State) (l : Nibble) (w : Nat) (bin : List CWord) : Prop :=
  s.status.busy = false ∧ 1 ≤ l.toNat ∧ l.toNat ≤ s.params.log2M ∧ s.len.toNat = 2 ^ l.toNat ∧
    s.base.toNat + w ≤ s.params.size ∧ readWindow s.mem s.base.toNat w = some bin

/-- The completion step of `t` leaves `bout` in the window of LATCH and every other sample RAM byte as it was (R233, R180). -/
def leavesWindow (t : State) (bout : List CWord) : Prop :=
  readWindow (complete t).mem t.latch.base.toNat bout.length = some bout ∧
    ∀ a, (a < 0x20000 + 8 * t.latch.base.toNat ∨ 0x20000 + 8 * (t.latch.base.toNat + bout.length) ≤ a) →
      readByte (complete t).mem a = readByte t.mem a

/-- `out` is rpost(L, z), word by word (R211): the DC word, the pairs k and H − k for 1 ≤ k < N/4, the midpoint for N ≥ 4. -/
def recombined (prm : Params) (l : Nat) (z out : List CWord) : Prop :=
  out.length = 2 ^ l / 2 ∧
  (∀ a, z[0]? = some a → out[0]? = some (dcBin a)) ∧
  (∀ k a b, 1 ≤ k → k < 2 ^ l / 4 → z[k]? = some a → z[2 ^ l / 2 - k]? = some b →
    out[k]? = some (recombine a b (twiddle prm l k)).1 ∧
    out[2 ^ l / 2 - k]? = some (recombine a b (twiddle prm l k)).2) ∧
  (∀ a, 4 ≤ 2 ^ l → z[2 ^ l / 4]? = some a → out[2 ^ l / 4]? = some (midBin a))

/-- A command written to CMD and run to its completion step. -/
def issueAndComplete (i : Instr) (s : State) : Option State :=
  match exec i s with
  | .next t => some (complete t)
  | .fault _ => none
  | .refused _ => none

/-- BFLY commands of size exponent `l`, one for each (p, q, k), ARG0 to ARG2 written before each. -/
def runBflys (l : Nibble) : List (Nat × Nat × Nat) → State → Option State
  | [], s => some s
  | x :: xs, s =>
    match issueAndComplete (.bfly l)
      { s with arg0 := BitVec.ofNat 16 x.1, arg1 := BitVec.ofNat 16 x.2.1, arg2 := BitVec.ofNat 16 x.2.2 } with
    | some t => runBflys l xs t
    | none => none

/-- The BFLY arguments of R191: (b·2^S + j, b·2^S + j + 2^(S−1), j·2^(L−S)) for b in [0, N/2^S) and j in [0, 2^(S−1)). -/
def stageAsBflys (l st : Nat) : List (Nat × Nat × Nat) :=
  (List.range (2 ^ (l - st))).flatMap fun b => (List.range (2 ^ (st - 1))).map fun j =>
    (b * 2 ^ st + j, b * 2 ^ st + j + 2 ^ (st - 1), j * 2 ^ (l - st))

/-- The REF32 sum of 2^l words, added pairwise: the sum of the first half plus the sum of the second (R195). -/
def treeSum : Nat → List Word → Word
  | 0, b => b.headD 0
  | l + 1, b => add32 (treeSum l (b.take (2 ^ l))) (treeSum l (b.drop (2 ^ l)))

end Sys2Proof.Claims

open Sys2Proof Sys2Proof.Machine Sys2Proof.Claims

/-! ### Encoding -/

/-- R103, R104: decoding and encoding agree, both ways, at every operand. -/
def Obligations.DecodeInvertsEncode : Prop :=
  ∀ (w : Word) (i : Instr), decode w = .ok i ↔ encode i = w

/-- R104: every word matches exactly one row of R103 or is ILLEGAL, and the decoder follows R104's pseudocode; a decoded command
whose size exponent or stage is outside its legal range is not ILLEGAL but rejected as UNSUPPORTED_SIZE or BAD_ARG. -/
def Obligations.DecodeMatchesExactlyOneRow : Prop :=
  ∀ w : Word,
    (((∃ e, decode w = .error e) ∧ opcodeRows.filter (rowMatches w) = []) ∨
      (∃ i, decode w = .ok i ∧ opcodeRows.filter (rowMatches w) = [rowOf i])) ∧
    (reservedField w ≠ 0 → ∃ e, decode w = .error e) ∧
    (reservedField w = 0 →
      (opField w = 0 → sizeField w = 0 → stageField w = 0 → decode w = .ok .nop) ∧
      (opField w = 1 → stageField w = 0 → decode w = .ok (.bitrev (sizeField w))) ∧
      (opField w = 2 → decode w = .ok (.stage (sizeField w) (stageField w))) ∧
      (opField w = 3 → stageField w = 0 → decode w = .ok (.bfly (sizeField w))) ∧
      (opField w = 4 → stageField w = 0 → decode w = .ok (.cfft (sizeField w))) ∧
      (opField w = 5 → stageField w = 0 → decode w = .ok (.rpost (sizeField w))) ∧
      (opField w = 6 → stageField w = 0 → decode w = .ok (.rfft (sizeField w))) ∧
      (opField w ≠ 2 → opField w ≠ 0 → stageField w ≠ 0 → ∃ e, decode w = .error e) ∧
      (opField w = 0 → (sizeField w ≠ 0 ∨ stageField w ≠ 0) → ∃ e, decode w = .error e) ∧
      (7 ≤ (opField w).toNat → ∃ e, decode w = .error e)) ∧
    (∀ (i : Instr) (s : State), decode w = .ok i → s.status.busy = false → i.wellFormed s.params.log2M = false →
      exec i s = .next (rejectedState s 2) ∨ exec i s = .next (rejectedState s 3))

/-- R105, R242: which words are ILLEGAL, and that the CMD write of one is rejected with ILLEGAL_CMD whatever the operand
registers hold, changing nothing but STATUS. -/
def Obligations.IllegalWordsAreRejected : Prop :=
  (∀ w : Word, (∃ e, decode w = .error e) ↔
    (reservedField w ≠ 0 ∨ 7 ≤ (opField w).toNat ∨ (opField w = 0 ∧ (sizeField w ≠ 0 ∨ stageField w ≠ 0)) ∨
      ((opField w = 1 ∨ opField w = 3 ∨ opField w = 4 ∨ opField w = 5 ∨ opField w = 6) ∧ stageField w ≠ 0))) ∧
  (∀ (w : Word) (e : DecodeError) (s : State), decode w = .error e → s.status.busy = false →
    commandWrite w s = .next (rejectedState s 1))

/-- R103, R109: words written out from the bit patterns decode to the commands they stand for. -/
def Obligations.WrittenOutWordsDecode : Prop :=
  decode 0b00000000000000000000000000000000#32 = .ok .nop ∧
  decode 0b00000000000000000000000001010001#32 = .ok (.bitrev 5) ∧
  decode 0b00000000000000000000001101110010#32 = .ok (.stage 7 3) ∧
  decode 0b00000000000000000000000000100011#32 = .ok (.bfly 2) ∧
  decode 0b00000000000000000000000011000100#32 = .ok (.cfft 12) ∧
  decode 0b00000000000000000000000000110101#32 = .ok (.rpost 3) ∧
  decode 0b00000000000000000000000001000110#32 = .ok (.rfft 4) ∧
  decode 0b00000000000000000000000100100100#32 = .error .unusedField ∧
  decode 0b00000000000000000000000000000111#32 = .error .reservedOp

/-! ### A step runs the decoded command -/

/-- R230: when the next port event out of reset is a CMD write, of any word, the step is the command write of that word, with the
event taken off the agenda and the transaction acknowledged; where the word decodes to `i`, that is exec of `i`. So an ILLEGAL word
written at the port reaches the rejection of R242, and any word the overrun of R234.
That the port events are a list, and the value of bus_rdata, are the model's own (logs 8, 6). -/
def Obligations.StepRunsDecodedCommand : Prop :=
  ∀ (s : State) (w : Word) (rest : List Event), s.resetPhase = .out →
    s.agenda = .bus { we := true, addr := 0x024#18, wdata := w, wstrb := 0xF#4 } :: rest →
    let s' := { s with agenda := rest, bus := { ack := true, err := false, rdata := none } }
    step s = commandWrite w s' ∧
    (∀ i, decode w = .ok i → step s = exec i s') ∧
    (∀ e, decode w = .error e → s.status.busy = false → step s = .next (rejectedState s' 1)) ∧
    (s.status.busy = true → step s = .next (overrunState s'))

/-- The next step after withFetchWord runs exactly the word, whatever the state and the word were, the unit being out of reset (the
model's own convention, log 5; the value of bus_rdata is the model's own too, log 6). -/
def Obligations.FetchedWordRunsNext : Prop :=
  ∀ (s : State) (w : Word),
    let s' := { s with resetPhase := .out, bus := { ack := true, err := false, rdata := none } }
    step (s.withFetchWord 32 w.toNat) = commandWrite w s' ∧
    ∀ i, decode w = .ok i → step (s.withFetchWord 32 w.toNat) = exec i s'

/-! ### Each command's effect -/

/-- R235: NOP is accepted whenever the unit is not BUSY, whatever the operand registers and the sample RAM hold, with an empty
image. -/
def Obligations.NopIsAccepted : Prop :=
  ∀ s : State, s.status.busy = false → exec .nop s = .next (acceptedState s (latchOf 0 0 0 s) []) ∧
    ∀ a, readByte (complete (acceptedState s (latchOf 0 0 0 s) [])).mem a = readByte s.mem a

/-- R183, R182: BITREV is accepted under the conditions of R247 and its image is the window with word rev(L, i) at i. -/
def Obligations.BitrevPermutesWindow : Prop :=
  ∀ (s : State) (l : Nibble) (bin : List CWord), ready s l (2 ^ l.toNat) bin →
    ∃ bout, exec (.bitrev l) s = .next (acceptedState s (latchOf 1 l 0 s) bout) ∧
      leavesWindow (acceptedState s (latchOf 1 l 0 s) bout) bout ∧
      bout.length = 2 ^ l.toNat ∧
      ∀ i < 2 ^ l.toNat, ∃ c, bin[rev l.toNat i]? = some c ∧ bout[i]? = some c

/-- R187, R186: STAGE is accepted under the conditions of R247 and every word of its image is an output of the butterfly of its
pair, on the words as they were. -/
def Obligations.StageCombinesBlocks : Prop :=
  ∀ (s : State) (l st : Nibble) (bin : List CWord), ready s l (2 ^ l.toNat) bin → 1 ≤ st.toNat → st.toNat ≤ l.toNat →
    ∃ bout, exec (.stage l st) s = .next (acceptedState s (latchOf 2 l st s) bout) ∧
      leavesWindow (acceptedState s (latchOf 2 l st s) bout) bout ∧
      bout.length = 2 ^ l.toNat ∧
      ∀ b < 2 ^ (l.toNat - st.toNat), ∀ k < 2 ^ (st.toNat - 1), ∃ f x,
        bin[b * 2 ^ st.toNat + k]? = some f ∧ bin[b * 2 ^ st.toNat + k + 2 ^ (st.toNat - 1)]? = some x ∧
        bout[b * 2 ^ st.toNat + k]? = some (butterfly f x (twiddle s.params st.toNat k) k).1 ∧
        bout[b * 2 ^ st.toNat + k + 2 ^ (st.toNat - 1)]? = some (butterfly f x (twiddle s.params st.toNat k) k).2

/-- R190: BFLY is accepted under the conditions of R247, p > q included, and its image is the window but for the two outputs of
the one butterfly. -/
def Obligations.BflyChangesTwoWords : Prop :=
  ∀ (s : State) (l : Nibble) (bin : List CWord), ready s l (2 ^ l.toNat) bin →
    s.arg0.toNat < 2 ^ l.toNat → s.arg1.toNat < 2 ^ l.toNat → s.arg0 ≠ s.arg1 → s.arg2.toNat < 2 ^ l.toNat / 2 →
    ∃ bout f x, exec (.bfly l) s = .next (acceptedState s (latchOf 3 l 0 s) bout) ∧
      leavesWindow (acceptedState s (latchOf 3 l 0 s) bout) bout ∧
      bout.length = 2 ^ l.toNat ∧
      bin[s.arg0.toNat]? = some f ∧ bin[s.arg1.toNat]? = some x ∧
      bout[s.arg0.toNat]? = some (butterfly f x (twiddle s.params l.toNat s.arg2.toNat) s.arg2.toNat).1 ∧
      bout[s.arg1.toNat]? = some (butterfly f x (twiddle s.params l.toNat s.arg2.toNat) s.arg2.toNat).2 ∧
      ∀ i, i ≠ s.arg0.toNat → i ≠ s.arg1.toNat → bout[i]? = bin[i]?

/-- R193, R185, R188: CFFT is accepted under the conditions of R247 and its image is the document's recursive combination of the
reordered window. -/
def Obligations.CfftIsRecursiveCombination : Prop :=
  ∀ (s : State) (l : Nibble) (bin : List CWord), ready s l (2 ^ l.toNat) bin →
    ∃ bout, exec (.cfft l) s = .next (acceptedState s (latchOf 4 l 0 s) bout) ∧
      leavesWindow (acceptedState s (latchOf 4 l 0 s) bout) bout ∧
      bout = combine s.params l.toNat (permute l.toNat bin)

/-- R214, R211: RPOST is accepted under the conditions of R247 and its image is the recombination of the window. -/
def Obligations.RpostRecombinesWindow : Prop :=
  ∀ (s : State) (l : Nibble) (bin : List CWord), ready s l (2 ^ l.toNat / 2) bin →
    ∃ bout, exec (.rpost l) s = .next (acceptedState s (latchOf 5 l 0 s) bout) ∧
      leavesWindow (acceptedState s (latchOf 5 l 0 s) bout) bout ∧
      recombined s.params l.toNat bin bout

/-- R218, R217: RFFT is accepted under the conditions of R247 and its image is the recombination of the half-length complex
transform of the window, which for N = 2 is the window itself. -/
def Obligations.RfftRecombinesHalfTransform : Prop :=
  ∀ (s : State) (l : Nibble) (bin : List CWord), ready s l (2 ^ l.toNat / 2) bin →
    ∃ bout, exec (.rfft l) s = .next (acceptedState s (latchOf 6 l 0 s) bout) ∧
      leavesWindow (acceptedState s (latchOf 6 l 0 s) bout) bout ∧
      recombined s.params l.toNat
        (combine s.params (l.toNat - 1) (permute (l.toNat - 1) bin)) bout

/-- R183, R138: BITREV run twice leaves the window as it was. -/
def Obligations.BitrevTwiceRestoresWindow : Prop :=
  ∀ (s : State) (l : Nibble) (bin : List CWord), ready s l (2 ^ l.toNat) bin →
    ∃ t u, issueAndComplete (.bitrev l) s = some t ∧ issueAndComplete (.bitrev l) t = some u ∧
      readWindow u.mem u.base.toNat (2 ^ l.toNat) = some bin

/-- R194: N = 2 is exact: CFFT with L = 1 gives the lane-wise sum and difference of its two words, bit for bit. -/
def Obligations.CfftOfTwoIsExact : Prop :=
  ∀ (s : State) (b0 b1 : CWord), ready s 1 2 [b0, b1] →
    exec (.cfft 1) s = .next (acceptedState s (latchOf 4 1 0 s) [cadd b0 b1, csub b0 b1])

/-- R195: for an input whose imaginary parts are all +0, bin 0 of CFFT is the pairwise REF32 sum of the real parts, with
imaginary part +0. -/
def Obligations.CfftDcBinOfRealInput : Prop :=
  ∀ (prm : Params) (l : Nat) (b : List CWord), 1 ≤ l → b.length = 2 ^ l → (∀ c ∈ b, c.im = 0#32) →
    (cfft prm l b)[0]? = some { re := treeSum l ((permute l b).map CWord.re), im := 0#32 }

/-! ### Commands made of commands -/

/-- R188: the recursion equals the stage sequence, bit for bit, for every window. -/
def Obligations.RecursionEqualsStageSequence : Prop :=
  ∀ (prm : Params) (l : Nat) (b : List CWord), b.length = 2 ^ l → combine prm l b = stagesUpTo prm l l b

/-- R191: a STAGE leaves the same window as the BFLY commands with the same L, base and len, run in any order. -/
def Obligations.StageEqualsBflysInAnyOrder : Prop :=
  ∀ (s : State) (l st : Nibble) (bin : List CWord) (order : List (Nat × Nat × Nat)),
    ready s l (2 ^ l.toNat) bin → 1 ≤ st.toNat → st.toNat ≤ l.toNat →
    order.Perm (stageAsBflys l.toNat st.toNat) →
    ∃ t u w, issueAndComplete (.stage l st) s = some t ∧ runBflys l order s = some u ∧
      readWindow t.mem s.base.toNat (2 ^ l.toNat) = some w ∧ readWindow u.mem s.base.toNat (2 ^ l.toNat) = some w

/-- R219: for L ≥ 2 RFFT leaves the same window as CFFT with L − 1 and LEN halved, followed by RPOST with L; for L = 1 the same as
RPOST alone. -/
def Obligations.RfftEqualsCfftThenRpost : Prop :=
  (∀ (s : State) (l h : Nibble) (bin : List CWord), ready s l (2 ^ l.toNat / 2) bin → h.toNat + 1 = l.toNat →
    2 ≤ l.toNat →
    ∃ t u v w, issueAndComplete (.rfft l) s = some t ∧
      issueAndComplete (.cfft h) { s with len := BitVec.ofNat 16 (2 ^ h.toNat) } = some u ∧
      issueAndComplete (.rpost l) { u with len := s.len } = some v ∧
      readWindow t.mem s.base.toNat (2 ^ l.toNat / 2) = some w ∧
      readWindow v.mem s.base.toNat (2 ^ l.toNat / 2) = some w) ∧
  (∀ (s : State) (bin : List CWord), ready s 1 1 bin →
    ∃ t v w, issueAndComplete (.rfft 1) s = some t ∧ issueAndComplete (.rpost 1) s = some v ∧
      readWindow t.mem s.base.toNat 1 = some w ∧ readWindow v.mem s.base.toNat 1 = some w)

/-! ### Completion -/

/-- R233, R91: the completion step writes the image into the window in one step, sets DONE, clears BUSY, and leaves every byte
outside the window and every other register as it was. It happens at the last clock edge.
That it happens also when no event is left is the model's own choice (log 8), and that the phase holds the image is its own
inference (log 3). -/
def Obligations.CompletionWritesTheWindow : Prop :=
  ∀ (s : State) (bout : List CWord) (left : Nat), s.resetPhase = .out → s.phase = .running bout left → left ≤ 1 →
    (s.agenda = [] ∨ ∃ rest, s.agenda = .clk :: rest) →
    ∃ t, step s = .next t ∧ readWindow t.mem s.latch.base.toNat bout.length = some bout ∧
      (∀ a, (a < 0x20000 + 8 * s.latch.base.toNat ∨ 0x20000 + 8 * (s.latch.base.toNat + bout.length) ≤ a) →
        readByte t.mem a = readByte s.mem a) ∧
      t.status = { busy := false, done := true, err := s.status.err, ovr := s.status.ovr, errcode := s.status.errcode } ∧
      t.phase = .idle ∧ t.params = s.params ∧ t.resetPhase = .out ∧ t.ie = s.ie ∧ t.base = s.base ∧ t.len = s.len ∧
      t.arg0 = s.arg0 ∧ t.arg1 = s.arg1 ∧ t.arg2 = s.arg2 ∧ t.latch = s.latch

/-- R233, R292, R258: with no event to come, a RUNNING command waits without effect on any state and completes at exactly the last
of its `left` clock edges, which changes the window, STATUS and the phase alone; and a clock edge at which nothing completes changes
nothing but the count of edges left, while IDLE nothing at all (bus_ack is 0 in both).
That time passes when no event is left is the model's own (log 8), and that the phase holds the image (log 3). -/
def Obligations.CompletionAfterLatency : Prop :=
  (∀ (s : State) (bout : List CWord) (left : Nat), s.resetPhase = .out → s.phase = .running bout left → 1 ≤ left →
    s.agenda = [] →
    (∀ n < left, ∃ b, Sys2Proof.core.run n s = .next { s with phase := .running bout (left - n), bus := b }) ∧
    (∃ m b, Sys2Proof.core.run left s = .next { s with
        mem := m
        status := { busy := false, done := true, err := s.status.err, ovr := s.status.ovr, errcode := s.status.errcode }
        phase := .idle
        bus := b } ∧
      readWindow m s.latch.base.toNat bout.length = some bout ∧
      ∀ a, (a < 0x20000 + 8 * s.latch.base.toNat ∨ 0x20000 + 8 * (s.latch.base.toNat + bout.length) ≤ a) →
        readByte m a = readByte s.mem a)) ∧
  (∀ (s : State) (rest : List Event), s.resetPhase = .out → (s.agenda = .clk :: rest ∨ (s.agenda = [] ∧ rest = [])) →
    (s.phase = .idle → ∃ b, b.ack = false ∧ step s = .next { s with agenda := rest, bus := b }) ∧
    (∀ bout left, s.phase = .running bout left → 1 < left →
      ∃ b, b.ack = false ∧ step s = .next { s with agenda := rest, phase := .running bout (left - 1), bus := b }))

/-- R193, R230 to R233, R180: from the CMD write of a CFFT whose checks pass, LATENCY + 1 steps later the unit is idle with
DONE = 1 and no error, the window holds the transform, and everything outside it and every operand register is as it was.
That time passes when no event is left is the model's own (log 8). -/
def Obligations.CfftFromWriteToDone : Prop :=
  ∀ (s : State) (l : Nibble) (bin : List CWord), s.resetPhase = .out → ready s l (2 ^ l.toNat) bin →
    s.agenda = [.bus { we := true, addr := 0x024#18, wdata := encode (.cfft l), wstrb := 0xF#4 }] →
    ∃ t, Sys2Proof.core.run (s.params.latency 4 l.toNat + 1) s = .next t ∧ t.phase = .idle ∧
      t.status = { busy := false, done := true, err := false, ovr := s.status.ovr, errcode := 0 } ∧
      readWindow t.mem s.base.toNat (2 ^ l.toNat) = some (combine s.params l.toNat (permute l.toNat bin)) ∧
      (∀ a, (a < 0x20000 + 8 * s.base.toNat ∨ 0x20000 + 8 * (s.base.toNat + 2 ^ l.toNat) ≤ a) →
        readByte t.mem a = readByte s.mem a) ∧
      t.ie = s.ie ∧ t.base = s.base ∧ t.len = s.len ∧ t.arg0 = s.arg0 ∧ t.arg1 = s.arg1 ∧ t.arg2 = s.arg2

/-! ### Checks, rejection, overrun -/

/-- R247: the checks of a CMD write in priority order; the first that fails gives the one code reported, and a command that
passes them all is not rejected. -/
def Obligations.ChecksInPriorityOrder : Prop :=
  (∀ (w : Word) (e : DecodeError) (s : State), decode w = .error e → s.status.busy = false →
    commandWrite w s = .next (rejectedState s 1)) ∧
  (∀ s : State, s.status.busy = false → validate .nop s = none ∧ ∃ t, exec .nop s = .next t ∧ t.status.err = false) ∧
  ∀ (s : State) (i : Instr), s.status.busy = false → i ≠ .nop →
    let sizeBad := i.sizeExp = 0 ∨ s.params.log2M < i.sizeExp
    let argBad := (∃ l st, i = .stage l st ∧ (st.toNat = 0 ∨ l.toNat < st.toNat)) ∨
      (∃ l, i = .bfly l ∧ (2 ^ l.toNat ≤ s.arg0.toNat ∨ 2 ^ l.toNat ≤ s.arg1.toNat ∨ s.arg0 = s.arg1 ∨
        2 ^ l.toNat / 2 ≤ s.arg2.toNat))
    let lenBad := s.len.toNat ≠ 2 ^ i.sizeExp
    let half := (∃ l, i = .rpost l) ∨ (∃ l, i = .rfft l)
    let rangeBad := (half → s.params.size < s.base.toNat + 2 ^ i.sizeExp / 2) ∧
      (¬ half → s.params.size < s.base.toNat + 2 ^ i.sizeExp)
    (sizeBad → exec i s = .next (rejectedState s 2)) ∧
    (¬ sizeBad → argBad → exec i s = .next (rejectedState s 3)) ∧
    (¬ sizeBad → ¬ argBad → lenBad → exec i s = .next (rejectedState s 4)) ∧
    (¬ sizeBad → ¬ argBad → ¬ lenBad → rangeBad → exec i s = .next (rejectedState s 5)) ∧
    (¬ sizeBad → ¬ argBad → ¬ lenBad → ¬ rangeBad →
      validate i s = none ∧
        ((∃ latch bout, exec i s = .next (acceptedState s latch bout)) ∨ exec i s = .fault .unwrittenWindow))

/-- R232, R248: a CMD write after which ERR is 1, the unit not being BUSY, has changed DONE, ERR and ERRCODE and nothing else;
the code is one of 1 to 5. -/
def Obligations.RejectionChangesStatusOnly : Prop :=
  ∀ (w : Word) (s t : State), s.status.busy = false → commandWrite w s = .next t → t.status.err = true →
    t = rejectedState s t.status.errcode ∧ 1 ≤ t.status.errcode.toNat ∧ t.status.errcode.toNat ≤ 5

/-- R234: a CMD write while BUSY, of any word, sets OVR and has no other effect; in particular the word is not queued. -/
def Obligations.CommandWhileBusyIsDropped : Prop :=
  ∀ (w : Word) (s : State), s.status.busy = true →
    commandWrite w s = .next (overrunState s) ∧ ∀ i, exec i s = .next (overrunState s)

/-- R231, R232, R234: the frame of every command's CMD write: no sample RAM byte and no register apart from LATCH and STATUS
changes, OVR only while BUSY, LATCH only by acceptance. -/
def Obligations.CommandWriteFrame : Prop :=
  ∀ (i : Instr) (s t : State), exec i s = .next t →
    (∀ a, readByte t.mem a = readByte s.mem a) ∧ t.params = s.params ∧ t.resetPhase = s.resetPhase ∧ t.ie = s.ie ∧
    t.base = s.base ∧ t.len = s.len ∧ t.arg0 = s.arg0 ∧ t.arg1 = s.arg1 ∧ t.arg2 = s.arg2 ∧ t.bus = s.bus ∧
    t.agenda = s.agenda ∧ (s.status.busy = false → t.status.ovr = s.status.ovr) ∧
    (t.status.busy = false ∨ s.status.busy = true → t.latch = s.latch ∧ t.phase = s.phase)

/-- R282: a command stops the model exactly when it is not dropped, passes its checks, and its window holds an unwritten word. -/
def Obligations.CommandFaultsOnUnwrittenWindow : Prop :=
  ∀ (i : Instr) (s : State) (r : Fault), exec i s = .fault r ↔
    (r = .unwrittenWindow ∧ s.status.busy = false ∧ validate i s = none ∧
      ∃ j < windowWords i, readSample s.mem (s.base.toNat + j) = none)

/-- R50, R91, R293: while a command runs, no bus transaction of the host changes its image, LATCH or any sample RAM byte. -/
def Obligations.RunningCommandIsUndisturbed : Prop :=
  ∀ (s t : State) (r : BusReq) (bout : List CWord) (left : Nat), Inv s → s.phase = .running bout left →
    busAccess r s = .next t →
    t.phase = s.phase ∧ t.latch = s.latch ∧ (∀ a, readByte t.mem a = readByte s.mem a) ∧ t.status.busy = true

/-! ### Registers and flags -/

/-- R36 to R46: what a read of each register offset returns, with no bus error and no effect. -/
def Obligations.RegisterReadValues : Prop :=
  ∀ s : State,
    let reads := fun (a : Nat) (v : Word) =>
      busAccess { we := false, addr := BitVec.ofNat 18 a, wdata := 0, wstrb := 0 } s =
        .next { s with bus := { ack := true, err := false, rdata := some v } }
    reads 0x000 0x46465401 ∧ reads 0x004 (BitVec.ofNat 32 s.params.log2M) ∧
    reads 0x008 (if s.ie then 1 else 0) ∧ reads 0x00C (statusWord s.status) ∧
    reads 0x010 (BitVec.ofNat 32 s.base.toNat) ∧ reads 0x014 (BitVec.ofNat 32 s.len.toNat) ∧
    reads 0x018 (BitVec.ofNat 32 s.arg0.toNat) ∧ reads 0x01C (BitVec.ofNat 32 s.arg1.toNat) ∧
    reads 0x020 (BitVec.ofNat 32 s.arg2.toNat) ∧ reads 0x024 0 ∧
    ∀ n, 0x028 ≤ n → n < 0x100 → n % 4 = 0 → reads n 0

/-- R36, R39, R42 to R44, R46: a write stores exactly the implemented bits of the register it names, at once and whether or not
the unit is BUSY; a write to ID, CONFIG or a reserved offset changes nothing.
That a write returns no value is the model's own (log 6). -/
def Obligations.RegisterWriteEffects : Prop :=
  ∀ (s : State) (v : Word),
    let after := fun (a : Nat) (t : State) =>
      busAccess { we := true, addr := BitVec.ofNat 18 a, wdata := v, wstrb := 0xF#4 } s =
        .next { t with bus := { ack := true, err := false, rdata := none } }
    after 0x000 s ∧ after 0x004 s ∧ after 0x008 { s with ie := v.getLsbD 0 } ∧
    after 0x010 { s with base := v.extractLsb' 0 16 } ∧ after 0x014 { s with len := v.extractLsb' 0 16 } ∧
    after 0x018 { s with arg0 := v.extractLsb' 0 16 } ∧ after 0x01C { s with arg1 := v.extractLsb' 0 16 } ∧
    after 0x020 { s with arg2 := v.extractLsb' 0 16 } ∧
    ∀ n, 0x028 ≤ n → n < 0x100 → n % 4 = 0 → after n s

/-- R41, R251: a host write to STATUS clears exactly the bits written 1, ERRCODE with ERR, and changes nothing else.
That a write returns no value is the model's own (log 6). -/
def Obligations.StatusWriteOneClears : Prop :=
  ∀ (s : State) (v : Word), ∃ t,
    busAccess { we := true, addr := 0x00C#18, wdata := v, wstrb := 0xF#4 } s = .next t ∧
    t = { s with status := t.status, bus := { ack := true, err := false, rdata := none } } ∧
    t.status.busy = s.status.busy ∧
    (v.getLsbD 1 = true → t.status.done = false) ∧ (v.getLsbD 1 = false → t.status.done = s.status.done) ∧
    (v.getLsbD 2 = true → t.status.err = false ∧ t.status.errcode = 0) ∧
    (v.getLsbD 2 = false → t.status.err = s.status.err ∧ t.status.errcode = s.status.errcode) ∧
    (v.getLsbD 3 = true → t.status.ovr = false) ∧ (v.getLsbD 3 = false → t.status.ovr = s.status.ovr)

/-- R40: the field layout of STATUS, bit by bit. -/
def Obligations.StatusFieldLayout : Prop :=
  ∀ (t : Status) (i : Nat), (statusWord t).getLsbD i =
    if i = 0 then t.busy else if i = 1 then t.done else if i = 2 then t.err else if i = 3 then t.ovr
    else if 8 ≤ i ∧ i ≤ 11 then t.errcode.getLsbD (i - 8) else false

/-- R250: irq = IE AND DONE; it is up after every completion and every rejection while IE = 1, and down after a write of 1 to
STATUS.DONE or of 0 to CTRL.IE. -/
def Obligations.InterruptLevel : Prop :=
  (∀ s : State, irq s = (s.ie && s.status.done)) ∧
  (∀ (s : State) (bout : List CWord) (left : Nat), s.phase = .running bout left → irq (complete s) = s.ie) ∧
  (∀ (w : Word) (s t : State), s.status.busy = false → commandWrite w s = .next t → t.status.err = true → irq t = s.ie) ∧
  (∀ (s t : State) (v : Word), busAccess { we := true, addr := 0x00C#18, wdata := v, wstrb := 0xF#4 } s = .next t →
    v.getLsbD 1 = true → irq t = false) ∧
  (∀ (s t : State) (v : Word), busAccess { we := true, addr := 0x008#18, wdata := v, wstrb := 0xF#4 } s = .next t →
    v.getLsbD 0 = false → irq t = false)

/-! ### The bus -/

/-- R72: the address map of the 18-bit offset space, for every LOG2_M. -/
def Obligations.AddressMapRegions : Prop :=
  ∀ (p : Params) (a : Nat), a < 2 ^ 18 →
    (a ≤ 0x000FF → regionOf p a = .reg (regAt (a / 4))) ∧
    (0x00100 ≤ a → a ≤ 0x0FFFF → regionOf p a = .unmapped) ∧
    (0x10000 ≤ a → a ≤ 0x10000 + 4 * p.size - 1 → ∃ j im, regionOf p a = .rom j im ∧ j < p.size / 2) ∧
    (0x10000 + 4 * p.size ≤ a → a ≤ 0x1FFFF → regionOf p a = .unmapped) ∧
    (0x20000 ≤ a → a ≤ 0x20000 + 8 * p.size - 1 → regionOf p a = .ram a) ∧
    (0x20000 + 8 * p.size ≤ a → a ≤ 0x3FFFF → regionOf p a = .unmapped)

/-- R76, R78, R81, R254: an access to an unmapped offset, a misaligned access, a write with a partial strobe and a write to the
ROM complete with bus_err = 1 and have no effect; an unmapped access and a misaligned read return 0.
That an unmapped offset is looked at before alignment and strobes, and that such an access to the sample RAM while BUSY is a bus
error and not the hazard of R290, are the model's own inference (log 10). -/
def Obligations.BusErrorsHaveNoEffect : Prop :=
  ∀ (r : BusReq) (s : State),
    (regionOf s.params r.addr.toNat = .unmapped ∨ r.addr.toNat % 4 ≠ 0 ∨ (r.we = true ∧ r.wstrb ≠ 0xF#4) ∨
      (r.we = true ∧ ∃ j im, regionOf s.params r.addr.toNat = .rom j im)) →
    ∃ d, busAccess r s = .next { s with bus := { ack := true, err := true, rdata := d } } ∧
      (regionOf s.params r.addr.toNat = .unmapped ∨ (r.we = false ∧ r.addr.toNat % 4 ≠ 0) → d = some 0)

/-- R79: a read changes nothing but the bus outputs. -/
def Obligations.ReadsHaveNoSideEffect : Prop :=
  ∀ (r : BusReq) (s t : State), r.we = false → busAccess r s = .next t → t = { s with bus := t.bus }

/-- R78: a read of a half of a ROM entry returns it at any time, also while BUSY; a write completes with bus_err = 1 and changes
nothing. -/
def Obligations.RomHostView : Prop :=
  ∀ (s : State) (j : Nat), j < s.params.size / 2 →
    (∀ v, ∃ d e, busAccess (memWrite (BitVec.ofNat 18 (0x10000 + 8 * j)) v) s =
        .next { s with bus := { ack := true, err := true, rdata := d } } ∧
      busAccess (memWrite (BitVec.ofNat 18 (0x10000 + 8 * j + 4)) v) s =
        .next { s with bus := { ack := true, err := true, rdata := e } }) ∧
    busAccess (memRead (BitVec.ofNat 18 (0x10000 + 8 * j))) s =
      .next { s with bus := { ack := true, err := false, rdata := some (romEntry s.params j).re } } ∧
    busAccess (memRead (BitVec.ofNat 18 (0x10000 + 8 * j + 4))) s =
      .next { s with bus := { ack := true, err := false, rdata := some (romEntry s.params j).im } }

/-- R73, R79, R84: a word stored at an aligned sample RAM offset while the unit is not BUSY is read back there, and every other
byte of the sample RAM and every register is as it was.
That a write returns no value is the model's own (log 6). -/
def Obligations.SampleStoreThenLoad : Prop :=
  ∀ (s : State) (a : Nat) (v : Word), s.status.busy = false → 0x20000 ≤ a → a < 0x20000 + 8 * s.params.size → a % 4 = 0 →
    ∃ t, busAccess (memWrite (BitVec.ofNat 18 a) v) s = .next t ∧
      busAccess (memRead (BitVec.ofNat 18 a)) t = .next { t with bus := { ack := true, err := false, rdata := some v } } ∧
      (∀ x, (x < a ∨ a + 4 ≤ x) → readByte t.mem x = readByte s.mem x) ∧
      t = { s with mem := t.mem, bus := { ack := true, err := false, rdata := none } }

/-- R290: a legal host access to the sample RAM faults as a hazard exactly while the unit is BUSY; no other transaction does.
That a misaligned or partial-strobe access to the sample RAM while BUSY is no hazard is the model's own inference (log 10). -/
def Obligations.SampleAccessWhileBusyIsHazard : Prop :=
  ∀ (r : BusReq) (s : State), busAccess r s = .fault .hazardSramBusy ↔
    (s.status.busy = true ∧ accessLegal r = true ∧ ∃ a, regionOf s.params r.addr.toNat = .ram a)

/-- R282: a legal read of a sample RAM half while the unit is not BUSY faults if one of its bytes is unwritten, and else returns
the half. -/
def Obligations.UnwrittenHalfReadFaults : Prop :=
  ∀ (r : BusReq) (s : State) (a : Nat), r.we = false → s.status.busy = false → accessLegal r = true →
    regionOf s.params r.addr.toNat = .ram a →
    (∀ b < 4, ∀ x, readByte s.mem (a + b) = none → busAccess r s ≠ .next x) ∧
    (readHalf s.mem a = none → busAccess r s = .fault .unwrittenSample) ∧
    (∀ v, readHalf s.mem a = some v → busAccess r s = .next { s with bus := { ack := true, err := false, rdata := some v } })

/-- R77: byte offset 4·w + b holds bits 8·b+7 to 8·b of the word at offset 4·w, in the view of a byte-addressed host at system
address UNIT_BASE + offset. -/
def Obligations.ByteViewIsLittleEndian : Prop :=
  ∀ (s : State) (a : Nat) (v : Word), a < 2 ^ 18 → a % 4 = 0 → peek s a = some v →
    ∀ b < 4, systemByte s (s.params.unitBase + a + b) = some (v.extractLsb' (8 * b) 8)

/-- R75: real sample 2i of a buffer at word `base` is S[base + i].re and real sample 2i + 1 is S[base + i].im. -/
def Obligations.RealViewOverlaysComplexWords : Prop :=
  ∀ (m : Memory) (base i : Nat) (c : CWord), readSample m (base + i) = some c ↔
    (readHalf m (0x20000 + 8 * base + 4 * (2 * i)) = some c.re ∧
      readHalf m (0x20000 + 8 * base + 4 * (2 * i + 1)) = some c.im)

/-! ### Arithmetic -/

/-- R152, R153: the sum and the difference of finite values are rounded once; an exact zero is +0 unless both addends are −0. -/
def Obligations.SumsAreRoundedOnce : Prop :=
  ∀ a b : Word, finite32 a = true → finite32 b = true →
    ((value32 a + value32 b ≠ 0 → RoundsTo ((value32 a : ℝ) + (value32 b : ℝ)) (add32 a b)) ∧
     (value32 a + value32 b = 0 →
       add32 a b = if a = 0x80000000#32 ∧ b = 0x80000000#32 then 0x80000000#32 else 0x00000000#32)) ∧
    ((value32 a - value32 b ≠ 0 → RoundsTo ((value32 a : ℝ) - (value32 b : ℝ)) (sub32 a b)) ∧
     (value32 a - value32 b = 0 →
       sub32 a b = if a = 0x80000000#32 ∧ b = 0x00000000#32 then 0x80000000#32 else 0x00000000#32))

/-- R152, R153: the product of finite values is rounded once; its sign is the exclusive-or of the signs, also for a zero. -/
def Obligations.ProductsAreRoundedOnce : Prop :=
  ∀ a b : Word, finite32 a = true → finite32 b = true →
    (value32 a * value32 b ≠ 0 → RoundsTo ((value32 a : ℝ) * (value32 b : ℝ)) (mul32 a b)) ∧
    (value32 a * value32 b = 0 → mul32 a b = if signBit a = signBit b then 0x00000000#32 else 0x80000000#32) ∧
    signBit (mul32 a b) = (signBit a != signBit b)

/-- R153, R154: which operations give NaN, that the result is then 0x7FC00000, and what an infinite operand gives otherwise. -/
def Obligations.SpecialOperands : Prop :=
  ∀ a b : Word,
    (isNaN (add32 a b) = true ↔ isNaN a = true ∨ isNaN b = true ∨ (isInf a = true ∧ isInf b = true ∧ signBit a ≠ signBit b)) ∧
    (isNaN (sub32 a b) = true ↔ isNaN a = true ∨ isNaN b = true ∨ (isInf a = true ∧ isInf b = true ∧ signBit a = signBit b)) ∧
    (isNaN (mul32 a b) = true ↔ isNaN a = true ∨ isNaN b = true ∨ (isInf a = true ∧ magnitude b = 0) ∨
      (magnitude a = 0 ∧ isInf b = true)) ∧
    (isNaN (add32 a b) = true → add32 a b = 0x7FC00000#32) ∧
    (isNaN (sub32 a b) = true → sub32 a b = 0x7FC00000#32) ∧
    (isNaN (mul32 a b) = true → mul32 a b = 0x7FC00000#32) ∧
    (isNaN (add32 a b) = false → isInf a = true → add32 a b = a) ∧
    (isNaN (add32 a b) = false → isInf b = true → add32 a b = b) ∧
    (isNaN (sub32 a b) = false → isInf a = true → sub32 a b = a) ∧
    (isNaN (sub32 a b) = false → isInf b = true → sub32 a b = neg32 b) ∧
    (isNaN (mul32 a b) = false → isInf a = true ∨ isInf b = true →
      mul32 a b = if signBit a = signBit b then 0x7F800000#32 else 0xFF800000#32)

/-- R155: neg32 flips the sign bit and keeps every other bit, of a NaN too; half32 rounds half of a finite value, keeps the
infinities, and makes every NaN canonical. -/
def Obligations.NegateAndHalve : Prop :=
  ∀ a : Word,
    (∀ i, (neg32 a).getLsbD i = if i = 31 then !a.getLsbD 31 else a.getLsbD i) ∧
    (finite32 a = true → value32 a ≠ 0 → RoundsTo ((value32 a : ℝ) / 2) (half32 a)) ∧
    (finite32 a = true → value32 a = 0 → half32 a = a) ∧
    (isInf a = true → half32 a = a) ∧ (isNaN a = true → half32 a = 0x7FC00000#32)

/-- R161: with twiddle index 0 the butterfly is exactly the rounded sums and differences, whatever the twiddle. -/
def Obligations.ButterflyIndexZero : Prop :=
  ∀ f s t : CWord, butterfly f s t 0 =
    ({ re := add32 f.re s.re, im := add32 f.im s.im }, { re := sub32 f.re s.re, im := sub32 f.im s.im })

/-! ### Tables -/

/-- R131: every ROM entry is the exact cosine and negated sine rounded once, an exact zero being +0, for every LOG2_M. -/
def Obligations.RomIsCorrectlyRounded : Prop :=
  ∀ (p : Params) (j : Nat), j < p.size / 2 →
    (Real.cos (2 * Real.pi * j / p.size) ≠ 0 → RoundsTo (Real.cos (2 * Real.pi * j / p.size)) (romEntry p j).re) ∧
    (Real.cos (2 * Real.pi * j / p.size) = 0 → (romEntry p j).re = 0x00000000#32) ∧
    (Real.sin (2 * Real.pi * j / p.size) ≠ 0 → RoundsTo (-Real.sin (2 * Real.pi * j / p.size)) (romEntry p j).im) ∧
    (Real.sin (2 * Real.pi * j / p.size) = 0 → (romEntry p j).im = 0x00000000#32)

/-- R132: the exact entries at multiples of M/16, in every unit that has them. -/
def Obligations.RomExactEntries : Prop :=
  ∀ p : Params,
    romEntry p 0 = { re := 0x3F800000, im := 0x00000000 } ∧
    (4 ≤ p.size → romEntry p (p.size / 4) = { re := 0x00000000, im := 0xBF800000 }) ∧
    (8 ≤ p.size → romEntry p (p.size / 8) = { re := 0x3F3504F3, im := 0xBF3504F3 } ∧
      romEntry p (3 * p.size / 8) = { re := 0xBF3504F3, im := 0xBF3504F3 }) ∧
    (16 ≤ p.size → romEntry p (p.size / 16) = { re := 0x3F6C835E, im := 0xBEC3EF15 } ∧
      romEntry p (3 * p.size / 16) = { re := 0x3EC3EF15, im := 0xBF6C835E } ∧
      romEntry p (5 * p.size / 16) = { re := 0xBEC3EF15, im := 0xBF6C835E } ∧
      romEntry p (7 * p.size / 16) = { re := 0xBF6C835E, im := 0xBEC3EF15 })

/-- R133: TW(n, k) is the value that a separate table of a unit with M = n would hold. -/
def Obligations.TwiddlesShareOneRom : Prop :=
  ∀ (p q : Params) (k : Nat), q.log2M ≤ p.log2M → k < q.size / 2 → twiddle p q.log2M k = romEntry q k

/-- R134: the quadrant symmetries of the ROM, as values. -/
def Obligations.RomQuadrantSymmetry : Prop :=
  ∀ (p : Params) (j : Nat),
    (0 < j → j < p.size / 2 → value32 (romEntry p (p.size / 2 - j)).re = -value32 (romEntry p j).re ∧
      (romEntry p (p.size / 2 - j)).im = (romEntry p j).im) ∧
    (4 ≤ p.size → j ≤ p.size / 4 → value32 (romEntry p j).re = -value32 (romEntry p (p.size / 4 - j)).im)

/-- R137: rev(L, i) is the sum of the bits of i at their mirrored places. -/
def Obligations.RevMirrorsBits : Prop :=
  ∀ l i : Nat, rev l i = ∑ b ∈ Finset.range l, (i.testBit b).toNat * 2 ^ (l - 1 - b)

/-- R138: rev(L, ·) is an involution of [0, 2^L). -/
def Obligations.RevIsInvolution : Prop :=
  ∀ l i : Nat, i < 2 ^ l → rev l i < 2 ^ l ∧ rev l (rev l i) = i

/-! ### Reset and whole-machine rules -/

/-- R52: the reset values of the registers, the phase, the sample RAM and irq, for every LOG2_M. -/
def Obligations.ResetValues : Prop :=
  ∀ p : Params,
    let s := State.resetOf p
    readReg s .id = 0x46465401#32 ∧ readReg s .config = BitVec.ofNat 32 p.log2M ∧ readReg s .ctrl = 0 ∧
    readReg s .status = 0 ∧ readReg s .base = 0 ∧ readReg s .len = 0 ∧ readReg s .arg0 = 0 ∧ readReg s .arg1 = 0 ∧
    readReg s .arg2 = 0 ∧ readReg s .cmd = 0 ∧ s.phase = .idle ∧ (∀ a, readByte s.mem a = none) ∧ irq s = false

/-- R280, R281: rst_n going low puts the unit in its reset state and abandons a running command, whatever it was doing; while
rst_n is low, clock edges change nothing; rst_n going high changes no register; the first rising clock edge with rst_n = 1 takes the
unit out of reset with that state, and until then a transaction is not acknowledged and changes nothing. Until then every register
reads its reset value, the sequencer is IDLE, the sample RAM is unwritten and irq is 0.
That rst_n acts at once when it goes low, and that a transaction between its rise and that clock edge is not acknowledged, are the
model's own inference (log 13); that such a transaction is consumed without reply (log 7), that a clock edge passes when no event
is left (log 8), the zero LATCH (log 2) and the level of bus_err (log 14) are its own choices. -/
def Obligations.ResetPinBehaviour : Prop :=
  (∀ (s : State) (rest : List Event), s.agenda = .rst false :: rest →
    step s = .next { State.resetOf s.params with resetPhase := .held, agenda := rest }) ∧
  (∀ (s : State) (r : BusReq) (rest : List Event), s.resetPhase ≠ .out → s.agenda = .bus r :: rest →
    ∃ b, b.ack = false ∧ step s = .next { s with agenda := rest, bus := b }) ∧
  (∀ (s : State) (rest : List Event), s.resetPhase = .held → (s.agenda = .clk :: rest ∨ (s.agenda = [] ∧ rest = [])) →
    ∃ b, b.ack = false ∧ step s = .next { s with agenda := rest, bus := b }) ∧
  (∀ (s : State) (rest : List Event), Inv s → s.resetPhase = .held → s.agenda = .rst true :: rest →
    step s = .next { State.resetOf s.params with resetPhase := .ending, agenda := rest }) ∧
  (∀ (s : State) (rest : List Event), Inv s → s.resetPhase = .ending →
    (s.agenda = .clk :: rest ∨ (s.agenda = [] ∧ rest = [])) →
    step s = .next { State.resetOf s.params with agenda := rest }) ∧
  (∀ s : State, Inv s → s.resetPhase ≠ .out →
    (∀ r, readReg s r = readReg (State.resetOf s.params) r) ∧ s.phase = .idle ∧ (∀ a, readByte s.mem a = none) ∧ irq s = false)

/-- The invariant of the unit holds right after reset, for every build.
The zero LATCH that it holds in reset is the model's own (log 2). -/
def Obligations.InvariantHoldsAtReset : Prop := Inv State.reset ∧ ∀ p : Params, Inv (State.resetOf p)

/-- Every step keeps the invariant: canonical memory inside the sample RAM in whole halves, ERR = 1 exactly when ERRCODE ≠ 0,
no code above 5, BUSY excludes DONE and ERR, RUNNING exactly when BUSY, a running command's window fits, and every register at
its reset value until the unit has left reset (R41, R51, R241, R280).
The zero LATCH that it holds in reset is the model's own (log 2). -/
def Obligations.EveryStepKeepsTheInvariant : Prop :=
  ∀ s t : State, Inv s → step s = .next t → Inv t

/-- R31: no step changes LOG2_M, UNIT_BASE or LATENCY. -/
def Obligations.ParametersNeverChange : Prop :=
  ∀ s t : State, step s = .next t → t.params = s.params

/-- R52, R50: LATCH is never read while IDLE: from idle states that differ in LATCH only, a step stops alike, or gives states
that differ in LATCH at most, and not at all once a command runs. -/
def Obligations.LatchUnreadWhileIdle : Prop :=
  ∀ (s : State) (x : Latch), s.phase = .idle →
    (∀ r, step s = .fault r → step { s with latch := x } = .fault r) ∧
    (∀ t, step s = .next t → ∃ t', step { s with latch := x } = .next t' ∧ { t' with latch := t.latch } = t ∧
      (t.phase ≠ .idle → t' = t))

/-- R79, R91, R281: a step changes a byte of the sample RAM only by a host write to the half that holds it while not BUSY, by a
completion whose window holds it, or by reset. -/
def Obligations.SampleRamChangesOnlyByWriteCompletionOrReset : Prop :=
  ∀ (s t : State) (a : Nat), step s = .next t → readByte t.mem a ≠ readByte s.mem a →
    (∃ r rest, s.agenda = .bus r :: rest ∧ s.resetPhase = .out ∧ r.we = true ∧ accessLegal r = true ∧ s.status.busy = false ∧
      r.addr.toNat ≤ a ∧ a < r.addr.toNat + 4) ∨
    (∃ bout left, s.phase = .running bout left ∧ left ≤ 1 ∧ t.phase = .idle ∧
      0x20000 + 8 * s.latch.base.toNat ≤ a ∧ a < 0x20000 + 8 * (s.latch.base.toNat + bout.length)) ∨
    (∃ rest, s.agenda = .rst false :: rest ∧ readByte t.mem a = none)
end

