-- ==== Sys2Proof/Laws/Encoding.lean ====
section
/-! SUPPORT. The fields of a command word (30_encoding.md R100, R101) and what LATCH captures of them. -/

namespace Sys2Proof

/-- Each bit of a command word: OP in bits 3:0, L in 7:4, S in 11:8, zero above (R100). -/
theorem getLsbD_commandWord (op l st : Nibble) (i : Nat) : (commandWord op l st).getLsbD i =
    if i < 4 then op.getLsbD i else if i < 8 then l.getLsbD (i - 4) else if i < 12 then st.getLsbD (i - 8) else false := by
  have h : (commandWord op l st).getLsbD i =
      BitVec.getLsbD (w := 20 + 4 + 4 + 4) ((0#20) ++ st ++ l ++ op) i := rfl
  rw [h, BitVec.getLsbD_append, BitVec.getLsbD_append, BitVec.getLsbD_append]
  by_cases h4 : i < 4
  · simp [h4]
  · by_cases h8 : i < 8
    · simp [h4, h8, show i - 4 < 4 by omega]
    · by_cases h12 : i < 12
      · simp [h4, h8, h12, show ¬ i - 4 < 4 by omega, show i - 8 < 4 by omega, show i - 4 - 4 = i - 8 by omega]
      · simp [h4, h8, h12, show ¬ i - 4 < 4 by omega, show ¬ i - 4 - 4 < 4 by omega]

@[simp] theorem opField_commandWord (op l st : Nibble) : opField (commandWord op l st) = op := by
  refine BitVec.eq_of_getLsbD_eq fun i hi => ?_
  simp [opField, getLsbD_commandWord, hi]

@[simp] theorem sizeField_commandWord (op l st : Nibble) : sizeField (commandWord op l st) = l := by
  refine BitVec.eq_of_getLsbD_eq fun i hi => ?_
  simp [sizeField, getLsbD_commandWord, hi, show 4 + i < 8 by omega]

@[simp] theorem stageField_commandWord (op l st : Nibble) : stageField (commandWord op l st) = st := by
  refine BitVec.eq_of_getLsbD_eq fun i hi => ?_
  simp [stageField, getLsbD_commandWord, hi, show 8 + i < 12 by omega, show ¬ 8 + i < 4 by omega]

@[simp] theorem reservedField_commandWord (op l st : Nibble) : reservedField (commandWord op l st) = 0 := by
  refine BitVec.eq_of_getLsbD_eq fun i hi => ?_
  simp [reservedField, getLsbD_commandWord, show ¬ 12 + i < 8 by omega, show ¬ 12 + i < 4 by omega]

/-- A word is its four fields put together. -/
theorem commandWord_fields (w : Word) (h : reservedField w = 0) :
    commandWord (opField w) (sizeField w) (stageField w) = w := by
  refine BitVec.eq_of_getLsbD_eq fun i hi => ?_
  rw [getLsbD_commandWord]
  by_cases h4 : i < 4
  · simp [opField, h4]
  · by_cases h8 : i < 8
    · simp [sizeField, h4, h8, show i - 4 < 4 by omega, show 4 + (i - 4) = i by omega]
    · by_cases h12 : i < 12
      · simp [stageField, h4, h8, h12, show i - 8 < 4 by omega, show 8 + (i - 8) = i by omega]
      · have hr : (reservedField w).getLsbD (i - 12) = false := by rw [h]; simp
        simp only [reservedField, BitVec.getLsbD_extractLsb'] at hr
        rw [show 12 + (i - 12) = i by omega] at hr
        simp only [show i - 12 < 20 by omega, decide_true, Bool.true_and] at hr
        simp [h4, h8, h12, hr]

/-- The three fields of each command's word. -/
theorem fields_encode (i : Instr) : ∃ op l st, encode i = commandWord op l st := by
  cases i <;> exact ⟨_, _, _, rfl⟩

theorem sizeField_encode_toNat (i : Instr) : (sizeField (encode i)).toNat = i.sizeExp := by
  cases i <;> simp [encode, Instr.sizeExp]

end Sys2Proof

namespace Sys2Proof.Machine

open Sys2Proof

@[simp] theorem captureLatch_base (i : Instr) (s : State) : (captureLatch i s).base = s.base := rfl
@[simp] theorem captureLatch_len (i : Instr) (s : State) : (captureLatch i s).len = s.len := rfl
@[simp] theorem captureLatch_p (i : Instr) (s : State) : (captureLatch i s).p = s.arg0 := rfl
@[simp] theorem captureLatch_q (i : Instr) (s : State) : (captureLatch i s).q = s.arg1 := rfl
@[simp] theorem captureLatch_k (i : Instr) (s : State) : (captureLatch i s).k = s.arg2 := rfl

/-- LATCH.L is the command's size exponent. -/
theorem captureLatch_l_toNat (i : Instr) (s : State) : (captureLatch i s).l.toNat = i.sizeExp :=
  sizeField_encode_toNat i

/-- LATCH holds the command it was captured from. -/
theorem commandWord_captureLatch (i : Instr) (s : State) :
    commandWord (captureLatch i s).op (captureLatch i s).l (captureLatch i s).st = encode i := by
  obtain ⟨op, l, st, h⟩ := fields_encode i
  simp [captureLatch, h]

@[simp] theorem captureLatch_nop (s : State) : captureLatch .nop s =
    { op := 0, l := 0, st := 0, base := s.base, len := s.len, p := s.arg0, q := s.arg1, k := s.arg2 } := by
  simp [captureLatch, encode]

@[simp] theorem captureLatch_bitrev (l : Nibble) (s : State) : captureLatch (.bitrev l) s =
    { op := 1, l := l, st := 0, base := s.base, len := s.len, p := s.arg0, q := s.arg1, k := s.arg2 } := by
  simp [captureLatch, encode]

@[simp] theorem captureLatch_stage (l st : Nibble) (s : State) : captureLatch (.stage l st) s =
    { op := 2, l := l, st := st, base := s.base, len := s.len, p := s.arg0, q := s.arg1, k := s.arg2 } := by
  simp [captureLatch, encode]

@[simp] theorem captureLatch_bfly (l : Nibble) (s : State) : captureLatch (.bfly l) s =
    { op := 3, l := l, st := 0, base := s.base, len := s.len, p := s.arg0, q := s.arg1, k := s.arg2 } := by
  simp [captureLatch, encode]

@[simp] theorem captureLatch_cfft (l : Nibble) (s : State) : captureLatch (.cfft l) s =
    { op := 4, l := l, st := 0, base := s.base, len := s.len, p := s.arg0, q := s.arg1, k := s.arg2 } := by
  simp [captureLatch, encode]

@[simp] theorem captureLatch_rpost (l : Nibble) (s : State) : captureLatch (.rpost l) s =
    { op := 5, l := l, st := 0, base := s.base, len := s.len, p := s.arg0, q := s.arg1, k := s.arg2 } := by
  simp [captureLatch, encode]

@[simp] theorem captureLatch_rfft (l : Nibble) (s : State) : captureLatch (.rfft l) s =
    { op := 6, l := l, st := 0, base := s.base, len := s.len, p := s.arg0, q := s.arg1, k := s.arg2 } := by
  simp [captureLatch, encode]

end Sys2Proof.Machine
end

