-- ==== Sys2Proof/Laws/Memory.lean ====
section
/-! SUPPORT. The laws of the sample RAM: read after write, what a write leaves alone, the canonical form, and the byte order
(20_memory.md R73 to R77). -/

namespace Sys2Proof.Machine

open Sys2Proof

/-! ### One byte -/

@[simp] theorem readByte_nil (a : Nat) : readByte [] a = none := rfl

theorem readByte_cons (c : Host.Cell) (m : Memory) (a : Nat) :
    readByte (c :: m) a = if a = c.1 then some c.2 else readByte m a := by
  rcases c with ⟨x, b⟩
  by_cases h : a = x
  · subst h; simp [readByte, List.lookup]
  · have : (a == x) = false := by simpa using h
    simp [readByte, List.lookup, this, h]

theorem readByte_append (m n : Memory) (a : Nat) :
    readByte (m ++ n) a = (readByte m a).or (readByte n a) := by
  induction m with
  | nil => simp
  | cons c m ih =>
    rw [List.cons_append, readByte_cons, readByte_cons]
    split <;> simp [ih]

theorem readByte_filter (m : Memory) (p : Nat → Bool) (a : Nat) :
    readByte (m.filter fun c => p c.1) a = if p a then readByte m a else none := by
  induction m with
  | nil => simp
  | cons c m ih =>
    rw [readByte_cons, List.filter_cons]
    by_cases hc : p c.1 = true
    · rw [if_pos hc, readByte_cons, ih]
      by_cases h : a = c.1
      · subst h; simp [hc]
      · simp [h]
    · rw [if_neg hc, ih]
      by_cases h : a = c.1
      · subst h; simp [hc]
      · simp [h]

theorem readByte_cellsFrom (bs : List Byte) (a x : Nat) :
    readByte (cellsFrom a bs) x = if a ≤ x then bs[x - a]? else none := by
  induction bs generalizing a with
  | nil => simp [cellsFrom]
  | cons b bs ih =>
    rw [cellsFrom, readByte_cons, ih]
    by_cases h : x = a
    · subst h; simp
    · by_cases h' : a + 1 ≤ x
      · have : x - a = (x - (a + 1)) + 1 := by omega
        rw [if_neg h, if_pos h', if_pos (by omega), this]; simp
      · rw [if_neg h, if_neg h', if_neg (by omega)]

/-- Read after write, for every byte: inside the stored range the stored byte, elsewhere the byte as before. -/
theorem readByte_writeBytes (m : Memory) (a : Nat) (bs : List Byte) (x : Nat) :
    readByte (writeBytes m a bs) x = if a ≤ x ∧ x < a + bs.length then bs[x - a]? else readByte m x := by
  rw [writeBytes, readByte_append, readByte_append,
    readByte_filter m (fun n => decide (n < a)), readByte_filter m (fun n => decide (a + bs.length ≤ n)),
    readByte_cellsFrom]
  by_cases h1 : x < a
  · simp [h1, show ¬ a ≤ x by omega, show ¬ a + bs.length ≤ x by omega]
  · by_cases h2 : a + bs.length ≤ x
    · have : bs[x - a]? = none := by rw [List.getElem?_eq_none_iff]; omega
      simp [h1, h2, show a ≤ x by omega, this, show ¬ x < a + bs.length by omega]
    · simp [h1, h2, show a ≤ x by omega, show x < a + bs.length by omega]

theorem readByte_writeBytes_outside (m : Memory) (a : Nat) (bs : List Byte) (x : Nat)
    (h : x < a ∨ a + bs.length ≤ x) : readByte (writeBytes m a bs) x = readByte m x := by
  rw [readByte_writeBytes, if_neg (by omega)]

theorem readByte_eq_some_mem {m : Memory} {a : Nat} {b : Byte} (h : readByte m a = some b) : (a, b) ∈ m := by
  induction m with
  | nil => simp at h
  | cons c m ih =>
    rw [readByte_cons] at h
    split at h
    · rename_i hc; cases h; subst hc; simp
    · exact List.mem_cons_of_mem _ (ih h)

theorem readByte_isSome_of_mem {m : Memory} {c : Host.Cell} (h : c ∈ m) : (readByte m c.1).isSome = true := by
  induction m with
  | nil => simp at h
  | cons d m ih =>
    rw [readByte_cons]
    split
    · simp
    · rename_i hne
      rcases List.mem_cons.1 h with rfl | h
      · exact absurd rfl hne
      · exact ih h

theorem readByte_of_mem_wf {m : Memory} (hm : Memory.wf m) {c : Host.Cell} (h : c ∈ m) :
    readByte m c.1 = some c.2 := by
  induction m with
  | nil => simp at h
  | cons d m ih =>
    rw [readByte_cons]
    have hp := List.pairwise_cons.1 hm
    rcases List.mem_cons.1 h with rfl | h
    · simp
    · have := hp.1 c h
      rw [if_neg (by omega), ih hp.2 h]

/-! ### The canonical form -/

theorem mem_cellsFrom {a : Nat} {bs : List Byte} {c : Host.Cell} (h : c ∈ cellsFrom a bs) :
    a ≤ c.1 ∧ c.1 < a + bs.length := by
  induction bs generalizing a with
  | nil => simp [cellsFrom] at h
  | cons b bs ih =>
    rw [cellsFrom, List.mem_cons] at h
    rcases h with rfl | h
    · simp
    · have := ih h; simp only [List.length_cons]; omega

theorem wf_cellsFrom (a : Nat) (bs : List Byte) : Memory.wf (cellsFrom a bs) := by
  induction bs generalizing a with
  | nil => exact List.Pairwise.nil
  | cons b bs ih =>
    refine List.Pairwise.cons (fun c hc => ?_) (ih (a + 1))
    have := (mem_cellsFrom hc).1
    simp only; omega

theorem wf_nil : Memory.wf [] := List.Pairwise.nil

/-- Every memory write keeps the canonical form. -/
theorem wf_writeBytes {m : Memory} (hm : Memory.wf m) (a : Nat) (bs : List Byte) : Memory.wf (writeBytes m a bs) := by
  refine List.pairwise_append.2 ⟨List.pairwise_append.2 ⟨hm.filter _, wf_cellsFrom a bs, ?_⟩, hm.filter _, ?_⟩
  · intro c hc d hd
    have h1 := (List.mem_filter.1 hc).2
    have h2 := (mem_cellsFrom hd).1
    simp only [decide_eq_true_eq] at h1
    omega
  · intro c hc d hd
    have h2 := (List.mem_filter.1 hd).2
    simp only [decide_eq_true_eq] at h2
    rcases List.mem_append.1 hc with hc | hc
    · have h1 := (List.mem_filter.1 hc).2
      simp only [decide_eq_true_eq] at h1
      omega
    · have h1 := (mem_cellsFrom hc).2
      omega

theorem wf_writeWindow {m : Memory} (hm : Memory.wf m) (j : Nat) (cs : List CWord) : Memory.wf (writeWindow m j cs) :=
  wf_writeBytes hm _ _

/-- A cell of the written memory lies in the stored range or was there before. -/
theorem mem_writeBytes {m : Memory} {a : Nat} {bs : List Byte} {c : Host.Cell} (h : c ∈ writeBytes m a bs) :
    (a ≤ c.1 ∧ c.1 < a + bs.length) ∨ (c ∈ m ∧ (c.1 < a ∨ a + bs.length ≤ c.1)) := by
  rcases List.mem_append.1 h with h | h
  · rcases List.mem_append.1 h with h | h
    · have := List.mem_filter.1 h
      simp only [decide_eq_true_eq] at this
      exact Or.inr ⟨this.1, Or.inl this.2⟩
    · exact Or.inl (mem_cellsFrom h)
  · have := List.mem_filter.1 h
    simp only [decide_eq_true_eq] at this
    exact Or.inr ⟨this.1, Or.inr this.2⟩

/-- Two memories in canonical form that read the same everywhere are equal. -/
theorem memory_ext {m n : Memory} (hm : Memory.wf m) (hn : Memory.wf n)
    (h : ∀ a, readByte m a = readByte n a) : m = n := by
  induction m generalizing n with
  | nil =>
    cases n with
    | nil => rfl
    | cons d n => simpa [readByte_cons] using h d.1
  | cons c m ih =>
    cases n with
    | nil => simpa [readByte_cons] using h c.1
    | cons d n =>
      have hm' := List.pairwise_cons.1 hm
      have hn' := List.pairwise_cons.1 hn
      have hcd : c.1 = d.1 := by
        by_contra hne
        rcases Nat.lt_or_gt_of_ne hne with hlt | hlt
        · have h1 := h c.1
          rw [readByte_cons, if_pos rfl, readByte_cons, if_neg (by omega)] at h1
          have := hn'.1 _ (readByte_eq_some_mem h1.symm)
          simp only at this; omega
        · have h1 := h d.1
          rw [readByte_cons, if_neg (by omega), readByte_cons, if_pos rfl] at h1
          have := hm'.1 _ (readByte_eq_some_mem h1)
          simp only at this; omega
      have hval : c.2 = d.2 := by
        have h1 := h c.1
        rw [readByte_cons, if_pos rfl, readByte_cons, if_pos hcd] at h1
        exact Option.some.inj h1
      have hc : c = d := Prod.ext hcd hval
      subst hc
      congr 1
      refine ih hm'.2 hn'.2 fun a => ?_
      have h1 := h a
      rw [readByte_cons, readByte_cons] at h1
      by_cases ha : a = c.1
      · subst ha
        have e1 : readByte m c.1 = none := by
          by_contra hne
          obtain ⟨b, hb⟩ := Option.ne_none_iff_exists'.1 hne
          have := hm'.1 _ (readByte_eq_some_mem hb)
          simp at this
        have e2 : readByte n c.1 = none := by
          by_contra hne
          obtain ⟨b, hb⟩ := Option.ne_none_iff_exists'.1 hne
          have := hn'.1 _ (readByte_eq_some_mem hb)
          simp at this
        rw [e1, e2]
      · rwa [if_neg ha, if_neg ha] at h1

/-! ### Halves: the byte order -/

@[simp] theorem wordBytes_length (w : Word) : (wordBytes w).length = 4 := rfl

@[simp] theorem sampleBytes_length (c : CWord) : (sampleBytes c).length = 8 := rfl

/-- Little-endian: the four bytes of a word put together give the word. -/
theorem joinBytes (w : Word) :
    (w.extractLsb' 24 8 ++ w.extractLsb' 16 8 ++ w.extractLsb' 8 8 ++ w.extractLsb' 0 8 : BitVec 32) = w := by
  ext i hi
  simp only [BitVec.getElem_append, BitVec.getElem_extractLsb']
  split
  · simp [← BitVec.getLsbD_eq_getElem]
  · split
    · rw [← BitVec.getLsbD_eq_getElem]; congr 1; omega
    · split
      · rw [← BitVec.getLsbD_eq_getElem]; congr 1; omega
      · rw [← BitVec.getLsbD_eq_getElem]; congr 1; omega

/-- A half depends on its four bytes only. -/
theorem readHalf_congr {m n : Memory} {a b : Nat} (h : ∀ i < 4, readByte m (a + i) = readByte n (b + i)) :
    readHalf m a = readHalf n b := by
  have h0 := h 0 (by omega)
  have h1 := h 1 (by omega)
  have h2 := h 2 (by omega)
  have h3 := h 3 (by omega)
  simp only [Nat.add_zero] at h0
  simp [readHalf, h0, h1, h2, h3]

theorem readHalf_of_bytes {m : Memory} {a : Nat} {w : Word} (h : ∀ i < 4, readByte m (a + i) = (wordBytes w)[i]?) :
    readHalf m a = some w := by
  have h0 : readByte m a = some (w.extractLsb' 0 8) := by simpa [wordBytes] using h 0 (by omega)
  have h1 : readByte m (a + 1) = some (w.extractLsb' 8 8) := by simpa [wordBytes] using h 1 (by omega)
  have h2 : readByte m (a + 2) = some (w.extractLsb' 16 8) := by simpa [wordBytes] using h 2 (by omega)
  have h3 : readByte m (a + 3) = some (w.extractLsb' 24 8) := by simpa [wordBytes] using h 3 (by omega)
  simp only [readHalf, h0, h1, h2, h3, joinBytes]

theorem readHalf_isSome_iff (m : Memory) (a : Nat) :
    (readHalf m a).isSome = true ↔ ∀ i < 4, (readByte m (a + i)).isSome = true := by
  constructor
  · intro h i hi
    unfold readHalf at h
    split at h
    · rename_i h0 h1 h2 h3
      have : i = 0 ∨ i = 1 ∨ i = 2 ∨ i = 3 := by omega
      rcases this with rfl | rfl | rfl | rfl <;> simp [h0, h1, h2, h3]
    · simp at h
  · intro h
    obtain ⟨b0, h0⟩ := Option.isSome_iff_exists.1 (h 0 (by omega))
    obtain ⟨b1, h1⟩ := Option.isSome_iff_exists.1 (h 1 (by omega))
    obtain ⟨b2, h2⟩ := Option.isSome_iff_exists.1 (h 2 (by omega))
    obtain ⟨b3, h3⟩ := Option.isSome_iff_exists.1 (h 3 (by omega))
    rw [Nat.add_zero] at h0
    simp [readHalf, h0, h1, h2, h3]

/-- A half stored is read back. -/
theorem readHalf_writeBytes_same (m : Memory) (a : Nat) (w : Word) :
    readHalf (writeBytes m a (wordBytes w)) a = some w := by
  refine readHalf_of_bytes fun i hi => ?_
  rw [readByte_writeBytes, if_pos (by simp; omega)]
  congr 1; omega

/-- A half that shares no byte with the stored range is read as before. -/
theorem readHalf_writeBytes_outside (m : Memory) (a : Nat) (bs : List Byte) (x : Nat)
    (h : x + 4 ≤ a ∨ a + bs.length ≤ x) : readHalf (writeBytes m a bs) x = readHalf m x :=
  readHalf_congr fun i hi => readByte_writeBytes_outside m a bs (x + i) (by omega)

/-! ### Complex words and windows -/

theorem readSample_eq_some_iff (m : Memory) (j : Nat) (c : CWord) :
    readSample m j = some c ↔ readHalf m (sampleAddr j) = some c.re ∧ readHalf m (sampleAddr j + 4) = some c.im := by
  rcases c with ⟨re, im⟩
  simp only [readSample]
  split
  · rename_i r i hr hi; simp [hr, hi]
  · rename_i hne
    constructor
    · simp
    · rintro ⟨h1, h2⟩; exact absurd h2 (by intro h2; exact hne _ _ h1 h2)

theorem readWindow_length {m : Memory} {j n : Nat} {cs : List CWord} (h : readWindow m j n = some cs) :
    cs.length = n := by
  induction n generalizing j cs with
  | zero => simp only [readWindow, Option.some.injEq] at h; simp [← h]
  | succ n ih =>
    simp only [readWindow] at h
    split at h
    · rename_i c cs' _ h2; cases h; simp [ih h2]
    · cases h

/-- A window is read word by word. -/
theorem readWindow_eq_some_iff (m : Memory) (j n : Nat) (cs : List CWord) :
    readWindow m j n = some cs ↔ cs.length = n ∧ ∀ i < n, readSample m (j + i) = cs[i]? := by
  induction n generalizing j cs with
  | zero =>
    simp only [readWindow, Option.some.injEq, List.length_eq_zero_iff]
    constructor
    · rintro rfl; simp
    · rintro ⟨rfl, _⟩; rfl
  | succ n ih =>
    simp only [readWindow]
    constructor
    · intro h
      split at h
      · rename_i c cs' h1 h2
        cases h
        obtain ⟨hl, hi⟩ := (ih (j + 1) cs').1 h2
        refine ⟨by simp [hl], fun i hlt => ?_⟩
        cases i with
        | zero => simpa using h1
        | succ i => simpa [Nat.add_assoc, Nat.add_comm 1 i] using hi i (by omega)
      · cases h
    · rintro ⟨hl, hi⟩
      cases cs with
      | nil => simp at hl
      | cons c cs =>
        have h1 : readSample m j = some c := by simpa using hi 0 (by omega)
        have h2 : readWindow m (j + 1) n = some cs := (ih (j + 1) cs).2
          ⟨by simpa using hl, fun i hlt => by
            simpa [Nat.add_assoc, Nat.add_comm 1 i] using hi (i + 1) (by omega)⟩
        simp [h1, h2]

theorem flatMap_sampleBytes_length (cs : List CWord) : (cs.flatMap sampleBytes).length = 8 * cs.length := by
  induction cs with
  | nil => simp
  | cons c cs ih => simp [ih]; omega

theorem flatMap_sampleBytes_getElem? (cs : List CWord) (i b : Nat) (hb : b < 8) :
    (cs.flatMap sampleBytes)[8 * i + b]? = cs[i]?.bind fun c => (sampleBytes c)[b]? := by
  induction cs generalizing i with
  | nil => simp
  | cons c cs ih =>
    rw [List.flatMap_cons, List.getElem?_append]
    cases i with
    | zero => simp [hb]
    | succ i =>
      rw [if_neg (by simp; omega), show 8 * (i + 1) + b - (sampleBytes c).length = 8 * i + b by simp; omega, ih]
      simp

/-- Completion's write: each word of the window is read back (R233). -/
theorem readSample_writeWindow (m : Memory) (j : Nat) (cs : List CWord) (i : Nat) (hi : i < cs.length) :
    readSample (writeWindow m j cs) (j + i) = cs[i]? := by
  have hbyte : ∀ b < 8, readByte (writeWindow m j cs) (sampleAddr (j + i) + b) = (sampleBytes cs[i])[b]? := by
    intro b hb
    rw [writeWindow, readByte_writeBytes, flatMap_sampleBytes_length,
      if_pos (by simp only [sampleAddr]; omega),
      show sampleAddr (j + i) + b - sampleAddr j = 8 * i + b by simp only [sampleAddr]; omega,
      flatMap_sampleBytes_getElem? cs i b hb]
    simp [hi]
  rw [List.getElem?_eq_getElem hi, readSample_eq_some_iff]
  constructor
  · refine readHalf_of_bytes fun b hb => ?_
    rw [hbyte b (by omega), sampleBytes, List.getElem?_append_left (by simpa using hb)]
  · refine readHalf_of_bytes fun b hb => ?_
    rw [Nat.add_assoc, hbyte (4 + b) (by omega), sampleBytes, List.getElem?_append_right (by simp)]
    congr 1; simp

theorem readWindow_writeWindow (m : Memory) (j : Nat) (cs : List CWord) :
    readWindow (writeWindow m j cs) j cs.length = some cs :=
  (readWindow_eq_some_iff _ _ _ _).2 ⟨rfl, fun i hi => readSample_writeWindow m j cs i hi⟩

/-- Completion's write leaves every byte outside the window alone (R91). -/
theorem readByte_writeWindow_outside (m : Memory) (j : Nat) (cs : List CWord) (a : Nat)
    (h : a < sampleAddr j ∨ sampleAddr (j + cs.length) ≤ a) : readByte (writeWindow m j cs) a = readByte m a := by
  refine readByte_writeBytes_outside m _ _ a ?_
  rw [flatMap_sampleBytes_length]
  simp only [sampleAddr] at h ⊢
  omega

end Sys2Proof.Machine
end

