-- ==== Sys2Proof/Laws/State.lean ====
section
/-! SUPPORT. One lemma per field per update of the state, and per field per event of STATUS: each is true by rfl, so that no
proof unfolds a record update. -/

namespace Sys2Proof.Machine

open Sys2Proof

variable (s : State)

/-! ### accept -/

@[simp] theorem accept_params (lt : Latch) (b : List CWord) : (accept lt b s).params = s.params := rfl
@[simp] theorem accept_resetPhase (lt : Latch) (b : List CWord) : (accept lt b s).resetPhase = s.resetPhase := rfl
@[simp] theorem accept_ie (lt : Latch) (b : List CWord) : (accept lt b s).ie = s.ie := rfl
@[simp] theorem accept_status (lt : Latch) (b : List CWord) : (accept lt b s).status = statusAccepted s.status := rfl
@[simp] theorem accept_base (lt : Latch) (b : List CWord) : (accept lt b s).base = s.base := rfl
@[simp] theorem accept_len (lt : Latch) (b : List CWord) : (accept lt b s).len = s.len := rfl
@[simp] theorem accept_arg0 (lt : Latch) (b : List CWord) : (accept lt b s).arg0 = s.arg0 := rfl
@[simp] theorem accept_arg1 (lt : Latch) (b : List CWord) : (accept lt b s).arg1 = s.arg1 := rfl
@[simp] theorem accept_arg2 (lt : Latch) (b : List CWord) : (accept lt b s).arg2 = s.arg2 := rfl
@[simp] theorem accept_latch (lt : Latch) (b : List CWord) : (accept lt b s).latch = lt := rfl
@[simp] theorem accept_phase (lt : Latch) (b : List CWord) : (accept lt b s).phase = .running b (s.params.latency lt.op.toNat lt.l.toNat) := rfl
@[simp] theorem accept_mem (lt : Latch) (b : List CWord) : (accept lt b s).mem = s.mem := rfl
@[simp] theorem accept_bus (lt : Latch) (b : List CWord) : (accept lt b s).bus = s.bus := rfl
@[simp] theorem accept_agenda (lt : Latch) (b : List CWord) : (accept lt b s).agenda = s.agenda := rfl

/-! ### reject -/

@[simp] theorem reject_params (e : ErrorKind) : (reject e s).params = s.params := rfl
@[simp] theorem reject_resetPhase (e : ErrorKind) : (reject e s).resetPhase = s.resetPhase := rfl
@[simp] theorem reject_ie (e : ErrorKind) : (reject e s).ie = s.ie := rfl
@[simp] theorem reject_status (e : ErrorKind) : (reject e s).status = statusRejected e s.status := rfl
@[simp] theorem reject_base (e : ErrorKind) : (reject e s).base = s.base := rfl
@[simp] theorem reject_len (e : ErrorKind) : (reject e s).len = s.len := rfl
@[simp] theorem reject_arg0 (e : ErrorKind) : (reject e s).arg0 = s.arg0 := rfl
@[simp] theorem reject_arg1 (e : ErrorKind) : (reject e s).arg1 = s.arg1 := rfl
@[simp] theorem reject_arg2 (e : ErrorKind) : (reject e s).arg2 = s.arg2 := rfl
@[simp] theorem reject_latch (e : ErrorKind) : (reject e s).latch = s.latch := rfl
@[simp] theorem reject_phase (e : ErrorKind) : (reject e s).phase = s.phase := rfl
@[simp] theorem reject_mem (e : ErrorKind) : (reject e s).mem = s.mem := rfl
@[simp] theorem reject_bus (e : ErrorKind) : (reject e s).bus = s.bus := rfl
@[simp] theorem reject_agenda (e : ErrorKind) : (reject e s).agenda = s.agenda := rfl

/-! ### overrun -/

@[simp] theorem overrun_params : (overrun s).params = s.params := rfl
@[simp] theorem overrun_resetPhase : (overrun s).resetPhase = s.resetPhase := rfl
@[simp] theorem overrun_ie : (overrun s).ie = s.ie := rfl
@[simp] theorem overrun_status : (overrun s).status = statusOverrun s.status := rfl
@[simp] theorem overrun_base : (overrun s).base = s.base := rfl
@[simp] theorem overrun_len : (overrun s).len = s.len := rfl
@[simp] theorem overrun_arg0 : (overrun s).arg0 = s.arg0 := rfl
@[simp] theorem overrun_arg1 : (overrun s).arg1 = s.arg1 := rfl
@[simp] theorem overrun_arg2 : (overrun s).arg2 = s.arg2 := rfl
@[simp] theorem overrun_latch : (overrun s).latch = s.latch := rfl
@[simp] theorem overrun_phase : (overrun s).phase = s.phase := rfl
@[simp] theorem overrun_mem : (overrun s).mem = s.mem := rfl
@[simp] theorem overrun_bus : (overrun s).bus = s.bus := rfl
@[simp] theorem overrun_agenda : (overrun s).agenda = s.agenda := rfl

/-! ### hostClear -/

@[simp] theorem hostClear_params (w : Word) : (hostClear w s).params = s.params := rfl
@[simp] theorem hostClear_resetPhase (w : Word) : (hostClear w s).resetPhase = s.resetPhase := rfl
@[simp] theorem hostClear_ie (w : Word) : (hostClear w s).ie = s.ie := rfl
@[simp] theorem hostClear_status (w : Word) : (hostClear w s).status = statusCleared w s.status := rfl
@[simp] theorem hostClear_base (w : Word) : (hostClear w s).base = s.base := rfl
@[simp] theorem hostClear_len (w : Word) : (hostClear w s).len = s.len := rfl
@[simp] theorem hostClear_arg0 (w : Word) : (hostClear w s).arg0 = s.arg0 := rfl
@[simp] theorem hostClear_arg1 (w : Word) : (hostClear w s).arg1 = s.arg1 := rfl
@[simp] theorem hostClear_arg2 (w : Word) : (hostClear w s).arg2 = s.arg2 := rfl
@[simp] theorem hostClear_latch (w : Word) : (hostClear w s).latch = s.latch := rfl
@[simp] theorem hostClear_phase (w : Word) : (hostClear w s).phase = s.phase := rfl
@[simp] theorem hostClear_mem (w : Word) : (hostClear w s).mem = s.mem := rfl
@[simp] theorem hostClear_bus (w : Word) : (hostClear w s).bus = s.bus := rfl
@[simp] theorem hostClear_agenda (w : Word) : (hostClear w s).agenda = s.agenda := rfl

/-! ### ackRead -/

@[simp] theorem ackRead_params (w : Word) : (ackRead w s).params = s.params := rfl
@[simp] theorem ackRead_resetPhase (w : Word) : (ackRead w s).resetPhase = s.resetPhase := rfl
@[simp] theorem ackRead_ie (w : Word) : (ackRead w s).ie = s.ie := rfl
@[simp] theorem ackRead_status (w : Word) : (ackRead w s).status = s.status := rfl
@[simp] theorem ackRead_base (w : Word) : (ackRead w s).base = s.base := rfl
@[simp] theorem ackRead_len (w : Word) : (ackRead w s).len = s.len := rfl
@[simp] theorem ackRead_arg0 (w : Word) : (ackRead w s).arg0 = s.arg0 := rfl
@[simp] theorem ackRead_arg1 (w : Word) : (ackRead w s).arg1 = s.arg1 := rfl
@[simp] theorem ackRead_arg2 (w : Word) : (ackRead w s).arg2 = s.arg2 := rfl
@[simp] theorem ackRead_latch (w : Word) : (ackRead w s).latch = s.latch := rfl
@[simp] theorem ackRead_phase (w : Word) : (ackRead w s).phase = s.phase := rfl
@[simp] theorem ackRead_mem (w : Word) : (ackRead w s).mem = s.mem := rfl
@[simp] theorem ackRead_bus (w : Word) : (ackRead w s).bus = { ack := true, err := false, rdata := some w } := rfl
@[simp] theorem ackRead_agenda (w : Word) : (ackRead w s).agenda = s.agenda := rfl

/-! ### ackWrite -/

@[simp] theorem ackWrite_params : (ackWrite s).params = s.params := rfl
@[simp] theorem ackWrite_resetPhase : (ackWrite s).resetPhase = s.resetPhase := rfl
@[simp] theorem ackWrite_ie : (ackWrite s).ie = s.ie := rfl
@[simp] theorem ackWrite_status : (ackWrite s).status = s.status := rfl
@[simp] theorem ackWrite_base : (ackWrite s).base = s.base := rfl
@[simp] theorem ackWrite_len : (ackWrite s).len = s.len := rfl
@[simp] theorem ackWrite_arg0 : (ackWrite s).arg0 = s.arg0 := rfl
@[simp] theorem ackWrite_arg1 : (ackWrite s).arg1 = s.arg1 := rfl
@[simp] theorem ackWrite_arg2 : (ackWrite s).arg2 = s.arg2 := rfl
@[simp] theorem ackWrite_latch : (ackWrite s).latch = s.latch := rfl
@[simp] theorem ackWrite_phase : (ackWrite s).phase = s.phase := rfl
@[simp] theorem ackWrite_mem : (ackWrite s).mem = s.mem := rfl
@[simp] theorem ackWrite_bus : (ackWrite s).bus = { ack := true, err := false, rdata := none } := rfl
@[simp] theorem ackWrite_agenda : (ackWrite s).agenda = s.agenda := rfl

/-! ### busError -/

@[simp] theorem busError_params (r : Option Word) : (busError r s).params = s.params := rfl
@[simp] theorem busError_resetPhase (r : Option Word) : (busError r s).resetPhase = s.resetPhase := rfl
@[simp] theorem busError_ie (r : Option Word) : (busError r s).ie = s.ie := rfl
@[simp] theorem busError_status (r : Option Word) : (busError r s).status = s.status := rfl
@[simp] theorem busError_base (r : Option Word) : (busError r s).base = s.base := rfl
@[simp] theorem busError_len (r : Option Word) : (busError r s).len = s.len := rfl
@[simp] theorem busError_arg0 (r : Option Word) : (busError r s).arg0 = s.arg0 := rfl
@[simp] theorem busError_arg1 (r : Option Word) : (busError r s).arg1 = s.arg1 := rfl
@[simp] theorem busError_arg2 (r : Option Word) : (busError r s).arg2 = s.arg2 := rfl
@[simp] theorem busError_latch (r : Option Word) : (busError r s).latch = s.latch := rfl
@[simp] theorem busError_phase (r : Option Word) : (busError r s).phase = s.phase := rfl
@[simp] theorem busError_mem (r : Option Word) : (busError r s).mem = s.mem := rfl
@[simp] theorem busError_bus (r : Option Word) : (busError r s).bus = { ack := true, err := true, rdata := r } := rfl
@[simp] theorem busError_agenda (r : Option Word) : (busError r s).agenda = s.agenda := rfl

/-! ### reset -/

@[simp] theorem resetOf_params (p : Params) : (State.resetOf p).params = p := rfl
@[simp] theorem resetOf_resetPhase (p : Params) : (State.resetOf p).resetPhase = .out := rfl
@[simp] theorem resetOf_ie (p : Params) : (State.resetOf p).ie = false := rfl
@[simp] theorem resetOf_status (p : Params) : (State.resetOf p).status = Status.reset := rfl
@[simp] theorem resetOf_base (p : Params) : (State.resetOf p).base = 0 := rfl
@[simp] theorem resetOf_len (p : Params) : (State.resetOf p).len = 0 := rfl
@[simp] theorem resetOf_arg0 (p : Params) : (State.resetOf p).arg0 = 0 := rfl
@[simp] theorem resetOf_arg1 (p : Params) : (State.resetOf p).arg1 = 0 := rfl
@[simp] theorem resetOf_arg2 (p : Params) : (State.resetOf p).arg2 = 0 := rfl
@[simp] theorem resetOf_latch (p : Params) : (State.resetOf p).latch = Latch.reset := rfl
@[simp] theorem resetOf_phase (p : Params) : (State.resetOf p).phase = .idle := rfl
@[simp] theorem resetOf_mem (p : Params) : (State.resetOf p).mem = [] := rfl
@[simp] theorem resetOf_bus (p : Params) : (State.resetOf p).bus = BusOut.idle := rfl
@[simp] theorem resetOf_agenda (p : Params) : (State.resetOf p).agenda = [] := rfl

/-! ### STATUS -/

variable (t : Status)

@[simp] theorem statusAccepted_busy : (statusAccepted t).busy = true := rfl
@[simp] theorem statusAccepted_done : (statusAccepted t).done = false := rfl
@[simp] theorem statusAccepted_err : (statusAccepted t).err = false := rfl
@[simp] theorem statusAccepted_ovr : (statusAccepted t).ovr = t.ovr := rfl
@[simp] theorem statusAccepted_errcode : (statusAccepted t).errcode = 0 := rfl

@[simp] theorem statusRejected_busy (e : ErrorKind) : (statusRejected e t).busy = t.busy := rfl
@[simp] theorem statusRejected_done (e : ErrorKind) : (statusRejected e t).done = true := rfl
@[simp] theorem statusRejected_err (e : ErrorKind) : (statusRejected e t).err = true := rfl
@[simp] theorem statusRejected_ovr (e : ErrorKind) : (statusRejected e t).ovr = t.ovr := rfl
@[simp] theorem statusRejected_errcode (e : ErrorKind) : (statusRejected e t).errcode = errorCode e := rfl

@[simp] theorem statusCompleted_busy : (statusCompleted t).busy = false := rfl
@[simp] theorem statusCompleted_done : (statusCompleted t).done = true := rfl
@[simp] theorem statusCompleted_err : (statusCompleted t).err = t.err := rfl
@[simp] theorem statusCompleted_ovr : (statusCompleted t).ovr = t.ovr := rfl
@[simp] theorem statusCompleted_errcode : (statusCompleted t).errcode = t.errcode := rfl

@[simp] theorem statusOverrun_busy : (statusOverrun t).busy = t.busy := rfl
@[simp] theorem statusOverrun_done : (statusOverrun t).done = t.done := rfl
@[simp] theorem statusOverrun_err : (statusOverrun t).err = t.err := rfl
@[simp] theorem statusOverrun_ovr : (statusOverrun t).ovr = true := rfl
@[simp] theorem statusOverrun_errcode : (statusOverrun t).errcode = t.errcode := rfl

@[simp] theorem statusCleared_busy (w : Word) : (statusCleared w t).busy = t.busy := rfl
@[simp] theorem statusCleared_done (w : Word) : (statusCleared w t).done = (t.done && !w.getLsbD 1) := rfl
@[simp] theorem statusCleared_err (w : Word) : (statusCleared w t).err = (t.err && !w.getLsbD 2) := rfl
@[simp] theorem statusCleared_ovr (w : Word) : (statusCleared w t).ovr = (t.ovr && !w.getLsbD 3) := rfl
@[simp] theorem statusCleared_errcode (w : Word) : (statusCleared w t).errcode = if w.getLsbD 2 then 0 else t.errcode := rfl

@[simp] theorem reset_busy : Status.reset.busy = false := rfl
@[simp] theorem reset_done : Status.reset.done = false := rfl
@[simp] theorem reset_err : Status.reset.err = false := rfl
@[simp] theorem reset_ovr : Status.reset.ovr = false := rfl
@[simp] theorem reset_errcode : Status.reset.errcode = 0 := rfl

end Sys2Proof.Machine
end

