-- ==== Sys2Proof/Laws/Transform.lean ====
section
/-! SUPPORT. The transform functions word by word: lengths, what one butterfly and a list of disjoint butterflies leave in
each word, and the index sets of a stage (42_cfft.md R182 to R186). -/

namespace Sys2Proof.Machine

open Sys2Proof

/-! ### Words -/

theorem wordAt_eq {b : List CWord} {i : Nat} (h : i < b.length) : wordAt b i = b[i] := by
  simp [wordAt, List.getD, h]

theorem getElem?_eq_wordAt {b : List CWord} {i : Nat} (h : i < b.length) : b[i]? = some (wordAt b i) := by
  rw [wordAt_eq h, List.getElem?_eq_getElem h]

/-- Two windows of one length with the same words are equal. -/
theorem window_ext {a b : List CWord} (hl : a.length = b.length) (h : ∀ i < a.length, wordAt a i = wordAt b i) :
    a = b := by
  refine List.ext_getElem hl fun i h1 h2 => ?_
  rw [← wordAt_eq h1, ← wordAt_eq h2, h i h1]

theorem wordAt_set (b : List CWord) (i j : Nat) (c : CWord) (hi : i < b.length) :
    wordAt (b.set i c) j = if j = i then c else wordAt b j := by
  unfold wordAt
  rw [List.getD_eq_getElem?_getD, List.getD_eq_getElem?_getD, List.getElem?_set]
  by_cases h : i = j
  · subst h; simp [hi]
  · simp [h, Ne.symm h]

theorem wordAt_append_left {a b : List CWord} {i : Nat} (h : i < a.length) : wordAt (a ++ b) i = wordAt a i := by
  rw [wordAt_eq h, wordAt_eq (by simp; omega), List.getElem_append_left h]

theorem wordAt_append_right {a b : List CWord} {i : Nat} (h : a.length ≤ i) :
    wordAt (a ++ b) i = wordAt b (i - a.length) := by
  unfold wordAt
  rw [List.getD_eq_getElem?_getD, List.getD_eq_getElem?_getD, List.getElem?_append_right h]

/-! ### Reorder -/

@[simp] theorem rev_zero (i : Nat) : rev 0 i = 0 := rfl

theorem rev_succ (l i : Nat) : rev (l + 1) i = i % 2 * 2 ^ l + rev l (i / 2) := rfl

theorem rev_lt (l i : Nat) : rev l i < 2 ^ l := by
  induction l generalizing i with
  | zero => simp
  | succ l ih =>
    have := ih (i / 2)
    have h2 : i % 2 < 2 := Nat.mod_lt _ (by omega)
    rw [rev_succ, pow_succ]
    nlinarith [Nat.lt_two_pow_self (n := l)]

@[simp] theorem permute_length (l : Nat) (b : List CWord) : (permute l b).length = 2 ^ l := by simp [permute]

theorem wordAt_permute (l : Nat) (b : List CWord) {i : Nat} (h : i < 2 ^ l) :
    wordAt (permute l b) i = wordAt b (rev l i) := by
  rw [wordAt_eq (by simpa using h)]; simp [permute]

/-! ### One butterfly -/

@[simp] theorem butterflyAt_length (b : List CWord) (p q : Nat) (t : CWord) (k : Nat) :
    (butterflyAt b p q t k).length = b.length := by simp [butterflyAt]

/-- What one butterfly leaves in each word. -/
theorem wordAt_butterflyAt (b : List CWord) (p q : Nat) (t : CWord) (k i : Nat) (hp : p < b.length) (hq : q < b.length) :
    wordAt (butterflyAt b p q t k) i =
      if i = q then (butterfly (wordAt b p) (wordAt b q) t k).2
      else if i = p then (butterfly (wordAt b p) (wordAt b q) t k).1
      else wordAt b i := by
  rw [butterflyAt, wordAt_set _ _ _ _ (by simpa using hq), wordAt_set _ _ _ _ hp]

/-- Only the index 0 test of the bypass reads k (R159). -/
theorem butterfly_index_congr (f s t : CWord) {k k' : Nat} (h : k = 0 ↔ k' = 0) :
    butterfly f s t k = butterfly f s t k' := by
  unfold butterfly tmul
  by_cases hk : k = 0
  · simp [hk, h.1 hk]
  · have hk' : ¬ k' = 0 := fun h' => hk (h.2 h')
    simp [hk, hk']

/-! ### Disjoint butterflies -/

/-- The word indices that a list of butterflies reads and writes. -/
def pairIndices (pairs : List (Nat × Nat × Nat)) : List Nat := pairs.flatMap fun x => [x.1, x.2.1]

/-- Butterflies one after the other, with the twiddle and the index given for each. -/
def runButterflies (tw : Nat × Nat × Nat → CWord) (ix : Nat × Nat × Nat → Nat) (pairs : List (Nat × Nat × Nat))
    (b : List CWord) : List CWord :=
  pairs.foldl (fun acc x => butterflyAt acc x.1 x.2.1 (tw x) (ix x)) b

theorem runPairs_eq (prm : Params) (n : Nat) (pairs : List (Nat × Nat × Nat)) (b : List CWord) :
    runPairs prm n pairs b = runButterflies (fun x => twiddle prm n x.2.2) (fun x => x.2.2) pairs b := rfl

@[simp] theorem runButterflies_length (tw ix) (pairs : List (Nat × Nat × Nat)) (b : List CWord) :
    (runButterflies tw ix pairs b).length = b.length := by
  induction pairs generalizing b with
  | nil => rfl
  | cons x xs ih => simpa [runButterflies] using ih (butterflyAt b x.1 x.2.1 (tw x) (ix x))

theorem runButterflies_cons (tw ix) (x : Nat × Nat × Nat) (xs : List (Nat × Nat × Nat)) (b : List CWord) :
    runButterflies tw ix (x :: xs) b = runButterflies tw ix xs (butterflyAt b x.1 x.2.1 (tw x) (ix x)) := rfl

theorem runButterflies_append (tw ix) (xs ys : List (Nat × Nat × Nat)) (b : List CWord) :
    runButterflies tw ix (xs ++ ys) b = runButterflies tw ix ys (runButterflies tw ix xs b) := by
  simp [runButterflies, List.foldl_append]

/-- A word that no butterfly touches stays. -/
theorem runButterflies_untouched (tw ix) (pairs : List (Nat × Nat × Nat)) (b : List CWord) (i : Nat)
    (hb : ∀ x ∈ pairs, x.1 < b.length ∧ x.2.1 < b.length) (hi : ∀ x ∈ pairs, i ≠ x.1 ∧ i ≠ x.2.1) :
    wordAt (runButterflies tw ix pairs b) i = wordAt b i := by
  induction pairs generalizing b with
  | nil => rfl
  | cons x xs ih =>
    have hx := hb x (by simp)
    have hn := hi x (by simp)
    rw [runButterflies_cons, ih _ (fun y hy => by simpa using hb y (by simp [hy])) (fun y hy => hi y (by simp [hy])),
      wordAt_butterflyAt _ _ _ _ _ _ hx.1 hx.2, if_neg hn.2, if_neg hn.1]

/-- In a list of butterflies that share no word, each leaves the butterfly of the words as they were before the list
(R186: "the result does not depend on the order of the loops"). -/
theorem runButterflies_touched (tw ix) (pairs : List (Nat × Nat × Nat)) (b : List CWord)
    (hb : ∀ x ∈ pairs, x.1 < b.length ∧ x.2.1 < b.length) (hd : (pairIndices pairs).Nodup)
    (x : Nat × Nat × Nat) (hx : x ∈ pairs) :
    wordAt (runButterflies tw ix pairs b) x.1 = (butterfly (wordAt b x.1) (wordAt b x.2.1) (tw x) (ix x)).1 ∧
      wordAt (runButterflies tw ix pairs b) x.2.1 = (butterfly (wordAt b x.1) (wordAt b x.2.1) (tw x) (ix x)).2 := by
  induction pairs generalizing b with
  | nil => simp at hx
  | cons y ys ih =>
    have hy := hb y (by simp)
    have hb' : ∀ z ∈ ys, z.1 < (butterflyAt b y.1 y.2.1 (tw y) (ix y)).length ∧
        z.2.1 < (butterflyAt b y.1 y.2.1 (tw y) (ix y)).length := fun z hz => by simpa using hb z (by simp [hz])
    simp only [pairIndices, List.flatMap_cons, List.cons_append, List.nil_append, List.nodup_cons, List.mem_cons,
      List.mem_flatMap, not_or, not_exists, not_and] at hd
    obtain ⟨⟨hne, h1⟩, h2, hnd⟩ := hd
    have hsep : ∀ z ∈ ys, y.1 ≠ z.1 ∧ y.1 ≠ z.2.1 ∧ y.2.1 ≠ z.1 ∧ y.2.1 ≠ z.2.1 := by
      intro z hz
      have a := h1 z hz
      have c := h2 z hz
      simp only [not_false_eq_true, List.not_mem_nil, and_true] at a c
      exact ⟨a.1, a.2, c.1, c.2⟩
    rw [runButterflies_cons]
    rcases List.mem_cons.1 hx with rfl | hx
    · rw [runButterflies_untouched _ _ _ _ _ hb' (fun z hz => ⟨(hsep z hz).1, (hsep z hz).2.1⟩),
        runButterflies_untouched _ _ _ _ _ hb' (fun z hz => ⟨(hsep z hz).2.2.1, (hsep z hz).2.2.2⟩),
        wordAt_butterflyAt _ _ _ _ _ _ hy.1 hy.2, wordAt_butterflyAt _ _ _ _ _ _ hy.1 hy.2]
      simp [hne]
    · have h := ih _ hb' hnd hx
      have s := hsep x hx
      rw [wordAt_butterflyAt _ _ _ _ _ _ hy.1 hy.2, wordAt_butterflyAt _ _ _ _ _ _ hy.1 hy.2, if_neg s.2.2.1.symm,
        if_neg s.1.symm, if_neg s.2.2.2.symm, if_neg s.2.1.symm] at h
      exact h

/-! ### The butterflies of a stage -/

theorem mem_blockPairs {start h : Nat} {x : Nat × Nat × Nat} :
    x ∈ blockPairs start h ↔ ∃ k < h, x = (start + k, start + k + h, k) := by
  simp [blockPairs, eq_comm]

theorem mem_stagePairs {l st : Nat} {x : Nat × Nat × Nat} :
    x ∈ stagePairs l st ↔ ∃ b < 2 ^ l / 2 ^ st, ∃ k < 2 ^ st / 2,
      x = (b * 2 ^ st + k, b * 2 ^ st + k + 2 ^ st / 2, k) := by
  simp [stagePairs, mem_blockPairs]

theorem blockPairs_nodup (start h : Nat) : (pairIndices (blockPairs start h)).Nodup := by
  rw [pairIndices, List.nodup_flatMap]
  constructor
  · intro x hx
    obtain ⟨k, hk, rfl⟩ := mem_blockPairs.1 hx
    simp only [List.nodup_cons, List.mem_singleton, List.not_mem_nil, not_false_eq_true, List.nodup_nil, and_true]
    omega
  · rw [blockPairs, List.pairwise_map]
    refine List.pairwise_lt_range.imp_of_mem fun {a b} ha hb hab => ?_
    have h1 := List.mem_range.1 ha
    have h2 := List.mem_range.1 hb
    simp only [Function.onFun, List.disjoint_left, List.mem_cons, List.not_mem_nil, or_false]
    omega

theorem two_pow_half {st : Nat} (h : 1 ≤ st) : 2 ^ st / 2 + 2 ^ st / 2 = 2 ^ st := by
  obtain ⟨n, rfl⟩ := Nat.exists_eq_add_of_le' h
  rw [pow_succ]; omega

theorem stagePairs_lt {l st : Nat} (h1 : 1 ≤ st) (h2 : st ≤ l) {x : Nat × Nat × Nat} (hx : x ∈ stagePairs l st) :
    x.1 < 2 ^ l ∧ x.2.1 < 2 ^ l := by
  obtain ⟨b, hb, k, hk, rfl⟩ := mem_stagePairs.1 hx
  have hh := two_pow_half h1
  have hdiv : 2 ^ l / 2 ^ st * 2 ^ st = 2 ^ l := Nat.div_mul_cancel (Nat.pow_dvd_pow 2 h2)
  have : (b + 1) * 2 ^ st ≤ 2 ^ l := hdiv ▸ Nat.mul_le_mul_right _ hb
  have hx : (b + 1) * 2 ^ st = b * 2 ^ st + 2 ^ st := by ring
  simp only
  omega

theorem stagePairs_nodup {l st : Nat} (h1 : 1 ≤ st) : (pairIndices (stagePairs l st)).Nodup := by
  have hh := two_pow_half h1
  have key : pairIndices (stagePairs l st) =
      (List.range (2 ^ l / 2 ^ st)).flatMap fun b => pairIndices (blockPairs (b * 2 ^ st) (2 ^ st / 2)) := by
    simp [pairIndices, stagePairs, List.flatMap_assoc]
  rw [key, List.nodup_flatMap]
  refine ⟨fun b _ => blockPairs_nodup _ _, ?_⟩
  refine List.pairwise_lt_range.imp fun {a b} hab => ?_
  have hm : (a + 1) * 2 ^ st ≤ b * 2 ^ st := Nat.mul_le_mul_right _ hab
  have hx : (a + 1) * 2 ^ st = a * 2 ^ st + 2 ^ st := by ring
  simp only [Function.onFun, List.disjoint_left, pairIndices, List.mem_flatMap, not_exists, not_and]
  rintro i ⟨x, hx1, hx2⟩ y hy1 hy2
  obtain ⟨k, hk, rfl⟩ := mem_blockPairs.1 hx1
  obtain ⟨k', hk', rfl⟩ := mem_blockPairs.1 hy1
  simp only [List.mem_cons, List.not_mem_nil, or_false] at hx2 hy2
  omega

/-! ### Lengths -/

@[simp] theorem runPairs_length (prm : Params) (n : Nat) (pairs : List (Nat × Nat × Nat)) (b : List CWord) :
    (runPairs prm n pairs b).length = b.length := runButterflies_length _ _ _ _

@[simp] theorem stage_length (prm : Params) (l st : Nat) (b : List CWord) : (stage prm l st b).length = b.length :=
  runPairs_length _ _ _ _

@[simp] theorem stagesUpTo_length (prm : Params) (l st : Nat) (b : List CWord) :
    (stagesUpTo prm l st b).length = b.length := by
  induction st with
  | zero => rfl
  | succ st ih => rw [stagesUpTo, stage_length, ih]

theorem cfft_length (prm : Params) (l : Nat) (b : List CWord) (h : b.length = 2 ^ l) :
    (cfft prm l b).length = b.length := by
  unfold cfft
  split
  · rfl
  · simp [h]

theorem recombineAt_length (prm : Params) (l : Nat) (z out : List CWord) (k : Nat) :
    (recombineAt prm l z out k).length = out.length := by simp [recombineAt]

theorem foldl_recombineAt_length (prm : Params) (l : Nat) (z : List CWord) (ks : List Nat) (out : List CWord) :
    (ks.foldl (recombineAt prm l z) out).length = out.length := by
  induction ks generalizing out with
  | nil => rfl
  | cons k ks ih => simpa [recombineAt_length] using ih (recombineAt prm l z out k)

@[simp] theorem rpost_length (prm : Params) (l : Nat) (z : List CWord) : (rpost prm l z).length = z.length := by
  unfold rpost recombinePairs
  split <;> simp [foldl_recombineAt_length]

theorem rfft_length (prm : Params) (l : Nat) (b : List CWord) (h1 : 1 ≤ l) (h : b.length = 2 ^ l / 2) :
    (rfft prm l b).length = b.length := by
  rw [rfft, rpost_length, cfft_length]
  obtain ⟨n, rfl⟩ := Nat.exists_eq_add_of_le' h1
  rw [h, pow_succ]; simp

end Sys2Proof.Machine
end

