-- ==== Sys2Proof/Laws/Exec.lean ====
section
/-! SUPPORT. What issuing a command can do, said once: the inversion of `issue`, `exec` as one `issue`, the length of a
command's image, and completion. -/

namespace Sys2Proof.Machine

open Sys2Proof

/-- The command's function F from LATCH and Bin to Bout (42_cfft.md R181), by command. -/
def imageOf (prm : Params) : Instr → Latch → List CWord → List CWord
  | .nop => fun _ _ => []
  | .bitrev _ => fun latch bin => permute latch.l.toNat bin
  | .stage _ _ => fun latch bin => stage prm latch.l.toNat latch.st.toNat bin
  | .bfly _ => fun latch bin =>
    butterflyAt bin latch.p.toNat latch.q.toNat (twiddle prm latch.l.toNat latch.k.toNat) latch.k.toNat
  | .cfft _ => fun latch bin => cfft prm latch.l.toNat bin
  | .rpost _ => fun latch bin => rpost prm latch.l.toNat bin
  | .rfft _ => fun latch bin => rfft prm latch.l.toNat bin

/-- Every command is issued the same way, with its own function. -/
theorem exec_eq_issue (i : Instr) (s : State) : exec i s = issue i (imageOf s.params i) s := by
  cases i <;> rfl

/-! ### issue -/

theorem issue_of_busy {i f} {s : State} (h : s.status.busy = true) : issue i f s = .next (overrun s) := by
  simp [issue, h]

theorem issue_of_error {i f} {s : State} {e : ErrorKind} (h : s.status.busy = false) (hv : validate i s = some e) :
    issue i f s = .next (reject e s) := by
  simp [issue, h, hv]

theorem issue_of_window {i f} {s : State} {bin : List CWord} (h : s.status.busy = false) (hv : validate i s = none)
    (hw : readWindow s.mem s.base.toNat (windowWords i) = some bin) :
    issue i f s = .next (accept (captureLatch i s) (f (captureLatch i s) bin) s) := by
  simp [issue, h, hv, hw]

theorem issue_of_unwritten {i f} {s : State} (h : s.status.busy = false) (hv : validate i s = none)
    (hw : readWindow s.mem s.base.toNat (windowWords i) = none) : issue i f s = .fault .unwrittenWindow := by
  simp [issue, h, hv, hw]

/-- The three next states of a CMD write: dropped, rejected, accepted. -/
theorem issue_next_cases {i f} {s t : State} (h : issue i f s = .next t) :
    (s.status.busy = true ∧ t = overrun s) ∨
    (s.status.busy = false ∧ ∃ e, validate i s = some e ∧ t = reject e s) ∨
    (s.status.busy = false ∧ validate i s = none ∧
      ∃ bin, readWindow s.mem s.base.toNat (windowWords i) = some bin ∧
        t = accept (captureLatch i s) (f (captureLatch i s) bin) s) := by
  cases hb : s.status.busy with
  | true =>
    rw [issue_of_busy hb] at h; cases h; exact Or.inl ⟨rfl, rfl⟩
  | false =>
    cases hv : validate i s with
    | some e => rw [issue_of_error hb hv] at h; cases h; exact Or.inr (Or.inl ⟨rfl, e, rfl, rfl⟩)
    | none =>
      cases hw : readWindow s.mem s.base.toNat (windowWords i) with
      | none => rw [issue_of_unwritten hb hv hw] at h; cases h
      | some bin => rw [issue_of_window hb hv hw] at h; cases h; exact Or.inr (Or.inr ⟨rfl, rfl, bin, rfl, rfl⟩)

/-- The only stop of a CMD write: an unwritten word in the window of a command that passed its checks (R282). -/
theorem issue_fault_cases {i f} {s : State} {r : Fault} (h : issue i f s = .fault r) :
    r = .unwrittenWindow ∧ s.status.busy = false ∧ validate i s = none ∧
      readWindow s.mem s.base.toNat (windowWords i) = none := by
  cases hb : s.status.busy with
  | true => rw [issue_of_busy hb] at h; cases h
  | false =>
    cases hv : validate i s with
    | some e => rw [issue_of_error hb hv] at h; cases h
    | none =>
      cases hw : readWindow s.mem s.base.toNat (windowWords i) with
      | none => rw [issue_of_unwritten hb hv hw] at h; cases h; exact ⟨rfl, rfl, rfl, rfl⟩
      | some bin => rw [issue_of_window hb hv hw] at h; cases h

theorem issue_not_refused {i f} {s : State} {r : Refusal} : issue i f s ≠ .refused r := by
  unfold issue
  split
  · simp
  · split
    · simp
    · split <;> simp

theorem exec_next_cases {i : Instr} {s t : State} (h : exec i s = .next t) :
    (s.status.busy = true ∧ t = overrun s) ∨
    (s.status.busy = false ∧ ∃ e, validate i s = some e ∧ t = reject e s) ∨
    (s.status.busy = false ∧ validate i s = none ∧
      ∃ bin, readWindow s.mem s.base.toNat (windowWords i) = some bin ∧
        t = accept (captureLatch i s) (imageOf s.params i (captureLatch i s) bin) s) :=
  issue_next_cases (exec_eq_issue i s ▸ h)

/-! ### validate -/

theorem validate_eq_sized {i : Instr} (h : i ≠ .nop) (s : State) : validate i s = validateSized i s := by
  cases i <;> first | rfl | exact absurd rfl h

@[simp] theorem validate_nop (s : State) : validate .nop s = none := rfl

/-- A command passes the checks exactly when none of the four conditions of R247 holds. -/
theorem validateSized_eq_none_iff (i : Instr) (s : State) :
    validateSized i s = none ↔ sizeUnsupported s.params i = false ∧ argsBad i s = false ∧
      lengthMismatch i s = false ∧ outOfRange i s = false := by
  unfold validateSized
  cases sizeUnsupported s.params i <;> cases argsBad i s <;> cases lengthMismatch i s <;> cases outOfRange i s <;> simp

theorem sizeUnsupported_eq_false_iff (p : Params) (i : Instr) :
    sizeUnsupported p i = false ↔ 1 ≤ i.sizeExp ∧ i.sizeExp ≤ p.log2M := by
  simp [sizeUnsupported]; omega

theorem outOfRange_eq_false_iff (i : Instr) (s : State) :
    outOfRange i s = false ↔ s.base.toNat + windowWords i ≤ s.params.size := by
  simp [outOfRange]

theorem lengthMismatch_eq_false_iff (i : Instr) (s : State) :
    lengthMismatch i s = false ↔ s.len.toNat = commandSize i := by
  simp [lengthMismatch]

/-! ### The image -/

theorem imageOf_length (prm : Params) {i : Instr} {latch : Latch} {bin : List CWord}
    (hl : latch.l.toNat = i.sizeExp) (h1 : i ≠ .nop → 1 ≤ i.sizeExp) (hb : bin.length = windowWords i) :
    (imageOf prm i latch bin).length = windowWords i := by
  cases i with
  | nop => rfl
  | bitrev l => simpa [imageOf, windowWords, Instr.sizeExp] using hl
  | stage l st => simpa [imageOf] using hb
  | bfly l => simpa [imageOf] using hb
  | cfft l =>
    simp only [Instr.sizeExp] at hl
    simp only [imageOf, hl]
    rw [cfft_length _ _ _ hb, hb]
  | rpost l => simpa [imageOf] using hb
  | rfft l =>
    simp only [Instr.sizeExp] at hl h1
    simp only [imageOf, hl]
    rw [rfft_length _ _ _ (h1 (by simp)) hb, hb]

/-- What an accepted command has passed: its image has W words and its window lies in the sample RAM. -/
theorem image_of_valid {i : Instr} {s : State} {bin : List CWord} (hv : validate i s = none)
    (hw : readWindow s.mem s.base.toNat (windowWords i) = some bin) :
    (imageOf s.params i (captureLatch i s) bin).length = windowWords i ∧
      (i ≠ .nop → s.base.toNat + windowWords i ≤ s.params.size) := by
  have key : i ≠ .nop → 1 ≤ i.sizeExp ∧ s.base.toNat + windowWords i ≤ s.params.size := by
    intro hne
    rw [validate_eq_sized hne, validateSized_eq_none_iff] at hv
    exact ⟨((sizeUnsupported_eq_false_iff _ _).1 hv.1).1, (outOfRange_eq_false_iff _ _).1 hv.2.2.2⟩
  exact ⟨imageOf_length _ (captureLatch_l_toNat i s) (fun h => (key h).1) (readWindow_length hw), fun h => (key h).2⟩

/-! ### complete -/

theorem complete_running {s : State} {bout : List CWord} {left : Nat} (h : s.phase = .running bout left) :
    complete s = { s with
      mem := writeWindow s.mem s.latch.base.toNat bout, status := statusCompleted s.status, phase := .idle } := by
  simp [complete, h]

theorem complete_idle {s : State} (h : s.phase = .idle) : complete s = s := by simp [complete, h]

theorem clockEdge_held {s : State} (h : s.resetPhase = .held) : clockEdge s = s := by simp [clockEdge, h]

theorem clockEdge_ending {s : State} (h : s.resetPhase = .ending) : clockEdge s = { s with resetPhase := .out } := by
  simp [clockEdge, h]

theorem clockEdge_idle {s : State} (h : s.resetPhase = .out) (hp : s.phase = .idle) : clockEdge s = s := by
  simp [clockEdge, h, hp]

theorem clockEdge_waiting {s : State} {bout : List CWord} {left : Nat} (h : s.resetPhase = .out)
    (hp : s.phase = .running bout left) (hl : 1 < left) : clockEdge s = { s with phase := .running bout (left - 1) } := by
  simp [clockEdge, h, hp, Nat.not_le.2 hl]

theorem clockEdge_last {s : State} {bout : List CWord} {left : Nat} (h : s.resetPhase = .out)
    (hp : s.phase = .running bout left) (hl : left ≤ 1) : clockEdge s = complete s := by
  simp [clockEdge, h, hp, hl]

/-- A clock edge: nothing, the end of reset, one cycle less to wait, or the completion step. -/
theorem clockEdge_cases (s : State) :
    clockEdge s = s ∨
    (s.resetPhase = .ending ∧ clockEdge s = { s with resetPhase := .out }) ∨
    (∃ bout left, s.resetPhase = .out ∧ s.phase = .running bout left ∧ 1 < left ∧
      clockEdge s = { s with phase := .running bout (left - 1) }) ∨
    (∃ bout left, s.resetPhase = .out ∧ s.phase = .running bout left ∧ left ≤ 1 ∧ clockEdge s = complete s) := by
  cases hr : s.resetPhase with
  | held => exact Or.inl (clockEdge_held hr)
  | ending => exact Or.inr (Or.inl ⟨rfl, clockEdge_ending hr⟩)
  | out =>
    cases hp : s.phase with
    | idle => exact Or.inl (clockEdge_idle hr hp)
    | running bout left =>
      rcases Nat.lt_or_ge 1 left with hl | hl
      · exact Or.inr (Or.inr (Or.inl ⟨bout, left, rfl, rfl, hl, hr ▸ clockEdge_waiting hr hp hl⟩))
      · exact Or.inr (Or.inr (Or.inr ⟨bout, left, rfl, rfl, hl, clockEdge_last hr hp hl⟩))

/-! ### The reset pin -/

theorem setResetPin_low (s : State) :
    setResetPin false s = { State.resetOf s.params with resetPhase := .held, agenda := s.agenda } := rfl

/-- Taking the pin high changes the reset phase alone, and only from `held` (R280). -/
theorem setResetPin_high (s : State) : setResetPin true s =
    { s with resetPhase := if s.resetPhase = .held then .ending else s.resetPhase } := by
  cases h : s.resetPhase <;> simp [setResetPin, h] <;> cases s <;> simp_all

end Sys2Proof.Machine
end

