-- ==== Sys2Proof/Laws/Step.lean ====
section
/-! SUPPORT. What one bus transaction and one step can do, said once. -/

namespace Sys2Proof.Machine

open Sys2Proof

/-- A write of an operand register or of CTRL: these six registers may change, and the transaction is acknowledged. -/
def operandWrite (s t : State) : Prop :=
  t = { ackWrite s with ie := t.ie, base := t.base, len := t.len, arg0 := t.arg0, arg1 := t.arg1, arg2 := t.arg2 }

/-- The outcomes of a CMD write (R230). -/
theorem commandWrite_cases {w : Word} {s t : State} (h : commandWrite w s = .next t) :
    (∃ i, decode w = .ok i ∧ exec i s = .next t) ∨ (∃ e, decode w = .error e ∧ t = issueIllegal s) := by
  unfold commandWrite at h
  split at h
  · rename_i i hi; exact Or.inl ⟨i, hi, h⟩
  · rename_i e he; cases h; exact Or.inr ⟨e, he, rfl⟩

/-- The next states of a legal register write. -/
theorem writeReg_cases {r : Reg} {w : Word} {s t : State} (h : writeReg r w (ackWrite s) = .next t) :
    operandWrite s t ∨ t = hostClear w (ackWrite s) ∨ (r = .cmd ∧ commandWrite w (ackWrite s) = .next t) := by
  cases r <;> simp only [writeReg, Host.Outcome.next.injEq] at h
  case status => exact Or.inr (Or.inl h.symm)
  case cmd => exact Or.inr (Or.inr ⟨rfl, h⟩)
  all_goals (subst h; exact Or.inl rfl)

/-- The next states of one bus transaction. -/
theorem busAccess_cases {r : BusReq} {s t : State} (h : busAccess r s = .next t) :
    (∃ b, t = { s with bus := b }) ∨
    (r.we = true ∧ accessLegal r = true ∧ operandWrite s t) ∨
    (r.we = true ∧ accessLegal r = true ∧ t = hostClear r.wdata (ackWrite s)) ∨
    (r.we = true ∧ accessLegal r = true ∧ regionOf s.params r.addr.toNat = .reg .cmd ∧
      commandWrite r.wdata (ackWrite s) = .next t) ∨
    (∃ a, r.we = true ∧ accessLegal r = true ∧ regionOf s.params r.addr.toNat = .ram a ∧ s.status.busy = false ∧
      t = ackWrite { s with mem := writeBytes s.mem a (wordBytes r.wdata) }) := by
  unfold busAccess at h
  split at h
  · cases h; exact Or.inl ⟨_, rfl⟩
  · split at h
    · rename_i hleg
      split at h
      · rename_i hwe
        cases hg : regionOf s.params r.addr.toNat with
        | reg g =>
          simp only [hg, busWrite] at h
          rcases writeReg_cases h with h | h | ⟨hc, h⟩
          · exact Or.inr (Or.inl ⟨hwe, hleg, h⟩)
          · exact Or.inr (Or.inr (Or.inl ⟨hwe, hleg, h⟩))
          · subst hc; exact Or.inr (Or.inr (Or.inr (Or.inl ⟨hwe, hleg, rfl, h⟩)))
        | rom j im => simp only [hg, busWrite] at h; cases h; exact Or.inl ⟨_, rfl⟩
        | unmapped => simp only [hg, busWrite] at h; cases h; exact Or.inl ⟨_, rfl⟩
        | ram a =>
          simp only [hg, busWrite, ramWrite] at h
          split at h
          · cases h
          · rename_i hb
            cases h
            exact Or.inr (Or.inr (Or.inr (Or.inr ⟨a, hwe, hleg, rfl, by simpa using hb, rfl⟩)))
      · cases hg : regionOf s.params r.addr.toNat with
        | reg g => simp only [hg, busRead] at h; cases h; exact Or.inl ⟨_, rfl⟩
        | rom j im => simp only [hg, busRead] at h; cases h; exact Or.inl ⟨_, rfl⟩
        | unmapped => simp only [hg, busRead] at h; cases h; exact Or.inl ⟨_, rfl⟩
        | ram a =>
          simp only [hg, busRead, ramRead] at h
          split at h
          · cases h
          · split at h
            · cases h; exact Or.inl ⟨_, rfl⟩
            · cases h
    · cases h; exact Or.inl ⟨_, rfl⟩

/-- The state a step starts from: the next event taken off the agenda, no transaction on the bus. -/
def beginStep (s : State) (rest : List Event) : State := { s with bus := BusOut.idle, agenda := rest }

theorem step_nil {s : State} (h : s.agenda = []) : step s = .next (clockEdge (beginStep s [])) := by
  simp [step, h, portEvent, beginStep]

theorem step_cons {s : State} {e : Event} {rest : List Event} (h : s.agenda = e :: rest) :
    step s = portEvent e (beginStep s rest) := by
  simp [step, h, beginStep]

/-- What one step can do: a clock edge, the reset pin, a transaction without reply before the unit has left reset, a
transaction. -/
theorem step_cases {s t : State} (h : step s = .next t) :
    ∃ rest, t = clockEdge (beginStep s rest) ∨ (∃ level, t = setResetPin level (beginStep s rest)) ∨
      (s.resetPhase ≠ .out ∧ t = beginStep s rest) ∨
      (∃ r, s.resetPhase = .out ∧ s.agenda = .bus r :: rest ∧ busAccess r (beginStep s rest) = .next t) := by
  cases ha : s.agenda with
  | nil => rw [step_nil ha] at h; cases h; exact ⟨[], Or.inl rfl⟩
  | cons e rest =>
    rw [step_cons ha] at h
    refine ⟨rest, ?_⟩
    cases e with
    | clk => simp only [portEvent] at h; cases h; exact Or.inl rfl
    | rst level => simp only [portEvent] at h; cases h; exact Or.inr (Or.inl ⟨level, rfl⟩)
    | bus r =>
      simp only [portEvent] at h
      split at h
      · rename_i hr; exact Or.inr (Or.inr (Or.inr ⟨r, hr, rfl, h⟩))
      · rename_i hr; cases h; exact Or.inr (Or.inr (Or.inl ⟨hr, rfl⟩))

/-! ### The address map -/

/-- A sample RAM access names its own offset, and lies in the sample RAM (R72). -/
theorem regionOf_ram {p : Params} {x a : Nat} (h : regionOf p x = .ram a) :
    a = x ∧ ramBase ≤ x ∧ x < ramBase + 8 * p.size := by
  unfold regionOf at h
  split at h
  · cases h
  · split at h
    · cases h
    · split at h
      · cases h
      · split at h
        · cases h
        · split at h
          · rename_i h1 h2; cases h; exact ⟨rfl, by omega, h2⟩
          · cases h

/-- A legal access is aligned (R76). -/
theorem accessLegal_aligned {r : BusReq} (h : accessLegal r = true) : r.addr.toNat % 4 = 0 := by
  simp only [accessLegal, Bool.and_eq_true, beq_iff_eq] at h
  exact h.1

end Sys2Proof.Machine
end

