-- ==== Sys2Proof/Laws/Invariant.lean ====
section
/-! SUPPORT. Each shared operation keeps the invariant of Safety.lean. -/

namespace Sys2Proof

open Sys2Proof.Machine

/-! ### The memory part -/

theorem memWhole_writeBytes {m : Memory} (hm : memWholeHalves m) {a : Nat} {bs : List Byte} (ha : a % 4 = 0)
    (hb : bs.length % 4 = 0) : memWholeHalves (writeBytes m a bs) := by
  intro c hc
  rcases mem_writeBytes hc with ⟨h1, h2⟩ | ⟨h1, h2⟩
  · rw [readHalf_isSome_iff]
    intro i hi
    rw [readByte_writeBytes, if_pos (by omega), List.getElem?_eq_getElem (by omega)]
    rfl
  · rw [readHalf_writeBytes_outside _ _ _ _ (by omega)]
    exact hm c h1

theorem ram_write_inside {p : Params} {x a : Nat} (h : regionOf p x = .ram a) (hx : x % 4 = 0) :
    a % 4 = 0 ∧ ramBase ≤ a ∧ a + 4 ≤ ramBase + 8 * p.size := by
  obtain ⟨rfl, h1, h2⟩ := regionOf_ram h
  refine ⟨hx, h1, ?_⟩
  have : ramBase % 4 = 0 := by decide
  omega

/-! ### The operations -/

theorem inv_bus {s : State} (h : Inv s) (b : BusOut) : Inv { s with bus := b } where
  memSorted := h.memSorted
  memInRam := h.memInRam
  memWhole := h.memWhole
  errIffCode := h.errIffCode
  codeKnown := h.codeKnown
  busyClean := h.busyClean
  busyIffRunning := h.busyIffRunning
  runningFits := h.runningFits
  resetHeld := by
    intro hr
    have := h.resetHeld hr
    unfold heldInReset at this ⊢
    rw [this]
    rfl

theorem inv_beginStep {s : State} (h : Inv s) (rest : List Event) : Inv (beginStep s rest) where
  memSorted := h.memSorted
  memInRam := h.memInRam
  memWhole := h.memWhole
  errIffCode := h.errIffCode
  codeKnown := h.codeKnown
  busyClean := h.busyClean
  busyIffRunning := h.busyIffRunning
  runningFits := h.runningFits
  resetHeld := by
    intro hr
    have := h.resetHeld hr
    unfold heldInReset at this ⊢
    rw [this]
    rfl

theorem inv_resetOf (p : Params) (level : ResetPhase) (a : List Event) (b : BusOut) :
    Inv { State.resetOf p with resetPhase := level, agenda := a, bus := b } where
  memSorted := wf_nil
  memInRam := by intro c hc; simp at hc
  memWhole := by intro c hc; simp at hc
  errIffCode := by simp
  codeKnown := by simp
  busyClean := by simp
  busyIffRunning := rfl
  runningFits := by intro bout left h; simp at h
  resetHeld := by intro _; simp [heldInReset]

theorem inv_setResetPin {s : State} (h : Inv s) (level : Bool) : Inv (setResetPin level s) := by
  cases level with
  | false => exact inv_resetOf s.params .held s.agenda BusOut.idle
  | true =>
    rw [setResetPin_high]
    refine ⟨h.memSorted, h.memInRam, h.memWhole, h.errIffCode, h.codeKnown, h.busyClean, h.busyIffRunning, h.runningFits, ?_⟩
    intro hr
    have hr' : s.resetPhase ≠ .out := by rintro e; simp [e] at hr
    have := h.resetHeld hr'
    unfold heldInReset at this ⊢
    rw [this]
    rfl

theorem inv_leaveReset {s : State} (h : Inv s) : Inv { s with resetPhase := .out } :=
  ⟨h.memSorted, h.memInRam, h.memWhole, h.errIffCode, h.codeKnown, h.busyClean, h.busyIffRunning, h.runningFits, by simp⟩

theorem inv_status {s : State} (h : Inv s) (hr : s.resetPhase = .out) {t : Status} (h1 : t.err = true ↔ t.errcode ≠ 0)
    (h2 : t.errcode.toNat ≤ 5) (h3 : t.busy = true → t.done = false ∧ t.err = false) (h4 : t.busy = s.status.busy) :
    Inv { s with status := t } where
  memSorted := h.memSorted
  memInRam := h.memInRam
  memWhole := h.memWhole
  errIffCode := h1
  codeKnown := h2
  busyClean := h3
  busyIffRunning := h4.trans h.busyIffRunning
  runningFits := h.runningFits
  resetHeld := by intro hr'; simp [hr] at hr'

theorem inv_overrun {s : State} (h : Inv s) (hr : s.resetPhase = .out) : Inv (overrun s) :=
  inv_status h hr h.errIffCode h.codeKnown h.busyClean rfl

theorem errorCode_range (e : ErrorKind) : errorCode e ≠ 0 ∧ (errorCode e).toNat ≤ 5 := by cases e <;> decide

theorem inv_reject {s : State} (h : Inv s) (hr : s.resetPhase = .out) (hb : s.status.busy = false) (e : ErrorKind) :
    Inv (reject e s) :=
  inv_status h hr (by simpa using (errorCode_range e).1) (errorCode_range e).2 (by simp [hb]) rfl

theorem inv_issueIllegal {s : State} (h : Inv s) (hr : s.resetPhase = .out) : Inv (issueIllegal s) := by
  unfold issueIllegal
  split
  · exact inv_overrun h hr
  · rename_i hb; exact inv_reject h hr (by simpa using hb) _

theorem inv_hostClear {s : State} (h : Inv s) (hr : s.resetPhase = .out) (w : Word) : Inv (hostClear w s) := by
  have h1 := h.errIffCode
  have h2 := h.codeKnown
  have h3 := h.busyClean
  refine inv_status h hr ?_ ?_ ?_ rfl
  · cases hw : w.getLsbD 2 <;> simp only [statusCleared, hw, h1, Bool.not_false, Bool.not_true, Bool.and_true, Bool.and_false,
      if_true, if_false, Bool.false_eq_true, ne_eq, not_true_eq_false]
  · cases hw : w.getLsbD 2 <;> simp only [statusCleared, hw, if_true, if_false, Bool.false_eq_true, h2]
    decide
  · intro hb
    have := h3 hb
    simp [statusCleared, this]

theorem inv_operandWrite {s t : State} (h : Inv s) (hr : s.resetPhase = .out) (ht : operandWrite s t) : Inv t := by
  have h0 : Inv (ackWrite s) := inv_bus h _
  rw [ht]
  exact ⟨h0.memSorted, h0.memInRam, h0.memWhole, h0.errIffCode, h0.codeKnown, h0.busyClean, h0.busyIffRunning,
    h0.runningFits, by intro hr'; simp [hr] at hr'⟩

theorem inv_accept {s : State} (h : Inv s) (hr : s.resetPhase = .out) {i : Instr} {bin : List CWord}
    (hv : validate i s = none) (hd : decode (encode i) = .ok i)
    (hw : readWindow s.mem s.base.toNat (windowWords i) = some bin) :
    Inv (accept (captureLatch i s) (imageOf s.params i (captureLatch i s) bin) s) where
  memSorted := h.memSorted
  memInRam := h.memInRam
  memWhole := h.memWhole
  errIffCode := by simp
  codeKnown := by simp
  busyClean := by simp
  busyIffRunning := rfl
  runningFits := by
    intro bout left hp
    simp only [accept_phase, Phase.running.injEq] at hp
    obtain ⟨hl, hf⟩ := image_of_valid hv hw
    refine ⟨i, ?_, ?_, ?_⟩
    · rw [accept_latch, commandWord_captureLatch, hd]
    · rw [← hp.1, hl]
    · intro hpos
      exact hf (by rintro rfl; simp [windowWords] at hpos)
  resetHeld := by intro hr'; simp [hr] at hr'

theorem inv_ramWrite {s : State} (h : Inv s) (hr : s.resetPhase = .out) {x a : Nat} (w : Word)
    (hg : regionOf s.params x = .ram a) (hx : x % 4 = 0) :
    Inv (ackWrite { s with mem := writeBytes s.mem a (wordBytes w) }) := by
  obtain ⟨h4, hlo, hhi⟩ := ram_write_inside hg hx
  refine inv_bus (s := { s with mem := writeBytes s.mem a (wordBytes w) }) ⟨wf_writeBytes h.memSorted _ _, ?_,
    memWhole_writeBytes h.memWhole h4 (by simp), h.errIffCode, h.codeKnown, h.busyClean, h.busyIffRunning, h.runningFits,
    by intro hr'; simp [hr] at hr'⟩ _
  intro c hc
  rcases mem_writeBytes hc with ⟨h1, h2⟩ | ⟨h1, _⟩
  · simp only [wordBytes_length] at h2; exact ⟨by omega, by simp only; omega⟩
  · exact h.memInRam c h1

theorem inv_complete {s : State} (h : Inv s) (hr : s.resetPhase = .out) : Inv (complete s) := by
  cases hp : s.phase with
  | idle => rw [complete_idle hp]; exact h
  | running bout left =>
    have hb : s.status.busy = true := by rw [h.busyIffRunning, hp]; rfl
    have hc := h.busyClean hb
    obtain ⟨i, _, hlen, hfit⟩ := h.runningFits bout left hp
    rw [complete_running hp]
    refine ⟨wf_writeWindow h.memSorted _ _, ?_, ?_, h.errIffCode, h.codeKnown, by simp, rfl, ?_, ?_⟩
    · intro c hc'
      rcases mem_writeBytes hc' with ⟨h1, h2⟩ | ⟨h1, _⟩
      · rw [flatMap_sampleBytes_length] at h2
        have := hfit (by omega)
        simp only [sampleAddr] at h1 h2
        exact ⟨by omega, by simp only; omega⟩
      · exact h.memInRam c h1
    · refine memWhole_writeBytes h.memWhole ?_ ?_
      · have : ramBase % 4 = 0 := by decide
        simp only [sampleAddr]; omega
      · rw [flatMap_sampleBytes_length]; omega
    · intro bout left h'; simp at h'
    · intro hr'; simp [hr] at hr'

theorem inv_clockEdge {s : State} (h : Inv s) : Inv (clockEdge s) := by
  rcases clockEdge_cases s with e | ⟨_, e⟩ | ⟨bout, left, hr, hp, _, e⟩ | ⟨bout, left, hr, hp, _, e⟩
  · rw [e]; exact h
  · rw [e]; exact inv_leaveReset h
  · rw [e]
    refine ⟨h.memSorted, h.memInRam, h.memWhole, h.errIffCode, h.codeKnown, h.busyClean, ?_, ?_, by simp [hr]⟩
    · rw [h.busyIffRunning, hp]; rfl
    · intro bout' left' h'
      simp only [Phase.running.injEq] at h'
      exact h'.1 ▸ h.runningFits bout left hp
  · rw [e]; exact inv_complete h hr

end Sys2Proof
end

