-- ==== Sys2Proof/Laws/PerInstr.lean ====
section
/-! SUPPORT. Statements made per instruction: the word of each command matches its row of the opcode table (30_encoding.md
R103) and its size field is its size exponent (R101). -/

namespace Sys2Proof.Laws.OpcodeRow

open Sys2Proof

/-- The encoding of `i` matches `i`'s row of R103, carries `i`'s size exponent in L, and has RSV = 0. -/
def Statement (i : Instr) : Prop :=
  rowMatches (encode i) (rowOf i) = true ∧ (sizeField (encode i)).toNat = i.sizeExp ∧ reservedField (encode i) = 0

theorem nop : Statement .nop := by simp [Statement]; decide

theorem bitrev (l : Nibble) : Statement (.bitrev l) :=
  ⟨by revert l; decide, sizeField_encode_toNat _, by simp [encode]⟩

theorem stage (l st : Nibble) : Statement (.stage l st) :=
  ⟨by revert l st; decide, sizeField_encode_toNat _, by simp [encode]⟩

theorem bfly (l : Nibble) : Statement (.bfly l) :=
  ⟨by revert l; decide, sizeField_encode_toNat _, by simp [encode]⟩

theorem cfft (l : Nibble) : Statement (.cfft l) :=
  ⟨by revert l; decide, sizeField_encode_toNat _, by simp [encode]⟩

theorem rpost (l : Nibble) : Statement (.rpost l) :=
  ⟨by revert l; decide, sizeField_encode_toNat _, by simp [encode]⟩

theorem rfft (l : Nibble) : Statement (.rfft l) :=
  ⟨by revert l; decide, sizeField_encode_toNat _, by simp [encode]⟩

end Sys2Proof.Laws.OpcodeRow
end

