-- ==== Sys2Proof/Laws/Rounding.lean ====
section
/-! SUPPORT. The rounding of Machine/Binary32.lean is RN32 (41_datapath.md R152): a word whose fields say n steps of 2^q is the
nearest binary32 value to every real within half a step. -/

namespace Sys2Proof

open Sys2Proof.Machine

/-! ### Fields of a packed word -/

theorem packSign_toNat {neg : Bool} {m : Nat} (h : m < 2 ^ 31) :
    (packSign neg m).toNat = (if neg then 2 ^ 31 else 0) + m := by
  rw [packSign, BitVec.toNat_ofNat, Nat.mod_eq_of_lt]
  cases neg <;> (simp; omega)

theorem signBit_packSign {neg : Bool} {m : Nat} (h : m < 2 ^ 31) : signBit (packSign neg m) = neg := by
  rw [signBit, ← BitVec.msb_eq_getLsbD_last (packSign neg m), BitVec.msb_eq_decide, packSign_toNat h]
  cases neg
  · simpa using h
  · simp

theorem fracField_eq (w : Word) : fracField w = w.toNat % 2 ^ 23 := by
  simp [fracField, BitVec.extractLsb'_toNat]

theorem expField_eq (w : Word) : expField w = w.toNat / 2 ^ 23 % 256 := by
  simp [expField, BitVec.extractLsb'_toNat, Nat.shiftRight_eq_div_pow]

theorem fracField_packSign {neg : Bool} {m : Nat} (h : m < 2 ^ 31) : fracField (packSign neg m) = m % 2 ^ 23 := by
  rw [fracField_eq, packSign_toNat h]
  cases neg
  · simp
  · simp; omega

theorem expField_packSign {neg : Bool} {m : Nat} (h : m < 2 ^ 31) : expField (packSign neg m) = m / 2 ^ 23 := by
  rw [expField_eq, packSign_toNat h]
  cases neg <;> (simp; omega)

/-- q·2^23 + n steps: the magnitude is n·2^q, also when n carries to 2^24. -/
theorem magnitude_steps {neg : Bool} {q n : Nat} (h1 : q = 0 ∨ 2 ^ 23 ≤ n) (h2 : n ≤ 2 ^ 24)
    (h3 : q * 2 ^ 23 + n < 2 ^ 31) : magnitude (packSign neg (q * 2 ^ 23 + n)) = n * 2 ^ q := by
  rw [magnitude, expField_packSign h3, fracField_packSign h3]
  by_cases h4 : n = 2 ^ 24
  · subst h4
    have e1 : (q * 2 ^ 23 + 2 ^ 24) / 2 ^ 23 = q + 2 := by omega
    have e2 : (q * 2 ^ 23 + 2 ^ 24) % 2 ^ 23 = 0 := by omega
    rw [e1, e2, if_neg (by omega), show q + 2 - 1 = q + 1 by omega, pow_succ]
    ring
  · by_cases h5 : 2 ^ 23 ≤ n
    · have e1 : (q * 2 ^ 23 + n) / 2 ^ 23 = q + 1 := by omega
      have e2 : (q * 2 ^ 23 + n) % 2 ^ 23 = n - 2 ^ 23 := by omega
      rw [e1, e2, if_neg (by omega), show q + 1 - 1 = q by omega, show 2 ^ 23 + (n - 2 ^ 23) = n by omega]
    · have hq : q = 0 := by omega
      subst hq
      have e1 : (0 * 2 ^ 23 + n) / 2 ^ 23 = 0 := by omega
      have e2 : (0 * 2 ^ 23 + n) % 2 ^ 23 = n := by omega
      rw [e1, e2]; simp

/-- A finite magnitude is a multiple of 2^q or lies below 2^(23+q). -/
theorem magnitude_multiple_or_small (w : Word) (q : Nat) :
    (∃ j : Nat, magnitude w = j * 2 ^ q) ∨ (0 < q ∧ magnitude w < 2 ^ (23 + q)) := by
  have hf : fracField w < 2 ^ 23 := by rw [fracField_eq]; exact Nat.mod_lt _ (by norm_num)
  rcases Nat.eq_zero_or_pos q with rfl | hq
  · exact Or.inl ⟨magnitude w, by simp⟩
  · rw [magnitude]
    split
    · refine Or.inr ⟨hq, lt_of_lt_of_le hf ?_⟩
      exact Nat.pow_le_pow_right (by norm_num) (by omega)
    · rename_i he
      by_cases h : q ≤ expField w - 1
      · refine Or.inl ⟨(2 ^ 23 + fracField w) * 2 ^ (expField w - 1 - q), ?_⟩
        rw [mul_assoc, ← pow_add]; congr 2; omega
      · refine Or.inr ⟨hq, ?_⟩
        calc (2 ^ 23 + fracField w) * 2 ^ (expField w - 1) < 2 ^ 24 * 2 ^ (expField w - 1) := by
              refine Nat.mul_lt_mul_of_pos_right (by omega) (by positivity)
          _ = 2 ^ (24 + (expField w - 1)) := by rw [pow_add]
          _ ≤ 2 ^ (23 + q) := Nat.pow_le_pow_right (by norm_num) (by omega)

/-! ### Values -/

/-- The sign of a word as a factor. -/
def signFactor (neg : Bool) : ℝ := if neg then -1 else 1

theorem signFactor_mul_self (neg : Bool) : signFactor neg * signFactor neg = 1 := by cases neg <;> norm_num [signFactor]

theorem abs_signFactor (neg : Bool) : |signFactor neg| = 1 := by cases neg <;> norm_num [signFactor]

theorem value32_eq (w : Word) : ((value32 w : ℚ) : ℝ) = signFactor (signBit w) * (magnitude w / 2 ^ 149) := by
  unfold value32 exactValue signFactor
  cases signBit w <;> push_cast <;> simp; ring

/-- Distances from ±u units of 2^-149 are distances of integers from u, up to the unit. -/
theorem abs_sub_value32 (neg : Bool) (u : ℝ) (w : Word) :
    |signFactor neg * (u / 2 ^ 149) - (value32 w : ℝ)| =
      |u - signFactor neg * signFactor (signBit w) * magnitude w| / 2 ^ 149 := by
  rw [value32_eq]
  have : signFactor neg * (u / 2 ^ 149) - signFactor (signBit w) * (magnitude w / 2 ^ 149) =
      signFactor neg * ((u - signFactor neg * signFactor (signBit w) * magnitude w) / 2 ^ 149) := by
    have h := signFactor_mul_self neg
    field_simp
    linear_combination (signFactor (signBit w) * magnitude w) * h
  rw [this, abs_mul, abs_signFactor, one_mul, abs_div]
  norm_num

/-! ### Nearest -/

/-- Among multiples of a step, one within half a step is nearest; another as near is half a step away. -/
theorem nearest_multiple {u d : ℝ} (hd : 0 < d) {n j : ℤ} (h : |u - n * d| ≤ d / 2) (hne : j ≠ n) :
    d / 2 ≤ |u - j * d| := by
  have h1 : (1 : ℝ) ≤ |((j - n : ℤ) : ℝ)| := by
    rw [← Int.cast_abs]; exact_mod_cast Int.one_le_abs (sub_ne_zero.2 hne)
  have h2 : |((j - n : ℤ) : ℝ) * d| = |((j - n : ℤ) : ℝ)| * d := by rw [abs_mul, abs_of_pos hd]
  have h3 : |((j - n : ℤ) : ℝ) * d| ≤ |u - n * d| + |u - j * d| := by
    have : ((j - n : ℤ) : ℝ) * d = (u - n * d) - (u - j * d) := by push_cast; ring
    rw [this]; exact abs_sub _ _
  nlinarith

/-- The numbers that a finite word can stand for, seen from the step 2^q around u ≥ 2^(23+q): each is a multiple of the step or
lies below 2^(23+q). -/
theorem nearest_step {u : ℝ} {q n : Nat} (hq : q = 0 ∨ 2 ^ (23 + q) ≤ u) (hd : |u - n * 2 ^ q| ≤ 2 ^ q / 2)
    (neg : Bool) (y : Word) :
    (∃ j : ℤ, signFactor neg * signFactor (signBit y) * magnitude y = j * 2 ^ q) ∨
      |u - n * 2 ^ q| < |u - signFactor neg * signFactor (signBit y) * magnitude y| := by
  have hs : signFactor neg * signFactor (signBit y) = 1 ∨ signFactor neg * signFactor (signBit y) = -1 := by
    cases neg <;> cases signBit y <;> norm_num [signFactor]
  rcases magnitude_multiple_or_small y q with ⟨j, hj⟩ | ⟨hpos, hsmall⟩
  · left
    rcases hs with hs | hs
    · exact ⟨j, by rw [hs, hj]; push_cast; ring⟩
    · exact ⟨-j, by rw [hs, hj]; push_cast; ring⟩
  · right
    have hu : (2 : ℝ) ^ (23 + q) ≤ u := by rcases hq with rfl | h; exact absurd hpos (lt_irrefl 0); exact h
    have hlt : (magnitude y : ℝ) < 2 ^ (23 + q) := by exact_mod_cast hsmall
    have hm : (0 : ℝ) ≤ magnitude y := by positivity
    have hx : signFactor neg * signFactor (signBit y) * magnitude y < 2 ^ (23 + q) := by
      rcases hs with hs | hs <;> rw [hs] <;> linarith
    have h23 : |u - n * 2 ^ q| ≤ |u - 2 ^ (23 + q)| := by
      rw [pow_add]
      by_cases hn : (8388608 : ℤ) = (n : ℤ)
      · have : (n : ℝ) = 8388608 := by exact_mod_cast hn.symm
        rw [this]; norm_num
      · have h0 : |u - ((n : ℤ) : ℝ) * 2 ^ q| ≤ 2 ^ q / 2 := by simpa using hd
        have := nearest_multiple (by positivity) h0 hn
        norm_num at this ⊢; linarith
    calc |u - n * 2 ^ q| ≤ |u - 2 ^ (23 + q)| := h23
      _ = u - 2 ^ (23 + q) := abs_of_nonneg (by linarith)
      _ < u - signFactor neg * signFactor (signBit y) * magnitude y := by linarith
      _ ≤ _ := le_abs_self _

/-- A word whose fields say n steps of 2^q is RN32 of every positive magnitude within half a step of it, ties to even n. -/
theorem roundsTo_of_steps (neg : Bool) {u : ℝ} {q n : Nat} (hu : 0 < u) (hq : q = 0 ∨ 2 ^ (23 + q) ≤ u)
    (hn : q = 0 ∨ 2 ^ 23 ≤ n) (hn2 : n ≤ 2 ^ 24) (hfin : q * 2 ^ 23 + n < 0x7F800000)
    (hd : |u - n * 2 ^ q| ≤ 2 ^ q / 2) (htie : |u - n * 2 ^ q| = 2 ^ q / 2 → n % 2 = 0) :
    RoundsTo (signFactor neg * (u / 2 ^ 149)) (packSign neg (q * 2 ^ 23 + n)) := by
  have hpack : q * 2 ^ 23 + n < 2 ^ 31 := by omega
  have hmag := magnitude_steps (neg := neg) hn hn2 hpack
  have hsign := signBit_packSign (neg := neg) hpack
  have hself : |signFactor neg * (u / 2 ^ 149) - (value32 (packSign neg (q * 2 ^ 23 + n)) : ℝ)| =
      |u - n * 2 ^ q| / 2 ^ 149 := by
    rw [abs_sub_value32, hsign, hmag, signFactor_mul_self]; push_cast; ring_nf
  have habs : |signFactor neg * (u / 2 ^ 149)| = u / 2 ^ 149 := by
    rw [abs_mul, abs_signFactor, one_mul, abs_of_pos (by positivity)]
  have hstep : (0 : ℝ) < 2 ^ q := by positivity
  have hubound : u ≤ n * 2 ^ q + 2 ^ q / 2 := by have := (abs_le.1 hd).2; linarith
  have hover : |signFactor neg * (u / 2 ^ 149)| < overflowBound := by
    rw [habs, overflowBound, div_lt_iff₀ (by positivity)]
    have hlt : u < 2 ^ 253 * (2 ^ 24 - 1 / 2) := by
      rcases Nat.lt_or_ge q 253 with h | h
      · have hnr : (n : ℝ) ≤ 2 ^ 24 := by exact_mod_cast hn2
        have hqr : (2 : ℝ) ^ q ≤ 2 ^ 252 := pow_le_pow_right₀ (by norm_num) (by omega)
        calc u ≤ n * 2 ^ q + 2 ^ q / 2 := hubound
          _ ≤ 2 ^ 24 * 2 ^ 252 + 2 ^ 252 / 2 := by nlinarith
          _ < 2 ^ 253 * (2 ^ 24 - 1 / 2) := by norm_num
      · have h253 : q = 253 := by omega
        subst h253
        have hnlt : n ≤ 2 ^ 24 - 1 := by omega
        have hnr : (n : ℝ) ≤ 2 ^ 24 - 1 := by
          have : (n : ℝ) ≤ ((2 ^ 24 - 1 : ℕ) : ℝ) := by exact_mod_cast hnlt
          norm_num at this ⊢; linarith
        rcases lt_or_eq_of_le hd with h' | h'
        · have := (abs_lt.1 h').2
          nlinarith
        · have heven := htie h'
          have hn3 : n ≤ 2 ^ 24 - 2 := by omega
          have hnr : (n : ℝ) ≤ 2 ^ 24 - 2 := by
            have : (n : ℝ) ≤ ((2 ^ 24 - 2 : ℕ) : ℝ) := by exact_mod_cast hn3
            norm_num at this ⊢; linarith
          nlinarith
    calc u < 2 ^ 253 * (2 ^ 24 - 1 / 2) := hlt
      _ = (2 ^ 128 - 2 ^ 103) * 2 ^ 149 := by norm_num
  refine ⟨fun h => absurd h (not_le.2 hover), fun _ => ?_, fun _ y hy => ?_, fun _ y hy hne heq => ?_, fun _ => ?_⟩
  · rw [finite32, expField_packSign hpack]; simp; omega
  · rw [hself, abs_sub_value32]
    refine div_le_div_of_nonneg_right ?_ (by positivity)
    rcases nearest_step hq hd neg y with ⟨j, hj⟩ | h
    · rw [hj]
      by_cases hjn : j = (n : ℤ)
      · rw [hjn]; push_cast; rfl
      · have := nearest_multiple hstep (by simpa using hd : |u - ((n : ℤ) : ℝ) * 2 ^ q| ≤ 2 ^ q / 2) hjn
        linarith
    · exact h.le
  · rw [hself, abs_sub_value32] at heq
    have heq' : |u - signFactor neg * signFactor (signBit y) * magnitude y| = |u - n * 2 ^ q| := by
      have h149 : (0 : ℝ) < 2 ^ 149 := by positivity
      rwa [div_left_inj' h149.ne'] at heq
    rcases nearest_step hq hd neg y with ⟨j, hj⟩ | h
    · have hjn : j ≠ (n : ℤ) := by
        rintro rfl
        refine hne ?_
        have hcast : ((value32 y : ℚ) : ℝ) = ((value32 (packSign neg (q * 2 ^ 23 + n)) : ℚ) : ℝ) := by
          rw [value32_eq, value32_eq, hsign, hmag]
          have h1 := signFactor_mul_self neg
          push_cast at hj ⊢
          field_simp
          linear_combination signFactor neg * hj - (signFactor (signBit y) * magnitude y) * h1
        exact_mod_cast hcast
      have h1 := nearest_multiple hstep (by simpa using hd : |u - ((n : ℤ) : ℝ) * 2 ^ q| ≤ 2 ^ q / 2) hjn
      rw [hj] at heq'
      have heven := htie (by linarith)
      rw [fracField_packSign hpack]
      omega
    · rw [heq'] at h; exact absurd h (lt_irrefl _)
  · rw [hsign]
    cases neg
    · simp [signFactor]; positivity
    · simp [signFactor]; positivity

/-! ### The rounding of the machine -/

/-- roundEven is within half a step, and on a tie even. -/
theorem roundEven_spec (m t : Nat) :
    |(m : ℝ) / 2 ^ t - roundEven m t| ≤ 1 / 2 ∧ (|(m : ℝ) / 2 ^ t - roundEven m t| = 1 / 2 → roundEven m t % 2 = 0) ∧
      m / 2 ^ t ≤ roundEven m t ∧ roundEven m t ≤ m / 2 ^ t + 1 := by
  have hd : 0 < 2 ^ t := by positivity
  have hdr : (0 : ℝ) < 2 ^ t := by positivity
  have hdiv : (m : ℝ) = 2 ^ t * (m / 2 ^ t : ℕ) + (m % 2 ^ t : ℕ) := by exact_mod_cast (Nat.div_add_mod m (2 ^ t)).symm
  have hlt : m % 2 ^ t < 2 ^ t := Nat.mod_lt _ hd
  have hltr : ((m % 2 ^ t : ℕ) : ℝ) < 2 ^ t := by exact_mod_cast hlt
  have hq : (m : ℝ) / 2 ^ t = (m / 2 ^ t : ℕ) + ((m % 2 ^ t : ℕ) : ℝ) / 2 ^ t := by
    rw [eq_div_of_mul_eq hdr.ne' (by rw [hdiv]; field_simp : ((m / 2 ^ t : ℕ) + ((m % 2 ^ t : ℕ) : ℝ) / 2 ^ t) * 2 ^ t = (m : ℝ))]
  have hr0 : 0 ≤ ((m % 2 ^ t : ℕ) : ℝ) / 2 ^ t := by positivity
  have hr1 : ((m % 2 ^ t : ℕ) : ℝ) / 2 ^ t < 1 := by rwa [div_lt_one hdr]
  unfold roundEven
  split
  · rename_i h
    have h2 : 2 ^ t ≤ 2 * (m % 2 ^ t) := by omega
    have h2r : (1 : ℝ) / 2 ≤ ((m % 2 ^ t : ℕ) : ℝ) / 2 ^ t := by
      rw [le_div_iff₀ hdr]
      have : ((2 ^ t : ℕ) : ℝ) ≤ ((2 * (m % 2 ^ t) : ℕ) : ℝ) := by exact_mod_cast h2
      push_cast at this ⊢; linarith
    have habs : |(m : ℝ) / 2 ^ t - ((m / 2 ^ t + 1 : ℕ) : ℝ)| = 1 - ((m % 2 ^ t : ℕ) : ℝ) / 2 ^ t := by
      rw [hq, abs_of_nonpos] <;> push_cast at hr1 ⊢ <;> linarith
    refine ⟨by rw [habs]; linarith, fun he => ?_, by omega, by omega⟩
    rw [habs] at he
    have hhalf : ((m % 2 ^ t : ℕ) : ℝ) / 2 ^ t = 1 / 2 := by linarith
    rw [div_eq_iff hdr.ne'] at hhalf
    have : 2 * (m % 2 ^ t) = 2 ^ t := by
      have : (2 : ℝ) * ((m % 2 ^ t : ℕ) : ℝ) = 2 ^ t := by linarith
      exact_mod_cast this
    omega
  · rename_i h
    have h2 : 2 * (m % 2 ^ t) ≤ 2 ^ t := by omega
    have h2r : ((m % 2 ^ t : ℕ) : ℝ) / 2 ^ t ≤ 1 / 2 := by
      rw [div_le_iff₀ hdr]
      have : ((2 * (m % 2 ^ t) : ℕ) : ℝ) ≤ ((2 ^ t : ℕ) : ℝ) := by exact_mod_cast h2
      push_cast at this ⊢; linarith
    have habs : |(m : ℝ) / 2 ^ t - ((m / 2 ^ t : ℕ) : ℝ)| = ((m % 2 ^ t : ℕ) : ℝ) / 2 ^ t := by
      rw [hq, add_sub_cancel_left, abs_of_nonneg hr0]
    refine ⟨by rw [habs]; linarith, fun he => ?_, by omega, by omega⟩
    rw [habs, div_eq_iff hdr.ne'] at he
    have : 2 * (m % 2 ^ t) = 2 ^ t := by
      have : (2 : ℝ) * ((m % 2 ^ t : ℕ) : ℝ) = 2 ^ t := by linarith
      exact_mod_cast this
    omega

/-- The step that quantumExp picks for a magnitude of m / 2^k units: 24 significant bits, or the unit itself. -/
theorem quantumExp_spec {m k : Nat} (hm : 0 < m) :
    (quantumExp m k = 0 ∨ (2 : ℝ) ^ (23 + quantumExp m k) ≤ (m : ℝ) / 2 ^ k) ∧
      (quantumExp m k = 0 ∨ 2 ^ 23 ≤ m / 2 ^ (k + quantumExp m k)) ∧ m / 2 ^ (k + quantumExp m k) < 2 ^ 24 := by
  have hlog : 2 ^ Nat.log2 m ≤ m := Nat.log2_self_le (by omega)
  have hlog2 : m < 2 ^ (Nat.log2 m + 1) := Nat.lt_log2_self
  have key : quantumExp m k = 0 ∨ Nat.log2 m = k + 23 + quantumExp m k := by unfold quantumExp; omega
  refine ⟨?_, ?_, ?_⟩
  · rcases key with h | h
    · exact Or.inl h
    · right
      rw [le_div_iff₀ (by positivity), ← pow_add]
      have : 2 ^ (23 + quantumExp m k + k) ≤ m := by
        rw [show 23 + quantumExp m k + k = Nat.log2 m by omega]; exact hlog
      exact_mod_cast this
  · rcases key with h | h
    · exact Or.inl h
    · right
      rw [Nat.le_div_iff_mul_le (by positivity), ← pow_add, show 23 + (k + quantumExp m k) = Nat.log2 m by omega]
      exact hlog
  · rw [Nat.div_lt_iff_lt_mul (by positivity), ← pow_add]
    refine lt_of_lt_of_le hlog2 (Nat.pow_le_pow_right (by norm_num) ?_)
    unfold quantumExp; omega

/-- rn32 rounds the exact value ±(m / 2^k)·2^-149 as R152 says. -/
theorem rn32_roundsTo (neg : Bool) {m : Nat} (hm : 0 < m) (k : Nat) :
    RoundsTo (signFactor neg * ((m : ℝ) / 2 ^ k / 2 ^ 149)) (rn32 neg m k) := by
  obtain ⟨hq, hfl, hfl2⟩ := quantumExp_spec (k := k) hm
  obtain ⟨hr1, hr2, hr3, hr4⟩ := roundEven_spec m (k + quantumExp m k)
  have hu : (0 : ℝ) < (m : ℝ) / 2 ^ k := by positivity
  rw [rn32, roundMagnitude]
  generalize hn : roundEven m (k + quantumExp m k) = n at *
  generalize quantumExp m k = q at *
  have hstep : (0 : ℝ) < 2 ^ q := by positivity
  have hscale : (m : ℝ) / 2 ^ k - n * 2 ^ q = 2 ^ q * ((m : ℝ) / 2 ^ (k + q) - n) := by rw [pow_add]; field_simp
  have hdist : |(m : ℝ) / 2 ^ k - n * 2 ^ q| = 2 ^ q * |(m : ℝ) / 2 ^ (k + q) - n| := by
    rw [hscale, abs_mul, abs_of_pos hstep]
  have hd : |(m : ℝ) / 2 ^ k - n * 2 ^ q| ≤ 2 ^ q / 2 := by rw [hdist]; nlinarith
  have hn2 : n ≤ 2 ^ 24 := by omega
  have hn1 : q = 0 ∨ 2 ^ 23 ≤ n := by rcases hfl with h | h; exact Or.inl h; exact Or.inr (h.trans hr3)
  rcases Nat.lt_or_ge (q * 2 ^ 23 + n) 0x7F800000 with hfin | hinf
  · rw [min_eq_left hfin.le]
    refine roundsTo_of_steps neg hu hq hn1 hn2 hfin hd fun he => hr2 ?_
    rw [hdist] at he
    have := mul_left_cancel₀ hstep.ne' (he.trans (by ring : (2 : ℝ) ^ q / 2 = 2 ^ q * (1 / 2)))
    exact this
  · rw [min_eq_right hinf]
    have hbig : (2 : ℝ) ^ 253 * (2 ^ 24 - 1 / 2) ≤ (m : ℝ) / 2 ^ k := by
      rcases Nat.lt_or_ge q 254 with h | h
      · have h253 : q = 253 := by omega
        have h24 : n = 2 ^ 24 := by omega
        subst h253
        subst h24
        have := (abs_le.1 hd).1
        push_cast at this
        linarith
      · have h1 := hq.resolve_left (by omega)
        have h2 : (2 : ℝ) ^ 277 ≤ 2 ^ (23 + q) := pow_le_pow_right₀ (by norm_num) (by omega)
        calc (2 : ℝ) ^ 253 * (2 ^ 24 - 1 / 2) ≤ 2 ^ 253 * 2 ^ 24 := by
              refine mul_le_mul_of_nonneg_left ?_ (by positivity); norm_num
          _ = 2 ^ 277 := by rw [← pow_add]
          _ ≤ _ := h2.trans h1
    have hover : overflowBound ≤ |signFactor neg * ((m : ℝ) / 2 ^ k / 2 ^ 149)| := by
      rw [abs_mul, abs_signFactor, one_mul, abs_of_pos (by positivity), overflowBound, le_div_iff₀ (by positivity)]
      calc (2 ^ 128 - 2 ^ 103) * 2 ^ 149 = (2 : ℝ) ^ 253 * (2 ^ 24 - 1 / 2) := by norm_num
        _ ≤ _ := hbig
    have hneg : decide (signFactor neg * ((m : ℝ) / 2 ^ k / 2 ^ 149) < 0) = neg := by
      have hpos : (0 : ℝ) < (m : ℝ) / 2 ^ k / 2 ^ 149 := by positivity
      cases neg
      · simpa [signFactor] using hpos.le
      · simpa [signFactor] using hm
    refine ⟨fun _ => by rw [hneg]; rfl, fun h => absurd hover (not_le.2 h), fun h => absurd hover (not_le.2 h),
      fun h => absurd hover (not_le.2 h), fun _ => ?_⟩
    rw [hneg, signBit_packSign (by norm_num)]

end Sys2Proof
end

