-- ==== Sys2Proof/Laws/Rom.lean ====
section
/-! SUPPORT. The twiddle ROM's quadrant is correctly rounded (40_tables.md R131): the nested series is the Taylor polynomial, the
polynomial is within 2^-60 of the cosine or sine, and no entry lies that close to a rounding boundary. -/

namespace Sys2Proof

open Sys2Proof.Machine

/-! ### The nested series is the Taylor polynomial -/

/-- The real number the nested series stands for. -/
noncomputable def seriesReal (x : ℝ) : Nat → Nat → ℝ
  | 0, _ => 1
  | n + 1, c => 1 - x ^ 2 / ((c + 1) * (c + 2)) * seriesReal x n (c + 2)

theorem nestedSeries_spec {num den : Nat} (hd : 0 < den) (h : num ≤ den) (n c : Nat) :
    0 < (nestedSeries num den n c).2 ∧ (nestedSeries num den n c).1 ≤ (nestedSeries num den n c).2 ∧
      ((nestedSeries num den n c).1 : ℝ) =
        seriesReal ((num : ℝ) / den) n c * (nestedSeries num den n c).2 := by
  induction n generalizing c with
  | zero => simp [nestedSeries, seriesReal]
  | succ n ih =>
    obtain ⟨h1, h2, h3⟩ := ih (c + 2)
    simp only [nestedSeries]
    generalize (nestedSeries num den n (c + 2)).1 = p at *
    generalize (nestedSeries num den n (c + 2)).2 = q at *
    have hle : num * num * p ≤ (c + 1) * (c + 2) * (den * den) * q := by
      calc num * num * p ≤ den * den * q := Nat.mul_le_mul (Nat.mul_le_mul h h) h2
        _ = 1 * (den * den) * q := by ring
        _ ≤ (c + 1) * (c + 2) * (den * den) * q := by gcongr; nlinarith
    refine ⟨by positivity, Nat.sub_le _ _, ?_⟩
    rw [Nat.cast_sub hle, seriesReal]
    have hdr : (den : ℝ) ≠ 0 := by positivity
    push_cast
    rw [h3]
    field_simp

theorem seriesReal_eq (x : ℝ) (n c : Nat) :
    seriesReal x n c = ∑ i ∈ Finset.range (n + 1), (-1) ^ i * (x ^ (2 * i) * (c.factorial / (c + 2 * i).factorial)) := by
  induction n generalizing c with
  | zero =>
    have : (c.factorial : ℝ) ≠ 0 := by positivity
    simp [seriesReal, this]
  | succ n ih =>
    rw [seriesReal, ih, Finset.sum_range_succ' _ (n + 1), Finset.mul_sum, sub_eq_add_neg, ← Finset.sum_neg_distrib, add_comm]
    congr 1
    · refine Finset.sum_congr rfl fun i _ => ?_
      have h1 : ((c + 2).factorial : ℝ) = (c + 1) * (c + 2) * c.factorial := by
        rw [Nat.factorial_succ, Nat.factorial_succ]; push_cast; ring
      have h2 : c + 2 * (i + 1) = c + 2 + 2 * i := by ring
      rw [h1, h2]
      field_simp
      ring
    · have : (c.factorial : ℝ) ≠ 0 := by positivity
      simp [this]

/-! ### Taylor's remainder -/

theorem antitone_of_step {f : ℕ → ℝ} (h : ∀ n, f (n + 1) ≤ f n) : Antitone f := antitone_nat_of_succ_le h

/-- For 0 ≤ x ≤ 1, ten levels of the series are within 2^-61 of the cosine. -/
theorem seriesReal_cos {x : ℝ} (h0 : 0 ≤ x) (h1 : x ≤ 1) : |seriesReal x 10 0 - Real.cos x| ≤ 1 / 2 ^ 61 := by
  have hsum : seriesReal x 10 0 = ∑ i ∈ Finset.range (2 * 5 + 1), (-1) ^ i * (x ^ (2 * i) / (2 * i).factorial) := by
    rw [seriesReal_eq]
    refine Finset.sum_congr rfl fun i _ => ?_
    simp [div_eq_mul_inv]
  have hlim : Filter.Tendsto (fun n => ∑ i ∈ Finset.range n, (-1) ^ i * (x ^ (2 * i) / (2 * i).factorial))
      Filter.atTop (nhds (Real.cos x)) := by
    have := (Real.hasSum_cos x).tendsto_sum_nat
    simpa [mul_div_assoc] using this
  have hanti : Antitone fun i : ℕ => x ^ (2 * i) / (2 * i).factorial := by
    refine antitone_of_step fun n => ?_
    have : x ^ (2 * (n + 1)) ≤ x ^ (2 * n) := pow_le_pow_of_le_one h0 h1 (by omega)
    gcongr
    omega
  have hup := hanti.tendsto_le_alternating_series hlim 5
  have hlo := hanti.alternating_series_le_tendsto hlim 5
  rw [hsum]
  rw [Finset.sum_range_succ] at hup ⊢
  have hx : x ^ (2 * (2 * 5)) ≤ 1 := pow_le_one₀ h0 h1
  have hx0 : 0 ≤ x ^ (2 * (2 * 5)) := pow_nonneg h0 _
  have hf : x ^ (2 * (2 * 5)) / ((2 * (2 * 5)).factorial : ℝ) ≤ 1 / 2 ^ 61 := by
    have : ((2 * (2 * 5)).factorial : ℝ) = 2432902008176640000 := by norm_num [Nat.factorial]
    rw [this, div_le_div_iff₀ (by norm_num) (by norm_num)]
    nlinarith
  rw [abs_le]
  constructor <;> norm_num at * <;> linarith

/-- For 0 ≤ x ≤ 1, x times ten levels of the series is within 2^-61 of the sine. -/
theorem seriesReal_sin {x : ℝ} (h0 : 0 ≤ x) (h1 : x ≤ 1) : |x * seriesReal x 10 1 - Real.sin x| ≤ 1 / 2 ^ 61 := by
  have hsum : x * seriesReal x 10 1 =
      ∑ i ∈ Finset.range (2 * 5 + 1), (-1) ^ i * (x ^ (2 * i + 1) / (2 * i + 1).factorial) := by
    rw [seriesReal_eq, Finset.mul_sum]
    refine Finset.sum_congr rfl fun i _ => ?_
    rw [show 1 + 2 * i = 2 * i + 1 by ring]
    simp [div_eq_mul_inv]
    ring
  have hlim : Filter.Tendsto (fun n => ∑ i ∈ Finset.range n, (-1) ^ i * (x ^ (2 * i + 1) / (2 * i + 1).factorial))
      Filter.atTop (nhds (Real.sin x)) := by
    have := (Real.hasSum_sin x).tendsto_sum_nat
    simpa [mul_div_assoc] using this
  have hanti : Antitone fun i : ℕ => x ^ (2 * i + 1) / (2 * i + 1).factorial := by
    refine antitone_of_step fun n => ?_
    have : x ^ (2 * (n + 1) + 1) ≤ x ^ (2 * n + 1) := pow_le_pow_of_le_one h0 h1 (by omega)
    gcongr
    omega
  have hup := hanti.tendsto_le_alternating_series hlim 5
  have hlo := hanti.alternating_series_le_tendsto hlim 5
  rw [hsum]
  rw [Finset.sum_range_succ] at hup ⊢
  have hx : x ^ (2 * (2 * 5) + 1) ≤ 1 := pow_le_one₀ h0 h1
  have hx0 : 0 ≤ x ^ (2 * (2 * 5) + 1) := pow_nonneg h0 _
  have hf : x ^ (2 * (2 * 5) + 1) / ((2 * (2 * 5) + 1).factorial : ℝ) ≤ 1 / 2 ^ 61 := by
    have : ((2 * (2 * 5) + 1).factorial : ℝ) = 51090942171709440000 := by norm_num [Nat.factorial]
    rw [this, div_le_div_iff₀ (by norm_num) (by norm_num)]
    nlinarith
  rw [abs_le]
  constructor <;> norm_num at * <;> linarith

/-! ### The angle -/

/-- The angle 2π·i/4096 of an eighth of the circle, and how near the rational angle of the ROM is to it. -/
theorem angle_spec {i : Nat} (h : i ≤ 512) :
    piDigits * i ≤ angleDen ∧ |((piDigits * i : ℕ) : ℝ) / (angleDen : ℕ) - 2 * Real.pi * i / 4096| ≤ 1 / 2 ^ 62 := by
  have hir : (i : ℝ) ≤ 512 := by exact_mod_cast h
  have hi0 : (0 : ℝ) ≤ i := by positivity
  constructor
  · unfold piDigits angleDen; omega
  · have hlo := Real.pi_gt_d20
    have hup := Real.pi_lt_d20
    have hrw : ((piDigits * i : ℕ) : ℝ) / (angleDen : ℕ) - 2 * Real.pi * i / 4096 =
        (3.14159265358979323846 - Real.pi) * (i / 2048) := by
      unfold piDigits angleDen; push_cast; ring
    rw [hrw, abs_mul, abs_of_nonneg (by positivity : (0 : ℝ) ≤ i / 2048), abs_of_neg (by linarith)]
    have h3 : -(3.14159265358979323846 - Real.pi) ≤ 1 / 10 ^ 20 := by norm_num at *; linarith
    have h4 : (i : ℝ) / 2048 ≤ 1 / 4 := by linarith
    calc -(3.14159265358979323846 - Real.pi) * ((i : ℝ) / 2048) ≤ 1 / 10 ^ 20 * (1 / 4) := by
          refine mul_le_mul h3 h4 (by positivity) (by positivity)
      _ ≤ 1 / 2 ^ 62 := by norm_num

theorem cosFraction_spec {i : Nat} (h : i ≤ 512) : 0 < (cosFraction i).2 ∧
    |((cosFraction i).1 : ℝ) / (cosFraction i).2 - Real.cos (2 * Real.pi * i / 4096)| ≤ 1 / 2 ^ 60 := by
  obtain ⟨hle, hang⟩ := angle_spec h
  have hden : 0 < angleDen := by unfold angleDen; norm_num
  obtain ⟨h1, _, h3⟩ := nestedSeries_spec hden hle 10 0
  refine ⟨h1, ?_⟩
  have hx1 : ((piDigits * i : ℕ) : ℝ) / (angleDen : ℕ) ≤ 1 := by
    rw [div_le_one (by exact_mod_cast hden)]; exact_mod_cast hle
  have hval : ((cosFraction i).1 : ℝ) / (cosFraction i).2 =
      seriesReal (((piDigits * i : ℕ) : ℝ) / (angleDen : ℕ)) 10 0 := by
    have : ((cosFraction i).2 : ℝ) ≠ 0 := by exact_mod_cast h1.ne'
    rw [div_eq_iff this]; exact h3
  have hx0 : 0 ≤ ((piDigits * i : ℕ) : ℝ) / (angleDen : ℕ) := div_nonneg (Nat.cast_nonneg _) (Nat.cast_nonneg _)
  rw [hval]
  generalize ((piDigits * i : ℕ) : ℝ) / (angleDen : ℕ) = x at *
  have e1 := seriesReal_cos hx0 hx1
  have e2 := (Real.abs_cos_sub_cos_le x (2 * Real.pi * i / 4096)).trans hang
  calc _ ≤ _ := abs_sub_le _ (Real.cos x) _
    _ ≤ 1 / 2 ^ 61 + 1 / 2 ^ 62 := add_le_add e1 e2
    _ ≤ 1 / 2 ^ 60 := by norm_num

theorem sinFraction_spec {i : Nat} (h : i ≤ 512) : 0 < (sinFraction i).2 ∧
    |((sinFraction i).1 : ℝ) / (sinFraction i).2 - Real.sin (2 * Real.pi * i / 4096)| ≤ 1 / 2 ^ 60 := by
  obtain ⟨hle, hang⟩ := angle_spec h
  have hden : 0 < angleDen := by unfold angleDen; norm_num
  obtain ⟨h1, _, h3⟩ := nestedSeries_spec hden hle 10 1
  have hpos : 0 < (sinFraction i).2 := Nat.mul_pos hden h1
  refine ⟨hpos, ?_⟩
  have hx1 : ((piDigits * i : ℕ) : ℝ) / (angleDen : ℕ) ≤ 1 := by
    rw [div_le_one (by exact_mod_cast hden)]; exact_mod_cast hle
  have hval : ((sinFraction i).1 : ℝ) / (sinFraction i).2 = ((piDigits * i : ℕ) : ℝ) / (angleDen : ℕ) *
      seriesReal (((piDigits * i : ℕ) : ℝ) / (angleDen : ℕ)) 10 1 := by
    have h5 : ((nestedSeries (piDigits * i) angleDen 10 1).2 : ℝ) ≠ 0 := by exact_mod_cast h1.ne'
    have h6 : (angleDen : ℝ) ≠ 0 := by exact_mod_cast hden.ne'
    unfold sinFraction
    simp only []
    rw [Nat.cast_mul, Nat.cast_mul angleDen, h3]
    field_simp
  have hx0 : 0 ≤ ((piDigits * i : ℕ) : ℝ) / (angleDen : ℕ) := div_nonneg (Nat.cast_nonneg _) (Nat.cast_nonneg _)
  rw [hval]
  generalize ((piDigits * i : ℕ) : ℝ) / (angleDen : ℕ) = x at *
  have e1 := seriesReal_sin hx0 hx1
  have e2 := (Real.abs_sin_sub_sin_le x (2 * Real.pi * i / 4096)).trans hang
  calc _ ≤ _ := abs_sub_le _ (Real.sin x) _
    _ ≤ 1 / 2 ^ 61 + 1 / 2 ^ 62 := add_le_add e1 e2
    _ ≤ 1 / 2 ^ 60 := by norm_num

/-! ### No entry is near a rounding boundary -/

/-- With A = ⌊r·2^149⌋ and 2^90 to spare on both sides, r rounds as its n steps of 2^q say. -/
def clearOfBoundary (r : Nat × Nat) : Bool :=
  let a := r.1 * 2 ^ 149 / r.2
  let m := 2 * a + (if r.1 * 2 ^ 149 % r.2 = 0 then 0 else 1)
  let q := quantumExp m 1
  let n := roundEven m (1 + q)
  decide (2 ^ 90 + 2 ^ (23 + q) ≤ a) && decide (2 * (a + 2 ^ 90) < (2 * n + 1) * 2 ^ q) &&
    decide (2 * n * 2 ^ q + 2 * 2 ^ 90 < 2 * a + 2 ^ q) && decide (2 ^ 23 ≤ n) && decide (n ≤ 2 ^ 24) &&
    decide (q * 2 ^ 23 + n < 0x7F800000)

theorem roundFraction_roundsTo (neg : Bool) {r : Nat × Nat} {v : ℝ} (hr : 0 < r.2)
    (hv : |(r.1 : ℝ) / r.2 - v| ≤ 1 / 2 ^ 60) (hc : clearOfBoundary r = true) :
    RoundsTo (signFactor neg * v) (packSign neg (roundFraction r)) := by
  unfold clearOfBoundary at hc
  unfold roundFraction roundMagnitude
  simp only [Bool.and_eq_true, decide_eq_true_eq] at hc
  generalize (2 * (r.1 * 2 ^ 149 / r.2) + (if r.1 * 2 ^ 149 % r.2 = 0 then 0 else 1)) = m at *
  generalize hn : roundEven m (1 + quantumExp m 1) = n at *
  generalize quantumExp m 1 = q at *
  generalize ha : r.1 * 2 ^ 149 / r.2 = a at *
  obtain ⟨⟨⟨⟨⟨h1, h2⟩, h3⟩, h4⟩, h5⟩, h6⟩ := hc
  rw [min_eq_left (by omega)]
  have hrr : (0 : ℝ) < r.2 := by exact_mod_cast hr
  have hdm := Nat.div_add_mod (r.1 * 2 ^ 149) r.2
  have hlt := Nat.mod_lt (r.1 * 2 ^ 149) hr
  rw [ha] at hdm
  have hlo : (a : ℝ) ≤ (r.1 : ℝ) / r.2 * 2 ^ 149 := by
    rw [div_mul_eq_mul_div, le_div_iff₀ hrr]
    have : a * r.2 ≤ r.1 * 2 ^ 149 := by rw [mul_comm a]; omega
    exact_mod_cast this
  have hhi : (r.1 : ℝ) / r.2 * 2 ^ 149 ≤ a + 1 := by
    rw [div_mul_eq_mul_div, div_le_iff₀ hrr]
    have : r.1 * 2 ^ 149 ≤ (a + 1) * r.2 := by rw [add_mul, mul_comm a]; omega
    exact_mod_cast this
  have hv' := abs_le.1 hv
  have hulo : (a : ℝ) - 2 ^ 90 < v * 2 ^ 149 := by
    have : (r.1 : ℝ) / r.2 * 2 ^ 149 - v * 2 ^ 149 ≤ 2 ^ 89 := by
      have h := mul_le_mul_of_nonneg_right hv'.2 (by positivity : (0 : ℝ) ≤ 2 ^ 149)
      calc _ = ((r.1 : ℝ) / r.2 - v) * 2 ^ 149 := by ring
        _ ≤ _ := h
        _ = 2 ^ 89 := by norm_num
    have h90 : (2 : ℝ) ^ 89 < 2 ^ 90 := by norm_num
    linarith
  have huhi : v * 2 ^ 149 < a + 2 ^ 90 := by
    have : v * 2 ^ 149 - (r.1 : ℝ) / r.2 * 2 ^ 149 ≤ 2 ^ 89 := by
      have h := mul_le_mul_of_nonneg_right (neg_le.1 hv'.1) (by positivity : (0 : ℝ) ≤ 2 ^ 149)
      calc _ = -((r.1 : ℝ) / r.2 - v) * 2 ^ 149 := by ring
        _ ≤ _ := h
        _ = 2 ^ 89 := by norm_num
    have h90 : (2 : ℝ) ^ 89 + 1 < 2 ^ 90 := by norm_num
    linarith
  have c1 : (2 : ℝ) ^ 90 + 2 ^ (23 + q) ≤ a := by exact_mod_cast h1
  have c2 : 2 * ((a : ℝ) + 2 ^ 90) < (2 * n + 1) * 2 ^ q := by exact_mod_cast h2
  have c3 : 2 * (n : ℝ) * 2 ^ q + 2 * 2 ^ 90 < 2 * a + 2 ^ q := by exact_mod_cast h3
  have hpos : (0 : ℝ) < 2 ^ (23 + q) := by positivity
  have hstrict : |v * 2 ^ 149 - n * 2 ^ q| < 2 ^ q / 2 := by rw [abs_lt]; constructor <;> linarith
  have := roundsTo_of_steps neg (u := v * 2 ^ 149) (by linarith) (Or.inr (by linarith)) (Or.inr h4) h5 h6 hstrict.le
    (fun he => absurd he hstrict.ne)
  rwa [mul_div_assoc, div_self (by positivity), mul_one] at this

theorem cos_clear : ∀ i < 513, i = 0 ∨ clearOfBoundary (cosFraction i) = true := by decide +kernel

theorem sin_clear : ∀ i < 512, i = 0 ∨ clearOfBoundary (sinFraction i) = true := by decide +kernel

/-! ### The quadrant -/

theorem quadrantCos_zero : quadrantCos 0 = 0x3F800000 := by decide +kernel

/-- At the quarter point the entry is an exact zero. -/
theorem quadrantCos_quarter : quadrantCos 1024 = 0 := by decide +kernel

/-- Every other entry of the quadrant is the correctly rounded cosine. -/
theorem quadrantCos_roundsTo (neg : Bool) {j : Nat} (h : j < 1024) :
    RoundsTo (signFactor neg * Real.cos (2 * Real.pi * j / 4096)) (packSign neg (quadrantCos j)) := by
  rcases Nat.eq_zero_or_pos j with rfl | hpos
  · have h1 := rn32_roundsTo neg (m := 2 ^ 149) (by norm_num) 0
    have h2 : rn32 neg (2 ^ 149) 0 = packSign neg (quadrantCos 0) := by
      cases neg <;> decide +kernel
    have h3 : ((2 ^ 149 : ℕ) : ℝ) / 2 ^ 0 / 2 ^ 149 = 1 := by
      rw [pow_zero, div_one, Nat.cast_pow, Nat.cast_ofNat, div_self (by positivity)]
    rw [h2, h3] at h1
    simpa using h1
  · unfold quadrantCos
    split
    · rename_i hle
      obtain ⟨h1, h2⟩ := cosFraction_spec hle
      exact roundFraction_roundsTo neg h1 h2 ((cos_clear j (by omega)).resolve_left (by omega))
    · rename_i hgt
      obtain ⟨h1, h2⟩ := sinFraction_spec (i := 1024 - j) (by omega)
      have hcos : Real.cos (2 * Real.pi * j / 4096) = Real.sin (2 * Real.pi * (1024 - j : ℕ) / 4096) := by
        rw [← Real.sin_pi_div_two_sub, Nat.cast_sub h.le]
        congr 1
        push_cast
        ring
      rw [hcos]
      exact roundFraction_roundsTo neg h1 h2 ((sin_clear (1024 - j) (by omega)).resolve_left (by omega))

end Sys2Proof
end

