-- ==== Sys2Proof/Tests/Slice0.lean ====
section
/-! SUPPORT. Tests. Expected results come from 95_test_vectors.md (the vector is named before each test) or are worked by hand
from the rule named; the witnesses show, for every statement with hypotheses, a state and operands that meet them. -/

namespace Sys2Proof.Tests

open Sys2Proof Sys2Proof.Machine Sys2Proof.Claims

-- One test after the other: tests that wait for the kernel side by side would each hold a thread.
set_option Elab.async false

/-! ### WellFormed: an ill-formed term for each check (R106, R243, R244) -/

theorem test_wellFormed_refuses_size_zero : (Instr.cfft 0).wellFormed 12 = false := by decide
theorem test_wellFormed_refuses_size_above_max : (Instr.rfft 13).wellFormed 12 = false := by decide
theorem test_wellFormed_refuses_size_above_small_max : (Instr.bitrev 3).wellFormed 2 = false := by decide
theorem test_wellFormed_refuses_stage_zero : (Instr.stage 4 0).wellFormed 12 = false := by decide
theorem test_wellFormed_refuses_stage_above_size : (Instr.stage 2 3).wellFormed 12 = false := by decide
theorem test_wellFormed_accepts_limits : (Instr.stage 12 12).wellFormed 12 = true ∧ (Instr.bfly 1).wellFormed 1 = true := by
  decide

/-! ### Decoding: words written out bit by bit from the patterns of R103, and the words 95_test_vectors.md prints -/

theorem test_decode_nop : decode 0b00000000000000000000000000000000#32 = .ok .nop := by rfl
theorem test_decode_bitrev : decode 0b00000000000000000000000000100001#32 = .ok (.bitrev 2) := by rfl
theorem test_decode_stage : decode 0b00000000000000000000001100110010#32 = .ok (.stage 3 3) := by rfl
theorem test_decode_stage_fields_apart : decode 0b00000000000000000000000101000010#32 = .ok (.stage 4 1) := by rfl
theorem test_decode_bfly : decode 0b00000000000000000000000000110011#32 = .ok (.bfly 3) := by rfl
theorem test_decode_cfft : decode 0b00000000000000000000000011010100#32 = .ok (.cfft 13) := by rfl
theorem test_decode_rpost : decode 0b00000000000000000000000000010101#32 = .ok (.rpost 1) := by rfl
theorem test_decode_rfft : decode 0b00000000000000000000000001000110#32 = .ok (.rfft 4) := by rfl
/-- R105: OP 7; S on a CFFT (P4); L on a NOP; RSV. -/
theorem test_decode_illegal : decode 0x00000007#32 = .error .reservedOp ∧ decode 0x00000124#32 = .error .unusedField ∧
    decode 0x00000010#32 = .error .unusedField ∧ decode 0x00001000#32 = .error .reservedBits ∧
    decode 0x80000024#32 = .error .reservedBits := by
  exact ⟨rfl, rfl, rfl, rfl, rfl⟩
theorem test_decodeTableWord : decodeTableWord 32 0x24 = some (.cfft 2) ∧ decodeTableWord 32 0x1F = none := ⟨rfl, rfl⟩

/-! ### A small unit: M = 8, words 0 to 3 written, LEN = 4 -/

def c (re im : Nat) : CWord := { re := BitVec.ofNat 32 re, im := BitVec.ofNat 32 im }

/-- The binary32 words of 1, 2, 3, 4, 5 and −1, −2, −3, −4. -/
def f1 : Nat := 0x3F800000
def f2 : Nat := 0x40000000
def f3 : Nat := 0x40400000
def f4 : Nat := 0x40800000
def f5 : Nat := 0x40A00000
def m1 : Nat := 0xBF800000
def m2 : Nat := 0xC0000000
def m3 : Nat := 0xC0400000
def m4 : Nat := 0xC0800000

def unit8 : Params := { maxExp := 2, unitBase := 0x1000, latencies := [] }

/-- A unit with M = 8 whose first words hold `b` and whose LEN is `n`. -/
def holding (b : List CWord) (n : Nat) : State :=
  { State.resetOf unit8 with mem := writeWindow [] 0 b, len := BitVec.ofNat 16 n }

def withArgs (p q k : Nat) (s : State) : State :=
  { s with arg0 := BitVec.ofNat 16 p, arg1 := BitVec.ofNat 16 q, arg2 := BitVec.ofNat 16 k }

/-- The window of `n` words from word 0 after the CMD write of `w` and the completion step. -/
def windowAfter (w : Nat) (n : Nat) (s : State) : Option (List CWord) :=
  match step (s.withFetchWord 32 w) with
  | .next t => readWindow (complete t).mem 0 n
  | .fault _ => none
  | .refused _ => none

/-- STATUS directly after the CMD write of `w`. -/
def statusAfter (w : Nat) (s : State) : Option Word :=
  match step (s.withFetchWord 32 w) with
  | .next t => some (statusWord t.status)
  | .fault _ => none
  | .refused _ => none

/-- L2.7.2: `nop`, then completion, gives STATUS = 0x00000002; before completion BUSY alone is set. -/
theorem test_nop : statusAfter 0x0 (State.resetOf unit8) = some 0x00000001 ∧
    statusWord (statusCompleted (statusAccepted Status.reset)) = 0x00000002 := by decide +kernel

/-- L2.2.1. -/
theorem test_bitrev_four : windowAfter 0x21 4 (holding [c f1 0, c f2 0, c f3 0, c f4 0] 4) =
    some [c f1 0, c f3 0, c f2 0, c f4 0] := by decide +kernel

/-- L2.2.5: a signalling NaN moves untouched. -/
theorem test_bitrev_keeps_nan : windowAfter 0x21 4 (holding [c 0x7F800001 0, c f1 0, c f2 0, c f3 0] 4) =
    some [c 0x7F800001 0, c f2 0, c f1 0, c f3 0] := by decide +kernel

/-- L2.3.8. -/
theorem test_stage_one : windowAfter 0x122 4 (holding [c f1 0, c f3 0, c f2 0, c f4 0] 4) =
    some [c f4 0, c m2 0, c 0x40C00000 0, c m2 0] := by decide +kernel

/-- L2.3.10: twiddles TW(8, k) on a window that was not reordered. -/
theorem test_stage_three : windowAfter 0x332 8 (holding [c 0 0, c f1 0, c f2 0, c f3 0, c f4 0, c f5 0, c 0x40C00000 0,
      c 0x40E00000 0] 8) =
    some [c f4 0, c 0x40912318 0xC0624630, c f2 0xC0C00000, c 0xBFF99154 0xC09E6455, c m4 0, c 0xC0224630 0x40624630,
      c f2 0x40C00000, c 0x40FE6455 0x409E6455] := by decide +kernel

/-- L2.3.2. -/
theorem test_bfly : windowAfter 0x23 4 (withArgs 0 1 1 (holding [c f1 f2, c f3 f4, c f5 f5, c f1 f1] 4)) =
    some [c f5 m1, c m3 f5, c f5 f5, c f1 f1] := by decide +kernel

/-- L2.3.3: p > q. -/
theorem test_bfly_p_above_q : windowAfter 0x23 4 (withArgs 3 1 1 (holding [c 0 0, c f1 f1, c 0 0, c f2 0] 4)) =
    some [c 0 0, c f1 f1, c 0 0, c f3 m1] := by decide +kernel

/-- L2.4.3. -/
theorem test_cfft_four : windowAfter 0x24 4 (holding [c f1 f1, c f2 m1, c 0 f3, c m1 0] 4) =
    some [c f2 f3, c 0 0xC0A00000, c 0 f5, c f2 f1] := by decide +kernel

/-- L2.3.7: signed zeros through the bypass. -/
theorem test_cfft_signed_zero : windowAfter 0x14 2 (holding [c 0x80000000 0, c 0x80000000 m1] 2) =
    some [c 0x80000000 m1, c 0 f1] := by decide +kernel

/-- L2.5.4. -/
theorem test_rpost_eight : windowAfter 0x35 4 (holding [c 0x41400000 0x41800000, c 0xC1000000 0, c m4 m4, c 0 0xC1000000] 8) =
    some [c 0x41E00000 0, c m4 0x411A827A, c m4 f4, c m4 0x3FD413CC] := by decide +kernel

/-- L2.5.2: the imaginary part of the DC word is +0 even with a NaN. -/
theorem test_rpost_two : windowAfter 0x15 1 (holding [c 0x7FC00001 f1] 2) = some [c 0x7FC00000 0] := by decide +kernel

/-- L2.6.4. -/
theorem test_rfft_eight : windowAfter 0x36 4 (holding [c 0 f1, c f2 f3, c f4 f5, c 0x40C00000 0x40E00000] 8) =
    some [c 0x41E00000 0, c m4 0x411A827A, c m4 f4, c m4 0x3FD413CC] := by decide +kernel

/-- L2.6.3: the midpoint of an impulse is (1, −0). -/
theorem test_rfft_midpoint : windowAfter 0x26 2 (holding [c f1 0, c 0 0] 4) = some [c f1 0, c f1 0x80000000] := by
  decide +kernel

/-- P4 and L2.4.10: the rejections in priority order, on a unit with LOG2_M = 3. -/
theorem test_rejections :
    let s := holding [c f1 0, c f2 0, c f3 0, c f4 0] 3
    statusAfter 0x24 s = some 0x00000406 ∧ statusAfter 0x7 s = some 0x00000106 ∧ statusAfter 0x124 s = some 0x00000106 ∧
    statusAfter 0x44 s = some 0x00000206 ∧ statusAfter 0x4 s = some 0x00000206 ∧
    statusAfter 0x322 { s with len := 4 } = some 0x00000306 ∧ statusAfter 0x22 { s with len := 4 } = some 0x00000306 ∧
    statusAfter 0x24 { s with len := 4, base := 5 } = some 0x00000506 := by decide +kernel

/-- L2.3.11: BFLY N = 4 with ARG0 = ARG1, with k = N/2 and with ARG0 = 4. -/
theorem test_bfly_bad_args :
    let s := holding [c f1 0, c f2 0, c f3 0, c f4 0] 4
    statusAfter 0x23 (withArgs 1 1 0 s) = some 0x00000306 ∧ statusAfter 0x23 (withArgs 0 1 2 s) = some 0x00000306 ∧
    statusAfter 0x23 (withArgs 4 1 0 s) = some 0x00000306 := by decide +kernel

/-! ### Arithmetic (L2.1) -/

theorem test_add32 :
    add32 0x3F800000 0x40000000 = 0x40400000 ∧ add32 0x3F800000 0x33800000 = 0x3F800000 ∧
    add32 0x3F800000 0x34400000 = 0x3F800002 ∧ add32 0x7F7FFFFF 0x73000000 = 0x7F800000 ∧
    add32 0x7F61B1E6 0x7F61B1E6 = 0x7F800000 ∧ add32 0x80000000 0x80000000 = 0x80000000 ∧
    add32 0x80000000 0x00000000 = 0x00000000 := by decide +kernel

theorem test_sub32_mul32 :
    sub32 0 0 = 0 ∧ sub32 0x80000000 0 = 0x80000000 ∧ sub32 0x7F800000 0x7F800000 = 0x7FC00000 ∧
    mul32 0 0x7F800000 = 0x7FC00000 ∧ mul32 0xC0000000 0 = 0x80000000 ∧ mul32 0x3F3504F3 0x3F3504F3 = 0x3EFFFFFF := by
  decide +kernel

theorem test_half32_neg32 :
    half32 0x00000001 = 0 ∧ half32 0x00000003 = 2 ∧ half32 0x00800000 = 0x00400000 ∧ half32 0xFF800000 = 0xFF800000 ∧
    half32 0xFFC12345 = 0x7FC00000 ∧ neg32 0x7FC00001 = 0xFFC00001 ∧ neg32 0 = 0x80000000 := by decide +kernel

/-- L1.3: the size-16 table, in the reference unit. -/
theorem test_twiddles : (List.range 8).map (twiddle Params.reference 4) =
    [c 0x3F800000 0, c 0x3F6C835E 0xBEC3EF15, c 0x3F3504F3 0xBF3504F3, c 0x3EC3EF15 0xBF6C835E, c 0 0xBF800000,
      c 0xBEC3EF15 0xBF6C835E, c 0xBF3504F3 0xBF3504F3, c 0xBF6C835E 0xBEC3EF15] := by decide +kernel

/-- R140. -/
theorem test_rev : (List.range 16).map (rev 4) = [0, 8, 4, 12, 2, 10, 6, 14, 1, 9, 5, 13, 3, 11, 7, 15] := by decide

/-! ### The bus (L2.7) -/

/-- What a transaction on a state answers on the bus. -/
def busAnswer (r : BusReq) (s : State) : Option BusOut :=
  match busAccess r s with
  | .next t => some t.bus
  | .fault _ => none
  | .refused _ => none

/-- R37, R38 and L1.2 on the reference unit: ID, CONFIG and the imaginary half of ROM entry 1024. -/
theorem test_reads :
    busAnswer (memRead 0x000#18) State.reset = some { ack := true, err := false, rdata := some 0x46465401 } ∧
    busAnswer (memRead 0x004#18) State.reset = some { ack := true, err := false, rdata := some 0x0000000C } ∧
    busAnswer (memRead 0x12004#18) State.reset = some { ack := true, err := false, rdata := some 0xBF800000 } := by
  decide +kernel

/-- R76, R78, R81: a misaligned read, a ROM write, an unmapped read. -/
theorem test_bus_errors :
    busAnswer (memRead 0x20002#18) State.reset = some { ack := true, err := true, rdata := some 0 } ∧
    busAnswer (memWrite 0x10000#18 0) State.reset = some { ack := true, err := true, rdata := none } ∧
    busAnswer (memRead 0x28000#18) State.reset = some { ack := true, err := true, rdata := some 0 } := by decide +kernel

/-- R280: rst_n rises and a transaction comes before the next clock edge: it is not acknowledged; after that edge it is. -/
theorem test_leaving_reset :
    (Sys2Proof.core.run 2 { State.reset with resetPhase := .held, agenda := [.rst true, .bus (memRead 0#18)] } =
      .next { State.reset with resetPhase := .ending }) ∧
    (∃ t : State, Sys2Proof.core.run 3 { State.reset with resetPhase := .held, agenda := [.rst true, .clk, .bus (memRead 0#18)] } =
      .next t ∧ t.bus.ack = true) := ⟨by rfl, _, by rfl, rfl⟩

/-- R280, R296: a host's access to a unit in reset has not completed, and completes once reset has ended. -/
theorem test_host_waits_for_ack :
    (∃ t, hostRun 1 [.access (memRead 0#18)] { State.reset with resetPhase := .held, agenda := [.rst true] } =
      .next ([.access (memRead 0#18)], t)) ∧
    (∃ t, hostRun 3 [.access (memRead 0#18)] { State.reset with resetPhase := .held, agenda := [.rst true] } = .next ([], t)) :=
  ⟨⟨_, by rfl⟩, ⟨_, by rfl⟩⟩

/-- R13, R150: the offset of a sample does not wrap: the last word of the 18-bit space, and the first beyond it. -/
theorem test_sample_offset : assembleStmt (.ws 0x3FFF 1 2) =
      some [.access (memWrite 0x3FFF8#18 1), .access (memWrite 0x3FFFC#18 2)] ∧
    assembleStmt (.ws 0x4004 1 2) = none ∧ assembleStmt (.wsr 0x8000 1) = none := by decide +kernel

/-- R74, R77: the real part at the lower offset, each half little-endian. -/
theorem test_byte_order : readByte (writeWindow [] 1 [c 0x44332211 0x88776655]) 0x2000C = some 0x55 ∧
    readByte (writeWindow [] 1 [c 0x44332211 0x88776655]) 0x20008 = some 0x11 := by decide +kernel

/-! ### Every statement with hypotheses has a state and operands that meet them -/

/-- Four words in a unit with M = 8, LEN = 4. -/
def four : State := withArgs 3 1 1 (holding [c f1 f2, c f3 f4, c f5 m1, c m2 m3] 4)

def fourWords : List CWord := [c f1 f2, c f3 f4, c f5 m1, c m2 m3]

/-- The same with LEN = 8, for the real commands. -/
def eightReal : State := { four with len := 8 }

/-- A unit that runs a NOP-sized image of one word with `left` clock edges to go. -/
def runningUnit (left : Nat) : State :=
  { State.resetOf unit8 with
    status := { busy := true, done := false, err := false, ovr := false, errcode := 0 }
    latch := { op := 6, l := 1, st := 0, base := 7, len := 2, p := 0, q := 0, k := 0 }
    phase := .running [c f1 0] left }

theorem ready_four : ready four 2 4 fourWords := by unfold ready; decide +kernel
theorem ready_eightReal : ready eightReal 3 4 fourWords := by unfold ready; decide +kernel

/-- R247's limits: the last base whose window fits, and the greatest size exponent. -/
theorem ready_at_limits : ready { four with base := 4, mem := writeWindow [] 4 fourWords } 2 4 fourWords ∧
    ready (holding (fourWords ++ fourWords) 8) 3 8 (fourWords ++ fourWords) := by
  constructor <;> (unfold ready; decide +kernel)

/-- DecodeInvertsEncode, DecodeMatchesExactlyOneRow: each clause's word. -/
theorem witness_decode_clauses :
    (decode 0x322#32 = .ok (.stage 2 3) ∧ four.status.busy = false ∧ (Instr.stage 2 3).wellFormed four.params.log2M = false) ∧
    reservedField 0x80000000#32 ≠ 0 ∧ (reservedField 0#32 = 0 ∧ opField 0#32 = 0 ∧ sizeField 0#32 = 0 ∧ stageField 0#32 = 0) ∧
    (opField 0xF1#32 = 1 ∧ stageField 0xF1#32 = 0) ∧ opField 0xF02#32 = 2 ∧ (opField 0x13#32 = 3 ∧ stageField 0x13#32 = 0) ∧
    (opField 0x14#32 = 4 ∧ stageField 0x14#32 = 0) ∧ (opField 0x15#32 = 5 ∧ stageField 0x15#32 = 0) ∧
    (opField 0x16#32 = 6 ∧ stageField 0x16#32 = 0) ∧
    (opField 0x114#32 ≠ 2 ∧ opField 0x114#32 ≠ 0 ∧ stageField 0x114#32 ≠ 0) ∧
    (opField 0x10#32 = 0 ∧ sizeField 0x10#32 ≠ 0) ∧ (opField 0x100#32 = 0 ∧ stageField 0x100#32 ≠ 0) ∧
    (7 ≤ (opField 0x7#32).toNat ∧ 7 ≤ (opField 0xF#32).toNat) := by
  refine ⟨⟨rfl, rfl, by decide⟩, ?_⟩
  decide +kernel

theorem witness_IllegalWordsAreRejected : decode 0x7#32 = .error .reservedOp ∧ four.status.busy = false := ⟨rfl, rfl⟩

/-- StepRunsDecodedCommand: a command, an ILLEGAL word, a word while BUSY. -/
theorem witness_StepRunsDecodedCommand :
    (let s := { four with agenda := [.bus { we := true, addr := 0x024#18, wdata := 0x24#32, wstrb := 0xF#4 }] }
     s.resetPhase = .out ∧ s.agenda = .bus { we := true, addr := 0x024#18, wdata := 0x24#32, wstrb := 0xF#4 } :: [] ∧
      decode 0x24#32 = .ok (.cfft 2)) ∧
    (decode 0x7#32 = .error .reservedOp ∧ four.status.busy = false) ∧ (runningUnit 2).status.busy = true :=
  ⟨⟨rfl, rfl, rfl⟩, ⟨rfl, rfl⟩, rfl⟩

theorem witness_FetchedWordRunsNext : decode 0x36#32 = .ok (.rfft 3) := rfl

theorem witness_NopIsAccepted : State.reset.status.busy = false := rfl

/-- BitrevPermutesWindow, BitrevTwiceRestoresWindow, CfftIsRecursiveCombination. -/
theorem witness_complex_commands : ready four 2 (2 ^ (2 : Nibble).toNat) fourWords := ready_four

/-- StageCombinesBlocks, at the first and the last stage. -/
theorem witness_StageCombinesBlocks : ready four 2 (2 ^ (2 : Nibble).toNat) fourWords ∧ 1 ≤ (1 : Nibble).toNat ∧
    (1 : Nibble).toNat ≤ (2 : Nibble).toNat ∧ (2 : Nibble).toNat ≤ (2 : Nibble).toNat := ⟨ready_four, by decide⟩

/-- BflyChangesTwoWords, with p the last word, p > q, and k the last index. -/
theorem witness_BflyChangesTwoWords : ready four 2 (2 ^ (2 : Nibble).toNat) fourWords ∧
    four.arg0.toNat < 2 ^ (2 : Nibble).toNat ∧ four.arg1.toNat < 2 ^ (2 : Nibble).toNat ∧ four.arg0 ≠ four.arg1 ∧
    four.arg2.toNat < 2 ^ (2 : Nibble).toNat / 2 := ⟨ready_four, by decide⟩

/-- RpostRecombinesWindow, RfftRecombinesHalfTransform. -/
theorem witness_real_commands : ready eightReal 3 (2 ^ (3 : Nibble).toNat / 2) fourWords := ready_eightReal

theorem witness_CfftOfTwoIsExact : ready (holding [c f1 f2, c f3 f4] 2) 1 2 [c f1 f2, c f3 f4] := by
  unfold ready; decide +kernel

theorem witness_CfftDcBinOfRealInput :
    1 ≤ 2 ∧ [c f1 0, c f2 0, c f3 0, c f4 0].length = 2 ^ 2 ∧ ∀ x ∈ [c f1 0, c f2 0, c f3 0, c f4 0], x.im = 0#32 := by
  decide

theorem witness_RecursionEqualsStageSequence : fourWords.length = 2 ^ 2 := by decide

/-- StageEqualsBflysInAnyOrder: the two butterflies of stage 2, the second first. -/
theorem witness_StageEqualsBflysInAnyOrder : ready four 2 (2 ^ (2 : Nibble).toNat) fourWords ∧ 1 ≤ (2 : Nibble).toNat ∧
    (2 : Nibble).toNat ≤ (2 : Nibble).toNat ∧
    [(1, 3, 1), (0, 2, 0)].Perm (stageAsBflys (2 : Nibble).toNat (2 : Nibble).toNat) :=
  ⟨ready_four, by decide, by decide, by decide +kernel⟩

theorem witness_RfftEqualsCfftThenRpost :
    (ready eightReal 3 (2 ^ (3 : Nibble).toNat / 2) fourWords ∧ (2 : Nibble).toNat + 1 = (3 : Nibble).toNat ∧
      2 ≤ (3 : Nibble).toNat) ∧ ready (holding [c f3 f5] 2) 1 1 [c f3 f5] :=
  ⟨⟨ready_eightReal, by decide, by decide⟩, by unfold ready; decide +kernel⟩

/-- CompletionWritesTheWindow, both ways. -/
theorem witness_CompletionWritesTheWindow : (runningUnit 1).resetPhase = .out ∧ (runningUnit 1).phase = .running [c f1 0] 1 ∧ 1 ≤ 1 ∧
    (runningUnit 1).agenda = [] ∧ ({ runningUnit 1 with agenda := [.clk] } : State).agenda = .clk :: [] :=
  ⟨rfl, rfl, by decide, rfl, rfl⟩

/-- CompletionAfterLatency: with no event to come, at an idle clock edge, at one of a running command. -/
theorem witness_CompletionAfterLatency : (runningUnit 3).resetPhase = .out ∧ (runningUnit 3).phase = .running [c f1 0] 3 ∧ 1 ≤ 3 ∧
    (runningUnit 3).agenda = [] ∧ 2 < 3 ∧
    (four.resetPhase = .out ∧ ({ four with agenda := [.clk] } : State).agenda = .clk :: [] ∧ four.agenda = [] ∧
      four.phase = .idle) ∧
    ((runningUnit 2).phase = .running [c f1 0] 2 ∧ 1 < 2) :=
  ⟨rfl, rfl, by decide, rfl, by decide, ⟨rfl, rfl, rfl, rfl⟩, rfl, by decide⟩

theorem witness_CfftFromWriteToDone :
    let s := { four with agenda := [.bus { we := true, addr := 0x024#18, wdata := encode (.cfft 2), wstrb := 0xF#4 }] }
    s.resetPhase = .out ∧ ready s 2 (2 ^ (2 : Nibble).toNat) fourWords ∧
      s.agenda = [.bus { we := true, addr := 0x024#18, wdata := encode (.cfft 2), wstrb := 0xF#4 }] := by
  refine ⟨rfl, ?_, rfl⟩
  unfold ready; decide +kernel

/-- ChecksInPriorityOrder: each clause at a limit of its range. -/
theorem witness_ChecksInPriorityOrder :
    four.status.busy = false ∧ Instr.cfft 0 ≠ .nop ∧ (Instr.cfft 0).sizeExp = 0 ∧
    four.params.log2M < (Instr.cfft 4).sizeExp ∧ ¬ four.params.log2M < (Instr.cfft 3).sizeExp ∧
    ((0 : Nibble).toNat = 0 ∧ (2 : Nibble).toNat < (3 : Nibble).toNat) ∧
    (2 ^ (2 : Nibble).toNat ≤ (withArgs 4 1 0 four).arg0.toNat ∧ 2 ^ (2 : Nibble).toNat ≤ (withArgs 1 4 0 four).arg1.toNat ∧
      (withArgs 1 1 0 four).arg0 = (withArgs 1 1 0 four).arg1 ∧
      2 ^ (2 : Nibble).toNat / 2 ≤ (withArgs 0 1 2 four).arg2.toNat) ∧
    ({ four with len := 3 } : State).len.toNat ≠ 2 ^ (Instr.cfft 2).sizeExp ∧
    four.len.toNat = 2 ^ (Instr.cfft 2).sizeExp ∧
    four.params.size < ({ four with base := 5 } : State).base.toNat + 2 ^ (Instr.cfft 2).sizeExp ∧
    ¬ four.params.size < ({ four with base := 4 } : State).base.toNat + 2 ^ (Instr.cfft 2).sizeExp ∧
    four.params.size < ({ eightReal with base := 5 } : State).base.toNat + 2 ^ (Instr.rfft 3).sizeExp / 2 ∧
    ¬ four.params.size < ({ eightReal with base := 4 } : State).base.toNat + 2 ^ (Instr.rpost 3).sizeExp / 2 := by
  decide +kernel

/-- RejectionChangesStatusOnly and InterruptLevel's third clause: STAGE with S = 0. -/
theorem witness_RejectionChangesStatusOnly : four.status.busy = false ∧ commandWrite 0x22#32 four = .next (rejectedState four 3) ∧
    (rejectedState four 3).status.err = true := ⟨rfl, by rfl, rfl⟩

theorem witness_CommandWhileBusyIsDropped : (runningUnit 2).status.busy = true := rfl

/-- CommandWriteFrame: accepted, rejected and dropped. -/
theorem witness_CommandWriteFrame : exec .nop four = .next (acceptedState four (latchOf 0 0 0 four) []) ∧
    exec (.stage 2 0) four = .next (rejectedState four 3) ∧ exec .nop (runningUnit 2) = .next (overrunState (runningUnit 2)) :=
  ⟨by rfl, by rfl, by rfl⟩

/-- CommandFaultsOnUnwrittenWindow: word 3 of the window is unwritten. -/
theorem witness_CommandFaultsOnUnwrittenWindow :
    let s := holding [c f1 0, c f2 0, c f3 0] 4
    s.status.busy = false ∧ validate (.cfft 2) s = none ∧ 3 < windowWords (.cfft 2) ∧
      readSample s.mem (s.base.toNat + 3) = none ∧ exec (.cfft 2) s = .fault .unwrittenWindow := by
  refine ⟨rfl, ?_⟩
  exact ⟨by decide +kernel, by decide +kernel, by decide +kernel, by rfl⟩

theorem inv_runningUnit : Inv (runningUnit 2) where
  memSorted := List.Pairwise.nil
  memInRam := by intro x hx; cases hx
  memWhole := by intro x hx; cases hx
  errIffCode := by decide
  codeKnown := by decide
  busyClean := by decide
  busyIffRunning := rfl
  runningFits := by
    intro bout left h
    cases h
    exact ⟨.rfft 1, by rfl, by decide, by decide⟩
  resetHeld := by intro h; exact absurd rfl h

/-- RunningCommandIsUndisturbed: a write of BASE while a command runs. -/
theorem witness_RunningCommandIsUndisturbed : Inv (runningUnit 2) ∧ (runningUnit 2).phase = .running [c f1 0] 2 ∧
    ∃ t, busAccess (memWrite 0x010#18 5) (runningUnit 2) = .next t := ⟨inv_runningUnit, rfl, _, by rfl⟩

/-- RegisterReadValues and RegisterWriteEffects: the first and the last reserved offset. -/
theorem witness_reserved_offsets : (0x028 ≤ 0x028 ∧ 0x028 < 0x100 ∧ 0x028 % 4 = 0) ∧
    (0x028 ≤ 0x0FC ∧ 0x0FC < 0x100 ∧ 0x0FC % 4 = 0) := by decide

/-- StatusWriteOneClears: each bit set and clear. -/
theorem witness_StatusWriteOneClears : (0xE#32).getLsbD 1 = true ∧ (0xE#32).getLsbD 2 = true ∧ (0xE#32).getLsbD 3 = true ∧
    (0xFFFFFFF1#32).getLsbD 1 = false ∧ (0xFFFFFFF1#32).getLsbD 2 = false ∧ (0xFFFFFFF1#32).getLsbD 3 = false := by decide

/-- InterruptLevel: the completion, the clearing of DONE and of IE. -/
theorem witness_InterruptLevel : (runningUnit 1).phase = .running [c f1 0] 1 ∧
    (∃ t, busAccess { we := true, addr := 0x00C#18, wdata := 2, wstrb := 0xF#4 } four = .next t) ∧ (2 : Word).getLsbD 1 = true ∧
    (∃ t, busAccess { we := true, addr := 0x008#18, wdata := 0, wstrb := 0xF#4 } four = .next t) ∧
    (0 : Word).getLsbD 0 = false := ⟨rfl, ⟨_, by rfl⟩, by decide, ⟨_, by rfl⟩, by decide⟩

/-- AddressMapRegions: the limits of each region for LOG2_M = 3. -/
theorem witness_AddressMapRegions : regionOf unit8 0x000FF = .reg .reserved ∧ regionOf unit8 0x00100 = .unmapped ∧
    regionOf unit8 0x0FFFF = .unmapped ∧ regionOf unit8 0x10000 = .rom 0 false ∧ regionOf unit8 0x1001F = .rom 3 true ∧
    regionOf unit8 0x10020 = .unmapped ∧ regionOf unit8 0x1FFFF = .unmapped ∧ regionOf unit8 0x20000 = .ram 0x20000 ∧
    regionOf unit8 0x2003F = .ram 0x2003F ∧ regionOf unit8 0x20040 = .unmapped ∧ regionOf unit8 0x3FFFF = .unmapped := by
  decide +kernel

/-- BusErrorsHaveNoEffect: each of the four kinds. -/
theorem witness_BusErrorsHaveNoEffect : regionOf unit8 (0x100#18).toNat = .unmapped ∧ (0x20002#18).toNat % 4 ≠ 0 ∧
    (0x7#4 ≠ 0xF#4) ∧ regionOf unit8 (0x10004#18).toNat = .rom 0 true := by decide +kernel

theorem witness_ReadsHaveNoSideEffect : (memRead 0x00C#18).we = false ∧ ∃ t, busAccess (memRead 0x00C#18) four = .next t :=
  ⟨rfl, _, by rfl⟩

/-- RomHostView: the first and the last entry. -/
theorem witness_RomHostView : 0 < four.params.size / 2 ∧ 3 < four.params.size / 2 := by decide

/-- SampleStoreThenLoad: the first and the last half. -/
theorem witness_SampleStoreThenLoad : four.status.busy = false ∧ (0x20000 ≤ 0x20000 ∧ 0x20000 < 0x20000 + 8 * four.params.size) ∧
    (0x20000 ≤ 0x2003C ∧ 0x2003C < 0x20000 + 8 * four.params.size ∧ 0x2003C % 4 = 0) := by decide +kernel

/-- SampleAccessWhileBusyIsHazard: a read stops, a ROM read does not. -/
theorem witness_SampleAccessWhileBusyIsHazard : (runningUnit 2).status.busy = true ∧ accessLegal (memRead 0x20000#18) = true ∧
    regionOf (runningUnit 2).params (0x20000#18).toNat = .ram 0x20000 := by decide +kernel

/-- UnwrittenHalfReadFaults: a written half and an unwritten one. -/
theorem witness_UnwrittenHalfReadFaults : (memRead 0x2001C#18).we = false ∧ four.status.busy = false ∧
    accessLegal (memRead 0x2001C#18) = true ∧ regionOf four.params (0x2001C#18).toNat = .ram 0x2001C ∧
    readHalf four.mem 0x2001C = some 0xC0400000#32 ∧ regionOf four.params (0x20020#18).toNat = .ram 0x20020 ∧
    readHalf four.mem 0x20020 = none ∧ readByte four.mem (0x20020 + 3) = none := by decide +kernel

theorem witness_ByteViewIsLittleEndian : 0x20004 < 2 ^ 18 ∧ 0x20004 % 4 = 0 ∧ peek four 0x20004 = some 0x40000000#32 ∧ 3 < 4 ∧
    systemByte four (four.params.unitBase + 0x20004 + 3) = some 0x40 := by decide +kernel

theorem value32_one : value32 0x3F800000#32 = 1 := by
  have h : exactValue 0x3F800000#32 = 2 ^ 149 := by decide +kernel
  rw [value32, h]; norm_num

theorem value32_minus_one : value32 0xBF800000#32 = -1 := by
  have h : exactValue 0xBF800000#32 = - 2 ^ 149 := by decide +kernel
  rw [value32, h]; norm_num

theorem value32_minus_zero : value32 0x80000000#32 = 0 := by
  have h : exactValue 0x80000000#32 = 0 := by decide +kernel
  simp [value32, h]

/-- SumsAreRoundedOnce, ProductsAreRoundedOnce: finite operands, with a sum, a difference and a product that are zero and that
are not. -/
theorem witness_rounded_operations :
    (finite32 0x3F800000#32 = true ∧ finite32 0xBF800000#32 = true ∧ finite32 0x80000000#32 = true) ∧
    (value32 0x3F800000#32 + value32 0xBF800000#32 = 0 ∧ value32 0x3F800000#32 + value32 0x3F800000#32 ≠ 0) ∧
    (value32 0x3F800000#32 - value32 0x3F800000#32 = 0 ∧ value32 0x3F800000#32 - value32 0xBF800000#32 ≠ 0) ∧
    (value32 0x3F800000#32 * value32 0xBF800000#32 ≠ 0 ∧ value32 0x80000000#32 * value32 0x3F800000#32 = 0) := by
  refine ⟨by decide +kernel, ?_, ?_, ?_⟩ <;> rw [value32_one, value32_minus_one] <;> norm_num [value32_minus_zero]

/-- SpecialOperands: each premise. -/
theorem witness_SpecialOperands : isNaN (add32 0x7F800000#32 0xFF800000#32) = true ∧ isNaN (sub32 0x7F800000#32 0x7F800000#32) = true ∧
    isNaN (mul32 0x7F800000#32 0x80000000#32) = true ∧ (isNaN (add32 0xFF800000#32 0x3F800000#32) = false ∧
      isInf 0xFF800000#32 = true) ∧ (isNaN (sub32 0x7F800000#32 0xFF800000#32) = false ∧ isInf 0x7F800000#32 = true ∧
      isInf 0xFF800000#32 = true) ∧ (isNaN (mul32 0x7F800000#32 0xBF800000#32) = false ∧ isInf 0x7F800000#32 = true) := by
  decide +kernel

/-- NegateAndHalve: a finite value, a zero, an infinity, a NaN. -/
theorem witness_NegateAndHalve : (finite32 0x3F800000#32 = true ∧ value32 0x3F800000#32 ≠ 0) ∧
    (finite32 0x80000000#32 = true ∧ value32 0x80000000#32 = 0) ∧ isInf 0xFF800000#32 = true ∧ isNaN 0x7F800001#32 = true := by
  rw [value32_one, value32_minus_zero]
  exact ⟨⟨by decide +kernel, one_ne_zero⟩, ⟨by decide +kernel, rfl⟩, by decide +kernel, by decide +kernel⟩

/-- RomIsCorrectlyRounded: entry 0 has the zero sine, entry M/4 the zero cosine. -/
theorem witness_RomIsCorrectlyRounded : unit8.size = 8 ∧ 0 < unit8.size / 2 ∧ 2 < unit8.size / 2 ∧
    Real.cos (2 * Real.pi * (0 : ℕ) / (8 : ℕ)) ≠ 0 ∧ Real.sin (2 * Real.pi * (0 : ℕ) / (8 : ℕ)) = 0 ∧
    Real.cos (2 * Real.pi * (2 : ℕ) / (8 : ℕ)) = 0 ∧ Real.sin (2 * Real.pi * (2 : ℕ) / (8 : ℕ)) ≠ 0 := by
  have h : 2 * Real.pi * ((2 : ℕ) : ℝ) / ((8 : ℕ) : ℝ) = Real.pi / 2 := by push_cast; ring
  refine ⟨rfl, by decide, by decide, ?_, ?_, ?_, ?_⟩
  · simp
  · simp
  · rw [h, Real.cos_pi_div_two]
  · rw [h, Real.sin_pi_div_two]; exact one_ne_zero

/-- RomQuadrantSymmetry: the first and the last entry of each range. -/
theorem witness_rom_entries : 0 < unit8.size / 2 ∧ 3 < unit8.size / 2 ∧ 0 < 3 ∧ 4 ≤ unit8.size ∧ 2 ≤ unit8.size / 4 := by decide

/-- RomExactEntries: a unit that has all of them; and R132's values in the smallest units. -/
theorem witness_RomExactEntries : 16 ≤ Params.reference.size ∧
    romEntry { unit8 with maxExp := 0 } 0 = c 0x3F800000 0 ∧ romEntry { unit8 with maxExp := 1 } 1 = c 0 0xBF800000 := by
  decide +kernel

theorem witness_TwiddlesShareOneRom : unit8.log2M ≤ Params.reference.log2M ∧ 3 < unit8.size / 2 := by decide

theorem witness_RevIsInvolution : 0 < 2 ^ 4 ∧ 15 < 2 ^ 4 := by decide

/-- A unit in reset, with events to come. -/
def inReset (r : ResetPhase) (a : List Event) : State := { State.resetOf unit8 with resetPhase := r, agenda := a }

theorem inv_inReset (r : ResetPhase) (a : List Event) : Inv (inReset r a) := inv_resetOf unit8 r a BusOut.idle

/-- ResetPinBehaviour: reset under a running command, a transaction before either level and before the first clock edge, a clock
edge under reset, the pin's rise, the first clock edge with and without an event for it. -/
theorem witness_ResetPinBehaviour :
    ({ runningUnit 2 with agenda := [.rst false] } : State).agenda = .rst false :: [] ∧
    ((inReset .held [.bus (memRead 0#18)]).resetPhase ≠ .out ∧ (inReset .ending [.bus (memRead 0#18)]).resetPhase ≠ .out ∧
      (inReset .ending [.bus (memRead 0#18)]).agenda = .bus (memRead 0#18) :: []) ∧
    ((inReset .held [.clk]).resetPhase = .held ∧ (inReset .held [.clk]).agenda = .clk :: [] ∧ (inReset .held []).agenda = []) ∧
    (Inv (inReset .held [.rst true]) ∧ (inReset .held [.rst true]).agenda = .rst true :: []) ∧
    (Inv (inReset .ending [.clk]) ∧ (inReset .ending [.clk]).resetPhase = .ending ∧
      (inReset .ending [.clk]).agenda = .clk :: [] ∧ Inv (inReset .ending []) ∧ (inReset .ending []).agenda = []) :=
  ⟨rfl, ⟨by decide, by decide, rfl⟩, ⟨rfl, rfl, rfl⟩, ⟨inv_inReset _ _, rfl⟩, ⟨inv_inReset _ _, rfl, rfl, inv_inReset _ _, rfl⟩⟩

/-- EveryStepKeepsTheInvariant, ParametersNeverChange. -/
theorem witness_EveryStepKeepsTheInvariant : Inv (runningUnit 2) ∧ ∃ t, step (runningUnit 2) = .next t :=
  ⟨inv_runningUnit, _, by rfl⟩

/-- LatchUnreadWhileIdle: a step that accepts a command, and one that stops. -/
theorem witness_LatchUnreadWhileIdle : four.phase = .idle ∧ (∃ t, step (four.withFetchWord 32 0x0) = .next t ∧ t.phase ≠ .idle) ∧
    step ({ four with len := 8 }.withFetchWord 32 0x34) = .fault .unwrittenWindow := by
  refine ⟨rfl, ⟨_, by rfl, by simp [accept]⟩, by rfl⟩

/-- SampleRamChangesOnlyByWriteCompletionOrReset: a byte that a host write changes, one that a completion writes, one that reset
unwrites. -/
theorem witness_SampleRamChanges :
    (∃ t, step { four with agenda := [.bus (memWrite 0x20020#18 1)] } = .next t ∧
      readByte t.mem 0x20020 = some 1 ∧ readByte four.mem 0x20020 = none) ∧
    (∃ t, step (runningUnit 1) = .next t ∧ readByte t.mem 0x2003B = some 0x3F ∧ readByte (runningUnit 1).mem 0x2003B = none) ∧
    (∃ t, step { four with agenda := [.rst false] } = .next t ∧ readByte t.mem 0x20003 = none ∧
      readByte four.mem 0x20003 = some 0x3F) := by
  exact ⟨⟨_, by rfl, by decide +kernel, by decide +kernel⟩, ⟨_, by rfl, by decide +kernel, by decide +kernel⟩,
    ⟨_, by rfl, by decide +kernel, by decide +kernel⟩⟩

end Sys2Proof.Tests
end

section
/-! Settles the statements about the unit's state (10_state.md): the invariant, the parameters, LATCH, the registers and
the reset values. -/

namespace Sys2Proof

open Sys2Proof.Machine

/-! ### The invariant -/

/-- The decoder reads every command back from its own word (R104). -/
@[simp] theorem decode_encode (i : Instr) : decode (encode i) = .ok i := by
  cases i <;> simp [decode, encode, sizedCommand]

theorem inv_commandWrite {s t : State} {w : Word} (h : Inv s) (hr : s.resetPhase = .out)
    (hw : commandWrite w s = .next t) : Inv t := by
  rcases commandWrite_cases hw with ⟨i, -, hx⟩ | ⟨e, -, rfl⟩
  · rcases exec_next_cases hx with ⟨-, rfl⟩ | ⟨hb, e, -, rfl⟩ | ⟨-, hv, bin, hbin, rfl⟩
    · exact inv_overrun h hr
    · exact inv_reject h hr hb e
    · exact inv_accept h hr hv (decode_encode i) hbin
  · exact inv_issueIllegal h hr

theorem inv_busAccess {s t : State} {r : BusReq} (h : Inv s) (hr : s.resetPhase = .out)
    (hb : busAccess r s = .next t) : Inv t := by
  have hack : Inv (ackWrite s) := inv_bus h _
  rcases busAccess_cases hb with ⟨b, rfl⟩ | ⟨-, -, ho⟩ | ⟨-, -, rfl⟩ | ⟨-, -, -, hc⟩ | ⟨a, -, hl, hg, -, rfl⟩
  · exact inv_bus h b
  · exact inv_operandWrite h hr ho
  · exact inv_hostClear hack hr _
  · exact inv_commandWrite hack hr hc
  · exact inv_ramWrite h hr _ hg (accessLegal_aligned hl)

theorem inv_step {s t : State} (h : Inv s) (hs : step s = .next t) : Inv t := by
  obtain ⟨rest, rfl | ⟨level, rfl⟩ | ⟨-, rfl⟩ | ⟨r, hr, -, hb⟩⟩ := step_cases hs
  · exact inv_clockEdge (inv_beginStep h rest)
  · exact inv_setResetPin (inv_beginStep h rest) level
  · exact inv_beginStep h rest
  · exact inv_busAccess (inv_beginStep h rest) hr hb

/-- Settles O57: each of the four things a step can do keeps the invariant. -/
theorem everyStepKeepsTheInvariant : Obligations.EveryStepKeepsTheInvariant :=
  fun _ _ h hs => inv_step h hs

/-- Settles O56: every build's reset state, the reference build's among them. -/
theorem invariantHoldsAtReset : Obligations.InvariantHoldsAtReset :=
  have h (p : Params) : Inv (State.resetOf p) := inv_resetOf p .out [] BusOut.idle
  ⟨h Params.reference, h⟩

/-! ### A running command -/

/-- While BUSY a CMD write is dropped, whatever word it carries (R234). -/
theorem commandWrite_of_busy {s : State} (h : s.status.busy = true) (w : Word) :
    commandWrite w s = .next (overrun s) := by
  cases hd : decode w with
  | ok i => simp only [commandWrite, hd, exec_eq_issue, issue_of_busy h]
  | error e => simp only [commandWrite, hd, issueIllegal, h, if_true]

/-- While BUSY a transaction that answers leaves the phase, LATCH, the sample RAM and BUSY alone (R50, R293). -/
theorem busAccess_frame_of_busy {s t : State} {r : BusReq} (h : s.status.busy = true) (hb : busAccess r s = .next t) :
    t.phase = s.phase ∧ t.latch = s.latch ∧ t.mem = s.mem ∧ t.status.busy = true := by
  rcases busAccess_cases hb with ⟨b, rfl⟩ | ⟨-, -, ho⟩ | ⟨-, -, rfl⟩ | ⟨-, -, -, hc⟩ | ⟨a, -, -, -, hidle, -⟩
  · exact ⟨rfl, rfl, rfl, h⟩
  · rw [ho]; exact ⟨rfl, rfl, rfl, h⟩
  · exact ⟨rfl, rfl, rfl, h⟩
  · rw [commandWrite_of_busy (s := ackWrite s) h] at hc
    cases hc
    exact ⟨rfl, rfl, rfl, h⟩
  · exact absurd h (by simp [hidle])

/-- Settles O28: by the invariant a running command means BUSY. -/
theorem runningCommandIsUndisturbed : Obligations.RunningCommandIsUndisturbed := by
  intro s t r bout left h hp hb
  have hbusy : s.status.busy = true := by rw [h.busyIffRunning, hp]; rfl
  obtain ⟨hphase, hlatch, hmem, hstill⟩ := busAccess_frame_of_busy hbusy hb
  exact ⟨hphase, hlatch, fun a => by rw [hmem], hstill⟩

/-! ### The parameters -/

@[simp] theorem complete_params (s : State) : (complete s).params = s.params := by
  cases hp : s.phase with
  | idle => rw [complete_idle hp]
  | running bout left => rw [complete_running hp]

@[simp] theorem clockEdge_params (s : State) : (clockEdge s).params = s.params := by
  rcases clockEdge_cases s with e | ⟨-, e⟩ | ⟨_, _, -, -, -, e⟩ | ⟨_, _, -, -, -, e⟩ <;> rw [e]
  exact complete_params s

@[simp] theorem setResetPin_params (level : Bool) (s : State) : (setResetPin level s).params = s.params := by
  cases level with
  | false => rw [setResetPin_low]; rfl
  | true => rw [setResetPin_high]

@[simp] theorem issueIllegal_params (s : State) : (issueIllegal s).params = s.params := by
  unfold issueIllegal
  split <;> rfl

theorem commandWrite_params {s t : State} {w : Word} (h : commandWrite w s = .next t) : t.params = s.params := by
  rcases commandWrite_cases h with ⟨i, -, hx⟩ | ⟨e, -, rfl⟩
  · rcases exec_next_cases hx with ⟨-, rfl⟩ | ⟨-, e, -, rfl⟩ | ⟨-, -, bin, -, rfl⟩ <;> rfl
  · exact issueIllegal_params s

theorem busAccess_params {s t : State} {r : BusReq} (h : busAccess r s = .next t) : t.params = s.params := by
  rcases busAccess_cases h with ⟨b, rfl⟩ | ⟨-, -, ho⟩ | ⟨-, -, rfl⟩ | ⟨-, -, -, hc⟩ | ⟨a, -, -, -, -, rfl⟩
  · rfl
  · rw [ho]; rfl
  · rfl
  · exact commandWrite_params (s := ackWrite s) hc
  · rfl

/-- Settles O58: none of the four things a step can do touches the parameters. -/
theorem parametersNeverChange : Obligations.ParametersNeverChange := by
  intro s t h
  obtain ⟨rest, rfl | ⟨level, rfl⟩ | ⟨-, rfl⟩ | ⟨r, -, -, hb⟩⟩ := step_cases h
  · exact clockEdge_params _
  · exact setResetPin_params level _
  · rfl
  · exact busAccess_params (s := beginStep s rest) hb

/-! ### LATCH while IDLE -/

/-- The state with another value in LATCH. -/
def withLatch (x : Latch) (s : State) : State := { s with latch := x }

/-- Two outcomes that LATCH at most tells apart: the same fault, or next states that differ in LATCH at most, and not at
all once a command runs (R52). -/
inductive LatchAgree : Result → Result → Prop where
  | next {t t' : State} (eqUpToLatch : withLatch t.latch t' = t) (eqOnceRunning : t.phase ≠ .idle → t' = t) :
      LatchAgree (.next t) (.next t')
  | fault (r : Fault) : LatchAgree (.fault r) (.fault r)

theorem LatchAgree.same (t : State) : LatchAgree (.next t) (.next t) := .next rfl fun _ => rfl

theorem LatchAgree.ofIdle {t : State} (h : t.phase = .idle) (x : Latch) :
    LatchAgree (.next t) (.next (withLatch x t)) := .next rfl fun hne => absurd h hne

section
variable {s : State} (x : Latch)

@[simp] theorem withLatch_params : (withLatch x s).params = s.params := rfl
@[simp] theorem withLatch_resetPhase : (withLatch x s).resetPhase = s.resetPhase := rfl
@[simp] theorem withLatch_status : (withLatch x s).status = s.status := rfl
@[simp] theorem withLatch_mem : (withLatch x s).mem = s.mem := rfl

@[simp] theorem validate_withLatch (i : Instr) : validate i (withLatch x s) = validate i s := by
  cases i <;> rfl

@[simp] theorem readReg_withLatch (r : Reg) : readReg (withLatch x s) r = readReg s r := by
  cases r <;> rfl

variable (h : s.phase = .idle)
include h

theorem issue_latchAgree (i : Instr) (f : Latch → List CWord → List CWord) :
    LatchAgree (issue i f s) (issue i f (withLatch x s)) := by
  cases hb : s.status.busy with
  | true =>
    rw [issue_of_busy hb, issue_of_busy (s := withLatch x s) hb]
    exact .ofIdle (t := overrun s) h x
  | false =>
    have hx := validate_withLatch (s := s) x i
    cases hv : validate i s with
    | some e =>
      rw [issue_of_error hb hv, issue_of_error (s := withLatch x s) hb (hx.trans hv)]
      exact .ofIdle (t := reject e s) h x
    | none =>
      cases hw : readWindow s.mem s.base.toNat (windowWords i) with
      | none =>
        rw [issue_of_unwritten hb hv hw, issue_of_unwritten (s := withLatch x s) hb (hx.trans hv) hw]
        exact .fault _
      | some bin =>
        rw [issue_of_window hb hv hw, issue_of_window (s := withLatch x s) hb (hx.trans hv) hw]
        exact .same _

theorem issueIllegal_latchAgree : LatchAgree (.next (issueIllegal s)) (.next (issueIllegal (withLatch x s))) := by
  unfold issueIllegal
  rw [withLatch_status]
  split
  · exact .ofIdle (t := overrun s) h x
  · exact .ofIdle (t := reject .illegalCmd s) h x

theorem commandWrite_latchAgree (w : Word) : LatchAgree (commandWrite w s) (commandWrite w (withLatch x s)) := by
  cases hd : decode w with
  | ok i => simpa only [commandWrite, hd, exec_eq_issue, withLatch_params] using issue_latchAgree x h i (imageOf s.params i)
  | error e => simpa only [commandWrite, hd] using issueIllegal_latchAgree x h

theorem busRead_latchAgree (g : Region) : LatchAgree (busRead g s) (busRead g (withLatch x s)) := by
  cases g with
  | reg r =>
    simp only [busRead, readReg_withLatch]
    exact .ofIdle (t := ackRead (readReg s r) s) h x
  | rom j imag => exact .ofIdle (t := ackRead (romWord s.params j imag) s) h x
  | unmapped => exact .ofIdle (t := busError (some 0) s) h x
  | ram a =>
    simp only [busRead, ramRead]
    rw [withLatch_status, withLatch_mem]
    split
    · exact .fault _
    · split
      · exact .ofIdle (t := ackRead _ s) h x
      · exact .fault _

theorem writeReg_latchAgree (r : Reg) (w : Word) : LatchAgree (writeReg r w s) (writeReg r w (withLatch x s)) := by
  cases r
  case cmd => exact commandWrite_latchAgree x h w
  all_goals exact .next rfl fun hne => absurd h hne

theorem busWrite_latchAgree (g : Region) (w : Word) : LatchAgree (busWrite g w s) (busWrite g w (withLatch x s)) := by
  cases g with
  | reg r => exact writeReg_latchAgree (s := ackWrite s) x h r w
  | rom j imag => exact .ofIdle (t := busError none s) h x
  | unmapped => exact .ofIdle (t := busError (some 0) s) h x
  | ram a =>
    simp only [busWrite, ramWrite]
    rw [withLatch_status]
    split
    · exact .fault _
    · exact .ofIdle (t := ackWrite { s with mem := writeBytes s.mem a (wordBytes w) }) h x

theorem busAccess_latchAgree (r : BusReq) : LatchAgree (busAccess r s) (busAccess r (withLatch x s)) := by
  unfold busAccess
  rw [withLatch_params]
  split
  · exact .ofIdle (t := busError (some 0) s) h x
  · split
    · split
      · exact busWrite_latchAgree x h _ _
      · exact busRead_latchAgree x h _
    · exact .ofIdle (t := busError _ s) h x

theorem clockEdge_latchAgree : LatchAgree (.next (clockEdge s)) (.next (clockEdge (withLatch x s))) := by
  cases hr : s.resetPhase with
  | held =>
    rw [clockEdge_held hr, clockEdge_held (s := withLatch x s) hr]
    exact .ofIdle h x
  | ending =>
    rw [clockEdge_ending hr, clockEdge_ending (s := withLatch x s) hr]
    exact .ofIdle (t := { s with resetPhase := .out }) h x
  | out =>
    rw [clockEdge_idle hr h, clockEdge_idle (s := withLatch x s) hr h]
    exact .ofIdle h x

theorem setResetPin_latchAgree (level : Bool) :
    LatchAgree (.next (setResetPin level s)) (.next (setResetPin level (withLatch x s))) := by
  cases level with
  | false => exact .same _
  | true =>
    rw [setResetPin_high, setResetPin_high]
    exact .next rfl fun hne => absurd h hne

theorem portEvent_latchAgree (e : Event) : LatchAgree (portEvent e s) (portEvent e (withLatch x s)) := by
  cases e with
  | clk => exact clockEdge_latchAgree x h
  | rst level => exact setResetPin_latchAgree x h level
  | bus r =>
    simp only [portEvent]
    rw [withLatch_resetPhase]
    split
    · exact busAccess_latchAgree x h r
    · exact .ofIdle h x

theorem step_latchAgree : LatchAgree (step s) (step (withLatch x s)) := by
  cases ha : s.agenda with
  | nil =>
    rw [step_nil ha, step_nil (s := withLatch x s) ha]
    exact clockEdge_latchAgree (s := beginStep s []) x h
  | cons e rest =>
    rw [step_cons ha, step_cons (s := withLatch x s) ha]
    exact portEvent_latchAgree (s := beginStep s rest) x h e

end

/-- Settles O59: from IDLE every port event acts alike whatever LATCH holds. -/
theorem latchUnreadWhileIdle : Obligations.LatchUnreadWhileIdle := by
  intro s x h
  change (∀ r, step s = .fault r → step (withLatch x s) = .fault r) ∧ ∀ t, step s = .next t →
    ∃ t', step (withLatch x s) = .next t' ∧ withLatch t.latch t' = t ∧ (t.phase ≠ .idle → t' = t)
  have hagree := step_latchAgree x h
  generalize step (withLatch x s) = o at hagree ⊢
  constructor
  · intro r hs
    rw [hs] at hagree
    cases hagree
    rfl
  · intro t hs
    rw [hs] at hagree
    cases hagree with
    | next heq hrun => exact ⟨_, rfl, heq, hrun⟩

/-! ### The registers -/

/-- The first 256 bytes of the offset space are the registers (R36, R72). -/
theorem regionOf_reg (p : Params) {a : Nat} (h : a < 0x100) : regionOf p a = .reg (regAt (a / 4)) := by
  simp [regionOf, h]

theorem regAt_reserved {r : Nat} (h : 10 ≤ r) : regAt r = .reserved := by
  obtain ⟨n, rfl⟩ := Nat.exists_eq_add_of_le' h
  rfl

/-- An aligned read of a register returns its value and has no effect (R36, R79). -/
theorem busAccess_readReg {a : Nat} (h : a < 0x100) (h4 : a % 4 = 0) (s : State) :
    busAccess { we := false, addr := BitVec.ofNat 18 a, wdata := 0, wstrb := 0 } s =
      .next (ackRead (readReg s (regAt (a / 4))) s) := by
  have ha : (BitVec.ofNat 18 a).toNat = a := Nat.mod_eq_of_lt (by omega)
  simp [busAccess, accessLegal, busRead, ha, regionOf_reg _ h, h4, -BitVec.toNat_ofNat]

/-- An aligned write of a register with all four strobes is that register's write (R36, R76). -/
theorem busAccess_writeReg {a : Nat} (h : a < 0x100) (h4 : a % 4 = 0) (v : Word) (s : State) :
    busAccess { we := true, addr := BitVec.ofNat 18 a, wdata := v, wstrb := 0xF#4 } s =
      writeReg (regAt (a / 4)) v (ackWrite s) := by
  have ha : (BitVec.ofNat 18 a).toNat = a := Nat.mod_eq_of_lt (by omega)
  simp [busAccess, accessLegal, busWrite, ha, regionOf_reg _ h, h4, -BitVec.toNat_ofNat]

/-- Settles O29: each offset names its register, and a 16-bit register reads zero-extended. -/
theorem registerReadValues : Obligations.RegisterReadValues := by
  intro s reads
  have hread (a : Nat) (v : Word) (h : a < 0x100 ∧ a % 4 = 0) (hv : readReg s (regAt (a / 4)) = v) : reads a v := by
    subst hv
    exact busAccess_readReg h.1 h.2 s
  have hhalf (b : Half) : b.setWidth 32 = BitVec.ofNat 32 b.toNat := (BitVec.ofNat_toNat 32 b).symm
  refine ⟨hread _ _ (by decide) rfl, hread _ _ (by decide) rfl, hread _ _ (by decide) ?ctrl, hread _ _ (by decide) rfl,
    hread _ _ (by decide) (hhalf s.base), hread _ _ (by decide) (hhalf s.len), hread _ _ (by decide) (hhalf s.arg0),
    hread _ _ (by decide) (hhalf s.arg1), hread _ _ (by decide) (hhalf s.arg2), hread _ _ (by decide) rfl, ?reserved⟩
  case ctrl =>
    change (BitVec.ofBool s.ie).setWidth 32 = if s.ie then 1 else 0
    cases s.ie <;> rfl
  case reserved =>
    intro n hlo hhi h4
    exact hread n 0 ⟨hhi, h4⟩ (by rw [regAt_reserved (by omega)]; rfl)

/-- Settles O30: an operand register keeps the low 16 bits, a reserved offset nothing. -/
theorem registerWriteEffects : Obligations.RegisterWriteEffects := by
  intro s v after
  have hwrite (a : Nat) (t : State) (h : a < 0x100 ∧ a % 4 = 0)
      (ht : writeReg (regAt (a / 4)) v (ackWrite s) = .next (ackWrite t)) : after a t :=
    (busAccess_writeReg h.1 h.2 v s).trans ht
  have hlow : v.extractLsb' 0 16 = v.setWidth 16 := (BitVec.setWidth_eq_extractLsb' (by decide)).symm
  rw [hlow]
  refine ⟨hwrite _ _ (by decide) rfl, hwrite _ _ (by decide) rfl, hwrite _ _ (by decide) rfl, hwrite _ _ (by decide) rfl,
    hwrite _ _ (by decide) rfl, hwrite _ _ (by decide) rfl, hwrite _ _ (by decide) rfl, hwrite _ _ (by decide) rfl, ?_⟩
  intro n hlo hhi h4
  exact hwrite n s ⟨hhi, h4⟩ (by rw [regAt_reserved (by omega)]; rfl)

/-- Settles O31: the write is `hostClear`, whose STATUS is `statusCleared` field by field. -/
theorem statusWriteOneClears : Obligations.StatusWriteOneClears := by
  intro s v
  refine ⟨hostClear v (ackWrite s), busAccess_writeReg (a := 0x00C) (by decide) (by decide) v s, rfl, rfl, ?_⟩
  simp +contextual

/-- Settles O32: STATUS is its fields put together, and each bit below 12 lies in one of them. -/
theorem statusFieldLayout : Obligations.StatusFieldLayout := by
  intro t i
  have h : (statusWord t).getLsbD i = BitVec.getLsbD (w := 20 + 4 + 4 + 1 + 1 + 1 + 1) ((0#20) ++ t.errcode ++ (0#4) ++
      BitVec.ofBool t.ovr ++ BitVec.ofBool t.err ++ BitVec.ofBool t.done ++ BitVec.ofBool t.busy) i := rfl
  simp only [h, BitVec.getLsbD_append]
  rcases Nat.lt_or_ge i 12 with hi | hi
  · interval_cases i <;> simp
  · obtain ⟨j, rfl⟩ := Nat.exists_eq_add_of_le' hi
    simp

/-! ### The reset values -/

/-- Settles O54: the reset state holds each value as it stands, and STATUS with every field 0 is the word 0. -/
theorem resetValues : Obligations.ResetValues := by
  intro p s
  have hstatus : statusWord Status.reset = 0 := by decide
  exact ⟨rfl, rfl, rfl, hstatus, rfl, rfl, rfl, rfl, rfl, rfl, rfl, fun _ => rfl, rfl⟩

end Sys2Proof
end

section
/-! Settles the statements about the unit's memory and its bus (20_memory.md): the address map, bus errors, the host's view of
the twiddle ROM and of the sample RAM, the byte view, and what can change a byte of the sample RAM. -/

namespace Sys2Proof

open Sys2Proof.Machine

/-! ### The address map -/

/-- M is even: half of it is the number of ROM entries (R9, R78). -/
theorem Params.two_mul_half_size (p : Params) : 2 * (p.size / 2) = p.size :=
  Nat.mul_div_cancel' ⟨2 ^ p.maxExp.val, Nat.pow_succ'⟩

theorem Params.size_pos (p : Params) : 0 < p.size := Nat.two_pow_pos _

/-- LOG2_M ≤ 12, so every offset of the ROM and of the sample RAM fits in 18 bits (R9, R70). -/
theorem Params.size_le (p : Params) : p.size ≤ 0x1000 := Nat.pow_le_pow_right (by decide) p.maxExp.isLt

/-- A ROM offset names the entry that holds it and the half of that entry (R78). -/
theorem regionOf_rom {p : Params} {a : Nat} (hlo : 0x10000 ≤ a) (hhi : a < 0x10000 + 4 * p.size) :
    regionOf p a = .rom ((a - 0x10000) / 8) ((a - 0x10000) / 4 % 2 == 1) := by
  unfold regionOf romBase
  rw [if_neg (by omega), if_neg (by omega), if_pos hhi]

/-- The two halves of a ROM entry: the real part at the lower offset (R78). -/
theorem regionOf_romHalves {p : Params} {j : Nat} (hj : j < p.size / 2) :
    regionOf p (0x10000 + 8 * j) = .rom j false ∧ regionOf p (0x10000 + 8 * j + 4) = .rom j true := by
  have hentry : (0x10000 + 8 * j - 0x10000) / 8 = j ∧ (0x10000 + 8 * j + 4 - 0x10000) / 8 = j := by omega
  have hhalf : (0x10000 + 8 * j - 0x10000) / 4 % 2 = 0 ∧ (0x10000 + 8 * j + 4 - 0x10000) / 4 % 2 = 1 := by omega
  constructor
  · rw [regionOf_rom (by omega) (by omega), hentry.1, hhalf.1]; rfl
  · rw [regionOf_rom (by omega) (by omega), hentry.2, hhalf.2]; rfl

/-- A sample RAM offset names itself (R73). -/
theorem regionOf_sampleRam {p : Params} {a : Nat} (hlo : 0x20000 ≤ a) (hhi : a < 0x20000 + 8 * p.size) :
    regionOf p a = .ram a := by
  have hsize := p.size_le
  unfold regionOf romBase ramBase
  rw [if_neg (by omega), if_neg (by omega), if_neg (by omega), if_neg (by omega), if_pos hhi]

/-- The three gaps of the address map: after the registers, after the ROM and after the sample RAM (R72). -/
theorem regionOf_unmapped {p : Params} {a : Nat}
    (h : (0x100 ≤ a ∧ a < 0x10000) ∨ (0x10000 + 4 * p.size ≤ a ∧ a < 0x20000) ∨ 0x20000 + 8 * p.size ≤ a) :
    regionOf p a = .unmapped := by
  have hsize := p.size_le
  unfold regionOf romBase ramBase
  rw [if_neg (by omega)]
  rcases h with ⟨-, h⟩ | ⟨h, h'⟩ | h
  · rw [if_pos h]
  · rw [if_neg (by omega), if_neg (by omega), if_pos h']
  · rw [if_neg (by omega), if_neg (by omega), if_neg (by omega), if_neg (by omega)]

/-- Settles O34: each region and each gap; M being even, the last ROM offset lies in entry M/2 − 1. -/
theorem addressMapRegions : Obligations.AddressMapRegions := by
  intro p a _
  have hpos := p.size_pos
  have heven := p.two_mul_half_size
  refine ⟨fun h => regionOf_reg p (by omega), fun h h' => regionOf_unmapped (.inl ⟨h, by omega⟩),
    fun h h' => ⟨_, _, regionOf_rom h (by omega), by omega⟩,
    fun h h' => regionOf_unmapped (.inr (.inl ⟨h, by omega⟩)), fun h h' => regionOf_sampleRam h (by omega),
    fun h _ => regionOf_unmapped (.inr (.inr h))⟩

/-! ### One transaction, by what is wrong with it -/

/-- An unmapped offset is a bus error with bus_rdata 0, whatever else is wrong (R81). -/
theorem busAccess_unmapped {r : BusReq} {s : State} (h : regionOf s.params r.addr.toNat = .unmapped) :
    busAccess r s = .next (busError (some 0) s) := by
  rw [busAccess, if_pos h]

/-- An illegal access to a mapped offset is a bus error, a read returning 0 (R76). -/
theorem busAccess_illegal {r : BusReq} {s : State} (hmap : regionOf s.params r.addr.toNat ≠ .unmapped)
    (h : accessLegal r = false) : busAccess r s = .next (busError (if r.we then none else some 0) s) := by
  rw [busAccess, if_neg hmap, if_neg (by simp [h])]

theorem busAccess_legalRead {r : BusReq} (h : accessLegal r = true) (hwe : r.we = false) (s : State) :
    busAccess r s = busRead (regionOf s.params r.addr.toNat) s := by
  by_cases hmap : regionOf s.params r.addr.toNat = .unmapped
  · rw [busAccess_unmapped hmap, hmap]; rfl
  · simp [busAccess, hmap, h, hwe]

theorem busAccess_legalWrite {r : BusReq} (h : accessLegal r = true) (hwe : r.we = true) (s : State) :
    busAccess r s = busWrite (regionOf s.params r.addr.toNat) r.wdata s := by
  by_cases hmap : regionOf s.params r.addr.toNat = .unmapped
  · rw [busAccess_unmapped hmap, hmap]; rfl
  · simp [busAccess, hmap, h, hwe]

/-- R76 as an equivalence: aligned, and all four strobes for a write. -/
theorem accessLegal_iff (r : BusReq) :
    accessLegal r = true ↔ r.addr.toNat % 4 = 0 ∧ (r.we = true → r.wstrb = 0xF#4) := by
  cases hwe : r.we <;> simp [accessLegal, hwe]

/-- Settles O35: unmapped, else illegal, else a legal write to the ROM. -/
theorem busErrorsHaveNoEffect : Obligations.BusErrorsHaveNoEffect := by
  intro r s h
  by_cases hmap : regionOf s.params r.addr.toNat = .unmapped
  · exact ⟨some 0, busAccess_unmapped hmap, fun _ => rfl⟩
  · cases hleg : accessLegal r with
    | false =>
      refine ⟨_, busAccess_illegal hmap hleg, ?_⟩
      rintro (hun | ⟨hread, -⟩)
      · exact absurd hun hmap
      · rw [hread]; rfl
    | true =>
      obtain ⟨halign, hstrobe⟩ := (accessLegal_iff r).1 hleg
      rcases h with hun | hmis | ⟨hwe, hpart⟩ | ⟨hwe, j, imag, hrom⟩
      · exact absurd hun hmap
      · exact absurd halign hmis
      · exact absurd (hstrobe hwe) hpart
      · refine ⟨none, ?_, ?_⟩
        · rw [busAccess_legalWrite hleg hwe, hrom]; rfl
        · rintro (hun | ⟨hread, -⟩)
          · exact absurd hun hmap
          · exact absurd hwe (by simp [hread])

/-- Settles O36: of all that a transaction can do, only a change of the bus outputs is open to a read. -/
theorem readsHaveNoSideEffect : Obligations.ReadsHaveNoSideEffect := by
  intro r s t hread hb
  rcases busAccess_cases hb with ⟨b, rfl⟩ | ⟨hwe, -⟩ | ⟨hwe, -⟩ | ⟨hwe, -⟩ | ⟨a, hwe, -⟩
  · rfl
  all_goals exact absurd hwe (by simp [hread])

/-! ### The host's aligned reads and writes -/

theorem busAccess_memRead {a : Nat} (h : a < 2 ^ 18) (h4 : a % 4 = 0) (s : State) :
    busAccess (memRead (BitVec.ofNat 18 a)) s = busRead (regionOf s.params a) s := by
  have ha : (BitVec.ofNat 18 a).toNat = a := Nat.mod_eq_of_lt h
  have hleg : accessLegal (memRead (BitVec.ofNat 18 a)) = true :=
    (accessLegal_iff _).2 ⟨ha.symm ▸ h4, fun hwe => nomatch hwe⟩
  rw [busAccess_legalRead hleg rfl]
  exact congrArg (fun x => busRead (regionOf s.params x) s) ha

theorem busAccess_memWrite {a : Nat} (h : a < 2 ^ 18) (h4 : a % 4 = 0) (v : Word) (s : State) :
    busAccess (memWrite (BitVec.ofNat 18 a) v) s = busWrite (regionOf s.params a) v s := by
  have ha : (BitVec.ofNat 18 a).toNat = a := Nat.mod_eq_of_lt h
  have hleg : accessLegal (memWrite (BitVec.ofNat 18 a) v) = true :=
    (accessLegal_iff _).2 ⟨ha.symm ▸ h4, fun _ => rfl⟩
  rw [busAccess_legalWrite hleg rfl]
  exact congrArg (fun x => busWrite (regionOf s.params x) v s) ha

theorem busRead_rom (j : Nat) (imag : Bool) (s : State) :
    busRead (.rom j imag) s = .next (ackRead (romWord s.params j imag) s) := rfl

@[simp] theorem romWord_re (p : Params) (j : Nat) : romWord p j false = (romEntry p j).re := if_neg (by decide)

@[simp] theorem romWord_im (p : Params) (j : Nat) : romWord p j true = (romEntry p j).im := if_pos rfl

/-- Settles O37: both halves of an entry are aligned ROM offsets. -/
theorem romHostView : Obligations.RomHostView := by
  intro s j hj
  have hsize := s.params.size_le
  obtain ⟨hre, him⟩ := regionOf_romHalves hj
  refine ⟨fun v => ⟨none, none, ?_, ?_⟩, ?_, ?_⟩
  · rw [busAccess_memWrite (by omega) (by omega), hre]; rfl
  · rw [busAccess_memWrite (by omega) (by omega), him]; rfl
  · rw [busAccess_memRead (by omega) (by omega), hre, busRead_rom, romWord_re]; rfl
  · rw [busAccess_memRead (by omega) (by omega), him, busRead_rom, romWord_im]; rfl

theorem ramWrite_idle {s : State} (h : s.status.busy = false) (a : Nat) (v : Word) :
    ramWrite a v s = .next (ackWrite { s with mem := writeBytes s.mem a (wordBytes v) }) := by
  simp [ramWrite, h]

theorem ramRead_idle {s : State} {a : Nat} {v : Word} (h : s.status.busy = false) (hv : readHalf s.mem a = some v) :
    ramRead a s = .next (ackRead v s) := by
  simp [ramRead, h, hv]

/-- Settles O38: the write stores the four bytes of the word, and a half stored is read back. -/
theorem sampleStoreThenLoad : Obligations.SampleStoreThenLoad := by
  intro s a v hidle hlo hhi h4
  have hsize := s.params.size_le
  have hram : regionOf s.params a = .ram a := regionOf_sampleRam hlo hhi
  have hback : readHalf (writeBytes s.mem a (wordBytes v)) a = some v := readHalf_writeBytes_same s.mem a v
  refine ⟨ackWrite { s with mem := writeBytes s.mem a (wordBytes v) }, ?store, ?load,
    fun x hx => readByte_writeBytes_outside s.mem a (wordBytes v) x hx, rfl⟩
  case store =>
    rw [busAccess_memWrite (by omega) h4, hram]
    exact ramWrite_idle hidle a v
  case load =>
    rw [busAccess_memRead (by omega) h4, ackWrite_params, hram]
    exact ramRead_idle hidle hback

/-! ### The views -/

theorem systemOffset_unitBase_add (p : Params) {a : Nat} (h : a < 2 ^ 18) :
    systemOffset p (p.unitBase + a) = some (BitVec.ofNat 18 a) := by
  rw [systemOffset, if_pos ⟨Nat.le_add_right _ _, Nat.add_lt_add_left h _⟩, Nat.add_sub_cancel_left]

/-- The byte at UNIT_BASE + a is byte a mod 4 of the word that holds offset a (R72, R77). -/
theorem systemByte_unitBase_add (s : State) {a : Nat} (h : a < 2 ^ 18) :
    systemByte s (s.params.unitBase + a) = (peek s (a / 4 * 4)).map fun w => w.extractLsb' (8 * (a % 4)) 8 := by
  have ha : (BitVec.ofNat 18 a).toNat = a := Nat.mod_eq_of_lt h
  simp only [systemByte, systemOffset_unitBase_add s.params h, ha]

/-- Settles O41: an aligned offset a is 4·w, so a + b lies in the word at a, at byte b of it. -/
theorem byteViewIsLittleEndian : Obligations.ByteViewIsLittleEndian := by
  intro s a v h h4 hv b hb
  have hword : (a + b) / 4 * 4 = a := by omega
  have hbyte : (a + b) % 4 = b := by omega
  rw [Nat.add_assoc, systemByte_unitBase_add s (by omega), hword, hbyte, hv]
  rfl

/-- Settles O42: the offsets of real samples 2i and 2i + 1 are those of the halves of word base + i. -/
theorem realViewOverlaysComplexWords : Obligations.RealViewOverlaysComplexWords := by
  intro m base i c
  have hre : sampleAddr (base + i) = 0x20000 + 8 * base + 4 * (2 * i) := by rw [sampleAddr, ramBase]; omega
  have him : sampleAddr (base + i) + 4 = 0x20000 + 8 * base + 4 * (2 * i + 1) := by omega
  rw [readSample_eq_some_iff, him, hre]

/-! ### What changes a byte of the sample RAM -/

@[simp] theorem issueIllegal_mem (s : State) : (issueIllegal s).mem = s.mem := by
  unfold issueIllegal
  split <;> rfl

/-- A CMD write changes no sample word: completion does (R231, R232, R234). -/
theorem commandWrite_mem {s t : State} {w : Word} (h : commandWrite w s = .next t) : t.mem = s.mem := by
  rcases commandWrite_cases h with ⟨i, -, hx⟩ | ⟨e, -, rfl⟩
  · rcases exec_next_cases hx with ⟨-, rfl⟩ | ⟨-, e, -, rfl⟩ | ⟨-, -, bin, -, rfl⟩ <;> rfl
  · exact issueIllegal_mem s

/-- A transaction changes a byte only by a legal write, while not BUSY, to the half that holds it (R79). -/
theorem busAccess_byte_changed {s t : State} {r : BusReq} {a : Nat} (h : busAccess r s = .next t)
    (hne : readByte t.mem a ≠ readByte s.mem a) :
    r.we = true ∧ accessLegal r = true ∧ s.status.busy = false ∧ r.addr.toNat ≤ a ∧ a < r.addr.toNat + 4 := by
  rcases busAccess_cases h with ⟨b, rfl⟩ | ⟨-, -, ho⟩ | ⟨-, -, rfl⟩ | ⟨-, -, -, hc⟩ | ⟨x, hwe, hleg, hram, hidle, rfl⟩
  · exact absurd rfl hne
  · exact absurd (by rw [ho]; rfl) hne
  · exact absurd rfl hne
  · exact absurd (by rw [commandWrite_mem hc]; rfl) hne
  · obtain ⟨rfl, -, -⟩ := regionOf_ram hram
    refine ⟨hwe, hleg, hidle, ?_⟩
    by_contra hout
    exact hne (readByte_writeBytes_outside s.mem _ _ a (by rw [wordBytes_length]; omega))

/-- A clock edge changes a byte only as the completion of a command whose window holds it (R91, R233). -/
theorem clockEdge_byte_changed {s : State} {a : Nat} (hne : readByte (clockEdge s).mem a ≠ readByte s.mem a) :
    ∃ bout left, s.phase = .running bout left ∧ left ≤ 1 ∧ (clockEdge s).phase = .idle ∧
      sampleAddr s.latch.base.toNat ≤ a ∧ a < sampleAddr (s.latch.base.toNat + bout.length) := by
  rcases clockEdge_cases s with e | ⟨-, e⟩ | ⟨_, _, -, -, -, e⟩ | ⟨bout, left, -, hp, hlast, e⟩
  · exact absurd (by rw [e]) hne
  · exact absurd (by rw [e]) hne
  · exact absurd (by rw [e]) hne
  · rw [e, complete_running hp] at hne
    refine ⟨bout, left, hp, hlast, by rw [e, complete_running hp], ?_⟩
    by_contra hout
    exact hne (readByte_writeWindow_outside s.mem _ bout a (by omega))

/-- The reset pin changes a byte only by going low, which leaves it unwritten (R281). -/
theorem setResetPin_byte_changed {level : Bool} {s : State} {a : Nat}
    (hne : readByte (setResetPin level s).mem a ≠ readByte s.mem a) :
    level = false ∧ readByte (setResetPin level s).mem a = none := by
  cases level with
  | false => exact ⟨rfl, by rw [setResetPin_low]; rfl⟩
  | true => exact absurd (by rw [setResetPin_high]) hne

/-- Out of reset, a transaction at the head of the agenda is this step's access (R71, R84). -/
theorem step_bus {s : State} {r : BusReq} {rest : List Event} (h : s.agenda = .bus r :: rest)
    (hr : s.resetPhase = .out) : step s = busAccess r (beginStep s rest) := by
  rw [step_cons h]
  exact if_pos hr

/-- Before the unit has left reset a transaction is taken off the agenda without effect (R280, log 7). -/
theorem step_bus_inReset {s : State} {r : BusReq} {rest : List Event} (h : s.agenda = .bus r :: rest)
    (hr : s.resetPhase ≠ .out) : step s = .next (beginStep s rest) := by
  rw [step_cons h]
  exact if_neg hr

/-- Settles O60: a step is a clock edge, a level of the reset pin, or a transaction, the last only out of reset. -/
theorem sampleRamChangesOnlyByWriteCompletionOrReset : Obligations.SampleRamChangesOnlyByWriteCompletionOrReset := by
  intro s t a hs hne
  cases hag : s.agenda with
  | nil =>
    rw [step_nil hag] at hs
    cases hs
    exact .inr (.inl (clockEdge_byte_changed (s := beginStep s []) hne))
  | cons e rest =>
    cases e with
    | clk =>
      rw [step_cons hag] at hs
      cases hs
      exact .inr (.inl (clockEdge_byte_changed (s := beginStep s rest) hne))
    | rst level =>
      rw [step_cons hag] at hs
      cases hs
      obtain ⟨rfl, hnone⟩ := setResetPin_byte_changed (s := beginStep s rest) hne
      exact .inr (.inr ⟨rest, rfl, hnone⟩)
    | bus r =>
      by_cases hout : s.resetPhase = .out
      · rw [step_bus hag hout] at hs
        obtain ⟨hwe, hleg, hidle, hrange⟩ := busAccess_byte_changed (s := beginStep s rest) hs hne
        exact .inl ⟨r, rest, rfl, hout, hwe, hleg, hidle, hrange⟩
      · rw [step_bus_inReset hag hout] at hs
        cases hs
        exact absurd rfl hne

/-! ### The word of a CMD write -/

/-- A table word of 32 bits is the word itself (R107). -/
@[simp] theorem tableWord_toNat (w : Word) : tableWord 32 w.toNat = w := by
  rw [tableWord, Nat.mod_eq_of_lt w.isLt, BitVec.ofNat_toNat, BitVec.setWidth_eq]

theorem commandWrite_of_decode {w : Word} {i : Instr} (h : decode w = .ok i) (s : State) :
    commandWrite w s = exec i s := by
  simp only [commandWrite, h]

/-- Settles O6: the event that `withFetchWord` puts first is the CMD write of the word, and it takes the unit out of reset. -/
theorem fetchedWordRunsNext : Obligations.FetchedWordRunsNext := by
  intro s w s'
  have hrun : step (s.withFetchWord 32 w.toNat) = commandWrite w s' := by
    rw [State.withFetchWord, tableWord_toNat, step_bus rfl rfl]
    exact busAccess_writeReg (a := 0x024) (by decide) (by decide) w _
  exact ⟨hrun, fun i hi => hrun.trans (commandWrite_of_decode hi s')⟩

end Sys2Proof
end

section
/-! Settles the statements about the command word (30_encoding.md): the decoder against the encoder, the ILLEGAL words and
their rejection, the rows of R103, and the operands that decode but are out of range. -/

namespace Sys2Proof

open Sys2Proof.Machine

/-! ### The word of a command, by its fields (R103) -/

theorem encode_nop_eq_of_fields {w : Word} (hr : reservedField w = 0) (hop : opField w = 0) (hl : sizeField w = 0)
    (hst : stageField w = 0) : encode .nop = w := by
  rw [← commandWord_fields w hr, hop, hl, hst]
  rfl

theorem encode_stage_eq_of_fields {w : Word} (hr : reservedField w = 0) (hop : opField w = 2) :
    encode (.stage (sizeField w) (stageField w)) = w := by
  conv_rhs => rw [← commandWord_fields w hr, hop]
  rfl

theorem encode_of_sizedCommand {op l : Nibble} {i : Instr} (h : sizedCommand op l = some i) :
    encode i = commandWord op l 0 := by
  unfold sizedCommand at h
  split_ifs at h
  all_goals
    cases h
    subst op
    rfl

theorem encode_sized_eq_of_fields {w : Word} {i : Instr} (hr : reservedField w = 0) (hst : stageField w = 0)
    (h : sizedCommand (opField w) (sizeField w) = some i) : encode i = w := by
  rw [← commandWord_fields w hr, hst]
  exact encode_of_sizedCommand h

/-! ### Decode and encode -/

theorem decode_of_reserved {w : Word} (h : reservedField w ≠ 0) : decode w = .error .reservedBits := if_pos h

/-- A word that decodes is the word of its command: each legal branch of R104 has looked at every field that the command
does not read. -/
theorem encode_of_decode {w : Word} {i : Instr} (h : decode w = .ok i) : encode i = w := by
  by_cases hr : reservedField w = 0
  case neg => exact absurd h (by simp [decode_of_reserved hr])
  simp only [decode, hr, ne_eq, not_true_eq_false, if_false] at h
  split_ifs at h with h0 hzero h2 hst
  · cases h
    exact encode_nop_eq_of_fields hr h0 hzero.1 hzero.2
  · cases h
    exact encode_stage_eq_of_fields hr h2
  · cases hsized : sizedCommand (opField w) (sizeField w) with
    | none => simp [hsized] at h
    | some j =>
      rw [hsized] at h
      cases h
      exact encode_sized_eq_of_fields hr hst hsized
  · cases hsized : sizedCommand (opField w) (sizeField w) <;> simp [hsized] at h

theorem decode_eq_ok_iff (w : Word) (i : Instr) : decode w = .ok i ↔ encode i = w :=
  ⟨encode_of_decode, fun h => h ▸ decode_encode i⟩

theorem encode_injective {i j : Instr} (h : encode i = encode j) : i = j :=
  Except.ok.inj (((decode_eq_ok_iff _ i).2 h).symm.trans (decode_encode j))

/-- Settles O1: the decoder reads every command back, and a word that decodes is put together from its fields. -/
theorem decodeInvertsEncode : Obligations.DecodeInvertsEncode := decode_eq_ok_iff

/-- A word is ILLEGAL exactly when it is no command's word. -/
theorem decode_error_iff_no_command (w : Word) : (∃ e, decode w = .error e) ↔ ¬ ∃ i, encode i = w := by
  simp only [← decode_eq_ok_iff]
  cases decode w <;> simp

/-! ### The ILLEGAL words -/

/-- R105's list, by the fields of the word: RSV not zero, OP reserved, or a field that the operation does not read not zero. -/
def IllegalFields (w : Word) : Prop :=
  reservedField w ≠ 0 ∨ 7 ≤ (opField w).toNat ∨ (opField w = 0 ∧ (sizeField w ≠ 0 ∨ stageField w ≠ 0)) ∨
    ((opField w = 1 ∨ opField w = 3 ∨ opField w = 4 ∨ opField w = 5 ∨ opField w = 6) ∧ stageField w ≠ 0)

/-- The operations of R104: NOP, STAGE, the five that require S = 0, the reserved ones. -/
theorem opcode_cases (op : Nibble) :
    op = 0 ∨ op = 2 ∨ (op = 1 ∨ op = 3 ∨ op = 4 ∨ op = 5 ∨ op = 6) ∨ 7 ≤ op.toNat := by
  revert op
  decide

theorem exists_sizedCommand {op : Nibble} (h : op = 1 ∨ op = 3 ∨ op = 4 ∨ op = 5 ∨ op = 6) (l : Nibble) :
    ∃ i, sizedCommand op l = some i := by
  rcases h with rfl | rfl | rfl | rfl | rfl <;> exact ⟨_, rfl⟩

theorem not_illegalFields_encode (i : Instr) : ¬ IllegalFields (encode i) := by
  cases i <;> simp [IllegalFields, encode]

/-- A word that R105 does not list is a command's word. -/
theorem exists_encode_of_not_illegalFields {w : Word} (h : ¬ IllegalFields w) : ∃ i, encode i = w := by
  simp only [IllegalFields, not_or, not_and, ne_eq, not_not] at h
  obtain ⟨hr, hreserved, hnop, hsized⟩ := h
  rcases opcode_cases (opField w) with h0 | h2 | hS | h7
  · obtain ⟨hl, hst⟩ := hnop h0
    exact ⟨_, encode_nop_eq_of_fields hr h0 hl hst⟩
  · exact ⟨_, encode_stage_eq_of_fields hr h2⟩
  · obtain ⟨i, hi⟩ := exists_sizedCommand hS (sizeField w)
    exact ⟨i, encode_sized_eq_of_fields hr (hsized hS) hi⟩
  · exact absurd h7 hreserved

theorem decode_error_iff (w : Word) : (∃ e, decode w = .error e) ↔ IllegalFields w := by
  rw [decode_error_iff_no_command]
  constructor
  · exact fun h => by_contra fun hn => h (exists_encode_of_not_illegalFields hn)
  · rintro h ⟨i, rfl⟩
    exact not_illegalFields_encode i h

theorem commandWrite_of_illegal {w : Word} {e : DecodeError} {s : State} (h : decode w = .error e)
    (hidle : s.status.busy = false) : commandWrite w s = .next (reject .illegalCmd s) := by
  simp [commandWrite, h, issueIllegal, hidle]

/-- Settles O3: R105's list leaves out the words of the commands and no others, and R242's rejection changes STATUS alone. -/
theorem illegalWordsAreRejected : Obligations.IllegalWordsAreRejected :=
  ⟨decode_error_iff, fun _ _ _ h hidle => commandWrite_of_illegal h hidle⟩

/-! ### The rows of R103 -/

/-- A word matches a row field by field. -/
theorem fields_of_rowMatches {w : Word} {r : OpcodeRow} (h : rowMatches w r = true) :
    reservedField w &&& reservedField r.mask = reservedField r.pattern ∧
      opField w &&& opField r.mask = opField r.pattern ∧
      sizeField w &&& sizeField r.mask = sizeField r.pattern ∧
      stageField w &&& stageField r.mask = stageField r.pattern := by
  have hand {start len : Nat} := BitVec.extractLsb'_and (x := w) (y := r.mask) (start := start) (len := len)
  rw [← beq_iff_eq.1 h]
  exact ⟨hand.symm, hand.symm, hand.symm, hand.symm⟩

/-- A field that the mask keeps whole is the pattern's. -/
theorem eq_of_and_allOnes {n : Nat} {x mask pattern : BitVec n} (h : x &&& mask = pattern)
    (hmask : mask = BitVec.allOnes n) : x = pattern := by
  rw [← h, hmask, BitVec.and_allOnes]

/-- Every row fixes RSV, at zero, and OP. -/
theorem row_fixes_reserved_and_op : ∀ r ∈ opcodeRows, reservedField r.mask = BitVec.allOnes 20 ∧
    reservedField r.pattern = 0 ∧ opField r.mask = BitVec.allOnes 4 := by decide

/-- A word that matches a row is the word of a command of that row: the mask leaves open only what the command reads. -/
theorem exists_encode_of_rowMatches {w : Word} {r : OpcodeRow} (hmem : r ∈ opcodeRows) (h : rowMatches w r = true) :
    ∃ i, encode i = w ∧ rowOf i = r := by
  obtain ⟨hreserved, hop, hl, hst⟩ := fields_of_rowMatches h
  obtain ⟨hrmask, hrzero, hopmask⟩ := row_fixes_reserved_and_op r hmem
  have hr : reservedField w = 0 := (eq_of_and_allOnes hreserved hrmask).trans hrzero
  replace hop : opField w = opField r.pattern := eq_of_and_allOnes hop hopmask
  have hsized {i : Instr} (hmask : stageField r.mask = BitVec.allOnes 4) (hzero : stageField r.pattern = 0)
      (hi : sizedCommand (opField r.pattern) (sizeField w) = some i) : encode i = w :=
    encode_sized_eq_of_fields hr ((eq_of_and_allOnes hst hmask).trans hzero) (hop ▸ hi)
  simp only [opcodeRows, List.mem_cons, List.not_mem_nil, or_false] at hmem
  rcases hmem with rfl | rfl | rfl | rfl | rfl | rfl | rfl
  · exact ⟨.nop, encode_nop_eq_of_fields hr hop (eq_of_and_allOnes hl rfl) (eq_of_and_allOnes hst rfl), rfl⟩
  · exact ⟨.bitrev _, hsized rfl rfl rfl, rfl⟩
  · exact ⟨.stage _ _, encode_stage_eq_of_fields hr hop, rfl⟩
  · exact ⟨.bfly _, hsized rfl rfl rfl, rfl⟩
  · exact ⟨.cfft _, hsized rfl rfl rfl, rfl⟩
  · exact ⟨.rpost _, hsized rfl rfl rfl, rfl⟩
  · exact ⟨.rfft _, hsized rfl rfl rfl, rfl⟩

theorem rowMatches_encode (i : Instr) : rowMatches (encode i) (rowOf i) = true := by
  cases i with
  | nop => exact Laws.OpcodeRow.nop.1
  | bitrev l => exact (Laws.OpcodeRow.bitrev l).1
  | stage l st => exact (Laws.OpcodeRow.stage l st).1
  | bfly l => exact (Laws.OpcodeRow.bfly l).1
  | cfft l => exact (Laws.OpcodeRow.cfft l).1
  | rpost l => exact (Laws.OpcodeRow.rpost l).1
  | rfft l => exact (Laws.OpcodeRow.rfft l).1

theorem rowMatches_encode_iff (i : Instr) {r : OpcodeRow} (hmem : r ∈ opcodeRows) :
    rowMatches (encode i) r = true ↔ rowOf i = r := by
  constructor
  · intro h
    obtain ⟨j, hj, hrow⟩ := exists_encode_of_rowMatches hmem h
    exact encode_injective hj ▸ hrow
  · rintro rfl
    exact rowMatches_encode i

/-- Of the rows of R103 a command's word matches its own alone. -/
theorem filter_rowMatches_encode (i : Instr) : opcodeRows.filter (rowMatches (encode i)) = [rowOf i] := by
  have hown : ∀ r ∈ opcodeRows, rowMatches (encode i) r = decide (rowOf i = r) := fun r hmem =>
    Bool.eq_iff_iff.2 ((rowMatches_encode_iff i hmem).trans decide_eq_true_iff.symm)
  rw [List.filter_congr hown]
  cases i <;> rfl

theorem filter_rowMatches_of_error {w : Word} (h : ∃ e, decode w = .error e) :
    opcodeRows.filter (rowMatches w) = [] := by
  refine List.filter_eq_nil_iff.2 fun r hmem hmatch => ?_
  obtain ⟨i, hi, -⟩ := exists_encode_of_rowMatches hmem hmatch
  exact (decode_error_iff_no_command w).1 h ⟨i, hi⟩

/-- R104's first sentence: no row and ILLEGAL, or one row and its command. -/
theorem illegal_or_one_row (w : Word) :
    ((∃ e, decode w = .error e) ∧ opcodeRows.filter (rowMatches w) = []) ∨
      (∃ i, decode w = .ok i ∧ opcodeRows.filter (rowMatches w) = [rowOf i]) := by
  by_cases h : ∃ i, encode i = w
  · obtain ⟨i, rfl⟩ := h
    exact .inr ⟨i, decode_encode i, filter_rowMatches_encode i⟩
  · have herr := (decode_error_iff_no_command w).2 h
    exact .inl ⟨herr, filter_rowMatches_of_error herr⟩

/-! ### Operands out of range -/

theorem sizeInRange_of_supported {p : Params} {i : Instr} {l : Nibble} (h : sizeUnsupported p i = false)
    (hl : i.sizeExp = l.toNat) : sizeInRange p.log2M l = true := by
  rw [sizeUnsupported_eq_false_iff, hl] at h
  simpa [sizeInRange] using h

theorem stageInRange_of_not_outOfRange {l st : Nibble} (h : stageOutOfRange l st = false) :
    stageInRange l st = true := by
  simp only [stageOutOfRange, Bool.or_eq_false_iff, beq_eq_false_iff_ne, decide_eq_false_iff_not] at h
  simp only [stageInRange, Bool.and_eq_true, decide_eq_true_eq]
  omega

/-- The checks of R243 and R244 cover the legal ranges of R106. -/
theorem wellFormed_of_checks {i : Instr} {s : State} (hsize : sizeUnsupported s.params i = false)
    (hargs : argsBad i s = false) : i.wellFormed s.params.log2M = true := by
  cases i with
  | nop => rfl
  | stage l st =>
    exact Bool.and_eq_true_iff.2 ⟨sizeInRange_of_supported hsize rfl, stageInRange_of_not_outOfRange hargs⟩
  | _ => exact sizeInRange_of_supported hsize rfl

/-- A command out of R106's ranges fails the size check or else the argument check, the first two of R247. -/
theorem validate_of_not_wellFormed {i : Instr} {s : State} (h : i.wellFormed s.params.log2M = false) :
    validate i s = some .unsupportedSize ∨ validate i s = some .badArg := by
  have hne : i ≠ .nop := by
    rintro rfl
    cases h
  rw [validate_eq_sized hne, validateSized]
  cases hsize : sizeUnsupported s.params i with
  | true => exact .inl rfl
  | false =>
    cases hargs : argsBad i s with
    | true => exact .inr rfl
    | false => exact absurd (wellFormed_of_checks hsize hargs) (by simp [h])

theorem exec_of_error {i : Instr} {s : State} {e : ErrorKind} (hidle : s.status.busy = false)
    (hv : validate i s = some e) : exec i s = .next (reject e s) :=
  (exec_eq_issue i s).trans (issue_of_error hidle hv)

/-- Settles O2: a command's word matches its row alone, an ILLEGAL word none; the clauses of the pseudocode are words of
commands and clauses of R105. -/
theorem decodeMatchesExactlyOneRow : Obligations.DecodeMatchesExactlyOneRow := by
  intro w
  have hok {i : Instr} (h : encode i = w) : decode w = .ok i := (decode_eq_ok_iff w i).2 h
  have herror (h : IllegalFields w) : ∃ e, decode w = .error e := (decode_error_iff w).2 h
  refine ⟨illegal_or_one_row w, fun hr => herror (.inl hr), fun hr => ?pseudocode, fun i s _ hidle hwf => ?outOfRange⟩
  case pseudocode =>
    have hsized {i : Instr} (hst : stageField w = 0) (h : sizedCommand (opField w) (sizeField w) = some i) :
        decode w = .ok i := hok (encode_sized_eq_of_fields hr hst h)
    refine ⟨fun hop hl hst => hok (encode_nop_eq_of_fields hr hop hl hst),
      fun hop hst => hsized hst (by rw [hop]; rfl),
      fun hop => hok (encode_stage_eq_of_fields hr hop),
      fun hop hst => hsized hst (by rw [hop]; rfl),
      fun hop hst => hsized hst (by rw [hop]; rfl),
      fun hop hst => hsized hst (by rw [hop]; rfl),
      fun hop hst => hsized hst (by rw [hop]; rfl),
      fun h2 h0 hst => herror ?unreadStage,
      fun h0 hne => herror (.inr (.inr (.inl ⟨h0, hne⟩))),
      fun h7 => herror (.inr (.inl h7))⟩
    rcases opcode_cases (opField w) with h | h | h | h
    · exact absurd h h0
    · exact absurd h h2
    · exact .inr (.inr (.inr ⟨h, hst⟩))
    · exact .inr (.inl h)
  case outOfRange =>
    rcases validate_of_not_wellFormed hwf with hv | hv
    · exact .inl (exec_of_error hidle hv)
    · exact .inr (exec_of_error hidle hv)

/-- Settles O4: the words of seven commands, then one with S not zero where it is not read, and one with OP reserved. -/
theorem writtenOutWordsDecode : Obligations.WrittenOutWordsDecode :=
  ⟨decode_encode .nop, decode_encode (.bitrev 5), decode_encode (.stage 7 3), decode_encode (.bfly 2),
    decode_encode (.cfft 12), decode_encode (.rpost 3), decode_encode (.rfft 4), rfl, rfl⟩

end Sys2Proof
end

section
/-! Settles the statements about the tables (40_tables.md): the bit-reversal function, and the twiddle ROM's values, exact
entries, symmetries and size-n tables, each read off the full circle of 4096 steps that every ROM is a part of. -/

namespace Sys2Proof

open Sys2Proof.Machine

/-! ### Bit reversal -/

/-- Settles O52: by induction on L; bit 0 goes to place L − 1 and the rest is the reversal of i / 2. -/
theorem revMirrorsBits : Obligations.RevMirrorsBits := by
  intro l
  induction l with
  | zero => exact fun _ => rfl
  | succ l ih =>
    intro i
    have hlow : (i.testBit 0).toNat = i % 2 := by rw [Nat.toNat_testBit, pow_zero, Nat.div_one]
    rw [rev_succ, ih, Finset.sum_range_succ', hlow, add_comm]
    refine congrArg (· + _) (Finset.sum_congr rfl fun b _ => ?_)
    rw [Nat.testBit_add_one, Nat.add_sub_cancel, Nat.sub_sub, Nat.add_comm 1]

/-- The other end of `rev_succ`: the top bit becomes bit 0. -/
theorem rev_succ_of_topBit (l : Nat) {b i : Nat} (hb : b < 2) (hi : i < 2 ^ l) :
    rev (l + 1) (b * 2 ^ l + i) = 2 * rev l i + b := by
  induction l generalizing i with
  | zero =>
    obtain rfl : i = 0 := Nat.lt_one_iff.1 hi
    rw [rev_succ]
    simpa using hb
  | succ l ih =>
    have htop : b * 2 ^ (l + 1) = 2 * (b * 2 ^ l) := by ring
    have hbit : (b * 2 ^ (l + 1) + i) % 2 = i % 2 := by omega
    have hrest : (b * 2 ^ (l + 1) + i) / 2 = b * 2 ^ l + i / 2 := by omega
    rw [rev_succ, hbit, hrest, ih (by omega), rev_succ l i]
    ring

theorem rev_rev {l i : Nat} (hi : i < 2 ^ l) : rev l (rev l i) = i := by
  induction l generalizing i with
  | zero => exact (Nat.lt_one_iff.1 hi).symm
  | succ l ih =>
    rw [rev_succ l i, rev_succ_of_topBit l (Nat.mod_lt i two_pos) (rev_lt l _), ih (by omega), Nat.div_add_mod]

/-- Settles O53: the range and the involution, each by induction on L. -/
theorem revIsInvolution : Obligations.RevIsInvolution := fun l i hi => ⟨rev_lt l i, rev_rev hi⟩

/-! ### Every ROM is a part of the full circle -/

/-- The step of the full circle that entry j of a unit's ROM stands at: j/M of 4096. -/
def circlePos (p : Params) (j : Nat) : Nat := j * 2 ^ (12 - p.log2M)

/-- The entry at a step of the full circle. -/
def circleEntry (i : Nat) : CWord := { re := circleCos i, im := circleNegSin i }

theorem romEntry_eq_circleEntry (p : Params) (j : Nat) : romEntry p j = circleEntry (circlePos p j) := rfl

theorem circlePos_size (p : Params) : circlePos p p.size = 4096 := by
  have hle : p.log2M ≤ 12 := p.maxExp.isLt
  rw [circlePos, Params.size, ← pow_add, Nat.add_sub_cancel' hle]
  rfl

theorem circlePos_mul (p : Params) (k j : Nat) : circlePos p (k * j) = k * circlePos p j := Nat.mul_assoc _ _ _

theorem circlePos_sub (p : Params) (i j : Nat) : circlePos p (i - j) = circlePos p i - circlePos p j :=
  Nat.sub_mul _ _ _

theorem circlePos_div (p : Params) {d j : Nat} (h : d ∣ j) : circlePos p (j / d) = circlePos p j / d :=
  Nat.div_mul_right_comm h _

theorem circlePos_half_size (p : Params) : circlePos p (p.size / 2) = 2048 := by
  rw [circlePos_div p ⟨_, p.two_mul_half_size.symm⟩, circlePos_size]

theorem circlePos_le {p : Params} {i j : Nat} (h : i ≤ j) : circlePos p i ≤ circlePos p j :=
  Nat.mul_le_mul_right _ h

theorem circlePos_lt {p : Params} {i j : Nat} (h : i < j) : circlePos p i < circlePos p j :=
  Nat.mul_lt_mul_of_pos_right h (Nat.two_pow_pos _)

theorem circlePos_lt_half {p : Params} {j : Nat} (h : j < p.size / 2) : circlePos p j < 2048 :=
  circlePos_half_size p ▸ circlePos_lt h

/-- A size that is no larger divides: both are powers of two. -/
theorem Params.pow_dvd_size {p : Params} {e : Nat} (h : 2 ^ e ≤ p.size) : 2 ^ e ∣ p.size :=
  Nat.pow_dvd_pow 2 ((Nat.pow_le_pow_iff_right (by decide)).1 h)

/-- The entry at the fraction k/2^e of M stands at that fraction of the full circle, in every unit that has it. -/
theorem romEntry_fraction {p : Params} {e : Nat} (k : Nat) (h : 2 ^ e ≤ p.size) :
    romEntry p (k * p.size / 2 ^ e) = circleEntry (k * 4096 / 2 ^ e) := by
  rw [romEntry_eq_circleEntry, circlePos_div p ((Params.pow_dvd_size h).mul_left k), circlePos_mul, circlePos_size]

/-- Settles O50: k steps of M/n of the large ROM and k steps of the small one are the same part of the circle. -/
theorem twiddlesShareOneRom : Obligations.TwiddlesShareOneRom := by
  intro p q k hle _
  have hdvd : q.size ∣ p.size := Nat.pow_dvd_pow 2 hle
  have hstep : circlePos p (p.size / q.size) = circlePos q 1 := by
    have hq : circlePos q q.size = q.size * circlePos q 1 := by rw [← circlePos_mul, mul_one]
    rw [circlePos_div p hdvd, circlePos_size, ← circlePos_size q, hq]
    exact Nat.mul_div_cancel_left _ q.size_pos
  calc twiddle p q.log2M k = circleEntry (circlePos p (k * (p.size / q.size))) := rfl
    _ = circleEntry (circlePos q k) := by rw [circlePos_mul, hstep, ← circlePos_mul, mul_one]

/-! ### Exact entries -/

/-- R132's values, at the multiples of 4096/16 of the full circle. -/
theorem circleEntry_sixteenths :
    circleEntry 0 = { re := 0x3F800000, im := 0x00000000 } ∧
    circleEntry 256 = { re := 0x3F6C835E, im := 0xBEC3EF15 } ∧
    circleEntry 512 = { re := 0x3F3504F3, im := 0xBF3504F3 } ∧
    circleEntry 768 = { re := 0x3EC3EF15, im := 0xBF6C835E } ∧
    circleEntry 1024 = { re := 0x00000000, im := 0xBF800000 } ∧
    circleEntry 1280 = { re := 0xBEC3EF15, im := 0xBF6C835E } ∧
    circleEntry 1536 = { re := 0xBF3504F3, im := 0xBF3504F3 } ∧
    circleEntry 1792 = { re := 0xBF6C835E, im := 0xBEC3EF15 } := by
  decide +kernel

/-- Settles O49: each entry stands at a sixteenth of the full circle, where R132's values are evaluated once. -/
theorem romExactEntries : Obligations.RomExactEntries := by
  intro p
  obtain ⟨h0, h1, h2, h3, h4, h5, h6, h7⟩ := circleEntry_sixteenths
  have hone (e : Nat) (h : 2 ^ e ≤ p.size) : romEntry p (p.size / 2 ^ e) = circleEntry (4096 / 2 ^ e) := by
    simpa using romEntry_fraction 1 h
  refine ⟨?_, fun h => (hone 2 h).trans h4,
    fun h => ⟨(hone 3 h).trans h2, (romEntry_fraction (e := 3) 3 h).trans h6⟩,
    fun h => ⟨(hone 4 h).trans h1, (romEntry_fraction (e := 4) 3 h).trans h3,
      (romEntry_fraction (e := 4) 5 h).trans h5, (romEntry_fraction (e := 4) 7 h).trans h7⟩⟩
  rw [romEntry_eq_circleEntry, circlePos, Nat.zero_mul, h0]

/-! ### Quadrant symmetries -/

/-- A quadrant value is a rounded magnitude, which leaves bit 31 free. -/
theorem quadrantCos_lt (j : Nat) : quadrantCos j < 2 ^ 31 := by
  have hround (r : Nat × Nat) : roundFraction r < 2 ^ 31 := lt_of_le_of_lt (Nat.min_le_right _ _) (by norm_num)
  unfold quadrantCos
  split
  · exact hround _
  · exact hround _

theorem value32_packSign_true {m : Nat} (h : m < 2 ^ 31) : value32 (packSign true m) = -value32 (packSign false m) := by
  have hmag : magnitude (packSign true m) = magnitude (packSign false m) := by
    simp only [magnitude, expField_packSign h, fracField_packSign h]
  simp [value32, exactValue, signBit_packSign h, hmag, neg_div]

theorem value32_zero32 : value32 (zero32 false) = 0 := by
  have h : exactValue (zero32 false) = 0 := by decide +kernel
  simp [value32, h]

/-- The value of the quadrant's entry j. -/
def quadrantValue (j : Nat) : ℚ := value32 (packSign false (quadrantCos j))

theorem value32_packSign_true_quadrantCos (j : Nat) : value32 (packSign true (quadrantCos j)) = -quadrantValue j :=
  value32_packSign_true (quadrantCos_lt j)

theorem quadrantValue_quarter : quadrantValue 1024 = 0 := by
  rw [quadrantValue, quadrantCos_quarter]
  exact value32_zero32

theorem value32_circleCos_of_le {i : Nat} (h : i ≤ 1024) : value32 (circleCos i) = quadrantValue i := by
  rw [circleCos, if_pos h, quadrantValue]

theorem value32_circleCos_of_ge {i : Nat} (h : 1024 ≤ i) : value32 (circleCos i) = -quadrantValue (2048 - i) := by
  rcases h.eq_or_lt with rfl | hlt
  · rw [value32_circleCos_of_le le_rfl, quadrantValue_quarter, neg_zero]
  · rw [circleCos, if_neg (by omega), value32_packSign_true_quadrantCos]

theorem circleNegSin_zero : circleNegSin 0 = zero32 false := if_pos rfl

theorem circleNegSin_of_le {i : Nat} (h0 : 0 < i) (h : i ≤ 1024) :
    circleNegSin i = packSign true (quadrantCos (1024 - i)) := by
  rw [circleNegSin, if_neg h0.ne', if_pos h]

theorem circleNegSin_of_ge {i : Nat} (h : 1024 ≤ i) : circleNegSin i = packSign true (quadrantCos (i - 1024)) := by
  rcases h.eq_or_lt with rfl | hlt
  · exact circleNegSin_of_le (by decide) le_rfl
  · rw [circleNegSin, if_neg (by omega), if_neg (by omega)]

theorem value32_circleNegSin_of_le {i : Nat} (h : i ≤ 1024) :
    value32 (circleNegSin i) = -quadrantValue (1024 - i) := by
  rcases Nat.eq_zero_or_pos i with rfl | hpos
  · rw [circleNegSin_zero, Nat.sub_zero, quadrantValue_quarter, value32_zero32, neg_zero]
  · rw [circleNegSin_of_le hpos h, value32_packSign_true_quadrantCos]

theorem value32_circleCos_half_sub {i : Nat} (h : i ≤ 2048) :
    value32 (circleCos (2048 - i)) = -value32 (circleCos i) := by
  rcases le_total i 1024 with hi | hi
  · rw [value32_circleCos_of_le hi, value32_circleCos_of_ge (by omega), Nat.sub_sub_self h]
  · rw [value32_circleCos_of_ge hi, value32_circleCos_of_le (by omega), neg_neg]

theorem circleNegSin_half_sub {i : Nat} (h0 : 0 < i) (h : i < 2048) : circleNegSin (2048 - i) = circleNegSin i := by
  rcases le_total i 1024 with hi | hi
  · have hback : 2048 - i - 1024 = 1024 - i := by omega
    rw [circleNegSin_of_ge (by omega), circleNegSin_of_le h0 hi, hback]
  · have hback : 1024 - (2048 - i) = i - 1024 := by omega
    rw [circleNegSin_of_le (by omega) (by omega), circleNegSin_of_ge hi, hback]

theorem value32_circleCos_eq_neg_circleNegSin {i : Nat} (h : i ≤ 1024) :
    value32 (circleCos i) = -value32 (circleNegSin (1024 - i)) := by
  rw [value32_circleCos_of_le h, value32_circleNegSin_of_le (Nat.sub_le _ _), Nat.sub_sub_self h, neg_neg]

/-- Settles O51: M/2 and M/4 of any ROM are steps 2048 and 1024 of the full circle, whose symmetries these are. -/
theorem romQuadrantSymmetry : Obligations.RomQuadrantSymmetry := by
  intro p j
  simp only [romEntry_eq_circleEntry, circlePos_sub, circlePos_half_size, circleEntry]
  refine ⟨fun h0 hj => ?_, fun h4 hj => ?_⟩
  · have hlt : circlePos p j < 2048 := circlePos_lt_half hj
    have hpos : 0 < circlePos p j := Nat.mul_pos h0 (Nat.two_pow_pos _)
    exact ⟨value32_circleCos_half_sub hlt.le, circleNegSin_half_sub hpos hlt⟩
  · have hquarter : circlePos p (p.size / 4) = 1024 := by
      rw [circlePos_div p (d := 4) (Params.pow_dvd_size (e := 2) h4), circlePos_size]
    rw [hquarter]
    exact value32_circleCos_eq_neg_circleNegSin (hquarter ▸ circlePos_le hj)

/-! ### The correctly rounded ROM -/

/-- The angle at a step of the full circle. -/
noncomputable def circleAngle (i : Nat) : ℝ := 2 * Real.pi * i / 4096

theorem circleAngle_circlePos (p : Params) (j : Nat) : 2 * Real.pi * j / p.size = circleAngle (circlePos p j) := by
  have hcast : (p.size : ℝ) * (2 ^ (12 - p.log2M) : ℕ) = 4096 := mod_cast circlePos_size p
  have hsize : (p.size : ℝ) ≠ 0 := mod_cast p.size_pos.ne'
  rw [circleAngle, circlePos, Nat.cast_mul, div_eq_div_iff hsize (by norm_num), ← hcast]
  ring

theorem circleAngle_sub {i j : Nat} (h : j ≤ i) : circleAngle (i - j) = circleAngle i - circleAngle j := by
  rw [circleAngle, circleAngle, circleAngle, Nat.cast_sub h]
  ring

@[simp] theorem circleAngle_half : circleAngle 2048 = Real.pi := by
  rw [circleAngle]
  push_cast
  ring

@[simp] theorem circleAngle_quarter : circleAngle 1024 = Real.pi / 2 := by
  rw [circleAngle]
  push_cast
  ring

theorem circleAngle_pos {i : Nat} (h : 0 < i) : 0 < circleAngle i := by
  unfold circleAngle
  positivity

theorem circleAngle_lt {i j : Nat} (h : i < j) : circleAngle i < circleAngle j := by
  rw [← sub_pos, ← circleAngle_sub h.le]
  exact circleAngle_pos (Nat.sub_pos_of_lt h)

theorem sin_circleAngle_pos {i : Nat} (h0 : 0 < i) (h : i < 2048) : 0 < Real.sin (circleAngle i) :=
  Real.sin_pos_of_pos_of_lt_pi (circleAngle_pos h0) (circleAngle_half ▸ circleAngle_lt h)

/-- cos a is sin(π/2 − a), which is −sin(a − π/2): it vanishes at the quarter point alone. -/
theorem cos_circleAngle_ne_zero {i : Nat} (h : i < 2048) (hne : i ≠ 1024) : Real.cos (circleAngle i) ≠ 0 := by
  rcases lt_or_gt_of_ne hne with hi | hi
  · rw [← Real.sin_pi_div_two_sub, ← circleAngle_quarter, ← circleAngle_sub hi.le]
    exact (sin_circleAngle_pos (by omega) (by omega)).ne'
  · rw [← neg_ne_zero, ← Real.sin_sub_pi_div_two, ← circleAngle_quarter, ← circleAngle_sub hi.le]
    exact (sin_circleAngle_pos (by omega) (by omega)).ne'

/-- The quadrant's law, `quadrantCos_roundsTo`, with the sign written as a sign. -/
theorem quadrantCos_roundsTo_cos {i : Nat} (h : i < 1024) :
    RoundsTo (Real.cos (circleAngle i)) (packSign false (quadrantCos i)) ∧
      RoundsTo (-Real.cos (circleAngle i)) (packSign true (quadrantCos i)) := by
  have hpos := quadrantCos_roundsTo false h
  have hneg := quadrantCos_roundsTo true h
  rw [signFactor, if_neg Bool.false_ne_true, one_mul] at hpos
  rw [signFactor, if_pos rfl, neg_one_mul] at hneg
  exact ⟨hpos, hneg⟩

/-- R131 for the cosine: beyond the quarter point cos a = −cos(π − a). -/
theorem circleCos_roundsTo {i : Nat} (h : i < 2048) (hne : i ≠ 1024) :
    RoundsTo (Real.cos (circleAngle i)) (circleCos i) := by
  rcases lt_or_gt_of_ne hne with hi | hi
  · rw [circleCos, if_pos hi.le]
    exact (quadrantCos_roundsTo_cos hi).1
  · have hcos : Real.cos (circleAngle i) = -Real.cos (circleAngle (2048 - i)) := by
      rw [circleAngle_sub h.le, circleAngle_half, Real.cos_pi_sub, neg_neg]
    rw [circleCos, if_neg (by omega), hcos]
    exact (quadrantCos_roundsTo_cos (by omega)).2

/-- R131 for the sine: sin a = cos(π/2 − a), which is cos(a − π/2). -/
theorem circleNegSin_roundsTo {i : Nat} (h0 : 0 < i) (h : i < 2048) :
    RoundsTo (-Real.sin (circleAngle i)) (circleNegSin i) := by
  rcases le_or_gt i 1024 with hi | hi
  · rw [circleNegSin_of_le h0 hi, ← Real.cos_pi_div_two_sub, ← circleAngle_quarter, ← circleAngle_sub hi]
    exact (quadrantCos_roundsTo_cos (by omega)).2
  · rw [circleNegSin_of_ge hi.le, ← Real.cos_sub_pi_div_two, ← circleAngle_quarter, ← circleAngle_sub hi.le]
    exact (quadrantCos_roundsTo_cos (by omega)).2

/-- Settles O48: the cosine is zero at step 1024 of the full circle alone and the sine at step 0 alone; every other value is a
quadrant value with its sign. -/
theorem romIsCorrectlyRounded : Obligations.RomIsCorrectlyRounded := by
  intro p j hj
  obtain ⟨hzero, _, _, _, hquarter, _⟩ := circleEntry_sixteenths
  have hlt : circlePos p j < 2048 := circlePos_lt_half hj
  rw [circleAngle_circlePos, romEntry_eq_circleEntry]
  generalize circlePos p j = i at hlt
  refine ⟨fun hcos => circleCos_roundsTo hlt ?_, fun hcos => ?_, fun hsin => circleNegSin_roundsTo ?_ hlt, fun hsin => ?_⟩
  · rintro rfl
    exact hcos (by rw [circleAngle_quarter, Real.cos_pi_div_two])
  · obtain rfl : i = 1024 := by_contra fun hne => cos_circleAngle_ne_zero hlt hne hcos
    exact congrArg CWord.re hquarter
  · refine Nat.pos_of_ne_zero ?_
    rintro rfl
    exact hsin (by simp [circleAngle])
  · obtain rfl : i = 0 := by_contra fun h0 => (sin_circleAngle_pos (Nat.pos_of_ne_zero h0) hlt).ne' hsin
    exact congrArg CWord.im hzero

end Sys2Proof
end

section
/-! Settles the statements about the arithmetic (41_datapath.md R152 to R161): sums, differences and products of finite values
are rounded once, the special operands, negation and halving, and the butterfly at twiddle index 0. -/

namespace Sys2Proof

open Sys2Proof.Machine

/-! ### The kinds of a word -/

/-- A word is its sign and the 31 bits of its exponent and its fraction. -/
theorem packSign_fields (w : Word) : packSign (signBit w) (expField w * 2 ^ 23 + fracField w) = w := by
  have hw : w.toNat < 2 ^ 32 := w.isLt
  have hs : signBit w = decide (2 ^ 31 ≤ w.toNat) := by
    rw [signBit, ← BitVec.msb_eq_getLsbD_last w, BitVec.msb_eq_decide]
  refine BitVec.eq_of_toNat_eq ?_
  rw [packSign_toNat (by rw [expField_eq, fracField_eq]; omega), hs, expField_eq, fracField_eq]
  simp only [decide_eq_true_eq]
  split <;> omega

theorem eq_infinity_of_isInf {w : Word} (h : isInf w = true) : w = infinity (signBit w) := by
  simp only [isInf, Bool.and_eq_true, beq_iff_eq] at h
  obtain ⟨he, hf⟩ := h
  conv_lhs => rw [← packSign_fields w, he, hf]
  rfl

/-- Only the zeros have magnitude 0: a normal value has its implicit leading bit. -/
theorem eq_zero32_of_magnitude {w : Word} (h : magnitude w = 0) : w = zero32 (signBit w) := by
  have hnormal : (2 ^ 23 + fracField w) * 2 ^ (expField w - 1) ≠ 0 := by positivity
  unfold magnitude at h
  split at h
  next he =>
    conv_lhs => rw [← packSign_fields w, he, h]
    rfl
  next => exact absurd h hnormal

theorem isNaN_eq_false_of_finite {w : Word} (h : finite32 w = true) : isNaN w = false := by
  simp_all [finite32, isNaN]

theorem isInf_eq_false_of_finite {w : Word} (h : finite32 w = true) : isInf w = false := by
  simp_all [finite32, isInf]

theorem finite_of_not_special {w : Word} (hnan : isNaN w = false) (hinf : isInf w = false) : finite32 w = true := by
  simp_all [finite32, isNaN, isInf]

theorem isNaN_eq_false_of_isInf {w : Word} (h : isInf w = true) : isNaN w = false := by
  simp_all [isInf, isNaN]

@[simp] theorem isNaN_canonicalNaN : isNaN canonicalNaN = true := by decide

/-- A packed magnitude up to that of the infinities is no NaN. -/
theorem isNaN_packSign {neg : Bool} {m : Nat} (h : m ≤ 0x7F800000) : isNaN (packSign neg m) = false := by
  have hm : m < 2 ^ 31 := by omega
  rw [isNaN, expField_packSign hm, fracField_packSign hm]
  simp only [Bool.and_eq_false_imp, beq_iff_eq, bne_eq_false_iff_eq]
  omega

@[simp] theorem isNaN_infinity (neg : Bool) : isNaN (infinity neg) = false := isNaN_packSign le_rfl

@[simp] theorem isNaN_zero32 (neg : Bool) : isNaN (zero32 neg) = false := isNaN_packSign (Nat.zero_le _)

@[simp] theorem isNaN_rn32 (neg : Bool) (m k : Nat) : isNaN (rn32 neg m k) = false := isNaN_packSign (Nat.min_le_right _ _)

@[simp] theorem signBit_rn32 (neg : Bool) (m k : Nat) : signBit (rn32 neg m k) = neg :=
  signBit_packSign (lt_of_le_of_lt (Nat.min_le_right _ _) (by norm_num))

@[simp] theorem signBit_zero32 (neg : Bool) : signBit (zero32 neg) = neg := signBit_packSign (by norm_num)

theorem rn32_zero (neg : Bool) (k : Nat) : rn32 neg 0 k = zero32 neg := by
  simp [rn32, roundMagnitude, quantumExp, roundEven, zero32]

/-! ### Negation -/

theorem getLsbD_neg32 (w : Word) (i : Nat) :
    (neg32 w).getLsbD i = if i = 31 then !w.getLsbD 31 else w.getLsbD i := by
  have hmask : (0x80000000#32).getLsbD i = decide (i = 31) := by
    change (BitVec.twoPow 32 31).getLsbD i = _
    simp [BitVec.getLsbD_twoPow, eq_comm]
  rw [neg32, BitVec.getLsbD_xor, hmask]
  split <;> simp_all

@[simp] theorem signBit_neg32 (w : Word) : signBit (neg32 w) = !signBit w := getLsbD_neg32 w 31

@[simp] theorem expField_neg32 (w : Word) : expField (neg32 w) = expField w := by
  simp [expField, neg32, BitVec.extractLsb'_xor]

@[simp] theorem fracField_neg32 (w : Word) : fracField (neg32 w) = fracField w := by
  simp [fracField, neg32, BitVec.extractLsb'_xor]

@[simp] theorem isNaN_neg32 (w : Word) : isNaN (neg32 w) = isNaN w := by simp [isNaN]

@[simp] theorem isInf_neg32 (w : Word) : isInf (neg32 w) = isInf w := by simp [isInf]

@[simp] theorem finite32_neg32 (w : Word) : finite32 (neg32 w) = finite32 w := by simp [finite32]

@[simp] theorem value32_neg32 (w : Word) : value32 (neg32 w) = -value32 w := by
  have hexact : exactValue (neg32 w) = -exactValue w := by
    cases h : signBit w <;> simp [exactValue, magnitude, h]
  simp [value32, hexact, neg_div]

theorem neg32_eq_iff (a b : Word) : neg32 a = b ↔ a = neg32 b := by
  constructor <;> rintro rfl <;> simp [neg32]

/-! ### Sums and differences of finite values -/

theorem add32_of_finite {a b : Word} (ha : finite32 a = true) (hb : finite32 b = true) : add32 a b = addFinite a b := by
  simp [add32, isNaN_eq_false_of_finite, isInf_eq_false_of_finite, ha, hb]

theorem value32_add_value32 (a b : Word) : value32 a + value32 b = ((exactValue a + exactValue b : ℤ) : ℚ) / 2 ^ 149 := by
  rw [value32, value32]; push_cast; ring

theorem exactValue_add_eq_zero_iff (a b : Word) : exactValue a + exactValue b = 0 ↔ value32 a + value32 b = 0 := by
  rw [value32_add_value32, div_eq_zero_iff, Int.cast_eq_zero]; simp

/-- An integer of units 2^-149 is rounded once: `rn32_roundsTo` on its sign and its absolute value. -/
theorem rn32_roundsTo_int {v : ℤ} (hv : v ≠ 0) : RoundsTo ((v : ℝ) / 2 ^ 149) (rn32 (v < 0) v.natAbs 0) := by
  have hsplit : (v : ℝ) = signFactor (v < 0) * (v.natAbs : ℝ) := by
    rw [Nat.cast_natAbs, Int.cast_abs, signFactor]
    split
    next h => rw [abs_of_neg (by simpa using h)]; ring
    next h => rw [abs_of_nonneg (by simpa using h)]; ring
  have h := rn32_roundsTo (decide (v < 0)) (Int.natAbs_pos.2 hv) 0
  rwa [pow_zero, div_one, ← mul_div_assoc, ← hsplit] at h

theorem add32_roundsTo {a b : Word} (ha : finite32 a = true) (hb : finite32 b = true)
    (hne : value32 a + value32 b ≠ 0) : RoundsTo ((value32 a : ℝ) + (value32 b : ℝ)) (add32 a b) := by
  have hv : exactValue a + exactValue b ≠ 0 := mt (exactValue_add_eq_zero_iff a b).1 hne
  have hreal : (value32 a : ℝ) + (value32 b : ℝ) = ((exactValue a + exactValue b : ℤ) : ℝ) / 2 ^ 149 := by
    exact_mod_cast congrArg (fun q : ℚ => (q : ℝ)) (value32_add_value32 a b)
  rw [add32_of_finite ha hb, addFinite, if_neg hv, hreal]
  exact rn32_roundsTo_int hv

/-- Two addends of negative sign cancel only if both are −0. -/
theorem eq_minusZero_of_negative_cancel {a b : Word} (hsum : exactValue a + exactValue b = 0) (ha : signBit a = true)
    (hb : signBit b = true) : a = 0x80000000#32 ∧ b = 0x80000000#32 := by
  simp only [exactValue, ha, hb, if_true] at hsum
  refine ⟨?_, ?_⟩
  · rw [eq_zero32_of_magnitude (w := a) (by omega), ha]; rfl
  · rw [eq_zero32_of_magnitude (w := b) (by omega), hb]; rfl

theorem add32_of_cancel {a b : Word} (ha : finite32 a = true) (hb : finite32 b = true) (hsum : value32 a + value32 b = 0) :
    add32 a b = if a = 0x80000000#32 ∧ b = 0x80000000#32 then 0x80000000#32 else 0x00000000#32 := by
  have hexact := (exactValue_add_eq_zero_iff a b).2 hsum
  rw [add32_of_finite ha hb, addFinite, if_pos hexact]
  by_cases hneg : signBit a = true ∧ signBit b = true
  · rw [if_pos (eq_minusZero_of_negative_cancel hexact hneg.1 hneg.2), hneg.1, hneg.2]; rfl
  · have hnot : ¬ (a = 0x80000000#32 ∧ b = 0x80000000#32) := by
      rintro ⟨rfl, rfl⟩; exact hneg (by decide)
    rw [if_neg hnot, show (signBit a && signBit b) = false by simpa using hneg]; rfl

/-- Settles O43: the exact sum is an integer of units 2^-149, which rn32 rounds once; a difference is the sum with the negated
subtrahend. -/
theorem sumsAreRoundedOnce : Obligations.SumsAreRoundedOnce := by
  intro a b ha hb
  have hnb : finite32 (neg32 b) = true := by simpa using hb
  refine ⟨⟨add32_roundsTo ha hb, add32_of_cancel ha hb⟩, fun hne => ?_, fun hzero => ?_⟩
  · have h := add32_roundsTo ha hnb (by simpa [← sub_eq_add_neg] using hne)
    rw [value32_neg32, Rat.cast_neg, ← sub_eq_add_neg] at h
    exact h
  · rw [sub32, add32_of_cancel ha hnb (by simpa [← sub_eq_add_neg] using hzero)]
    simp only [neg32_eq_iff, show neg32 0x80000000#32 = 0x00000000#32 by decide]

/-! ### Products of finite values -/

theorem mul32_of_finite {a b : Word} (ha : finite32 a = true) (hb : finite32 b = true) :
    mul32 a b = rn32 (signBit a != signBit b) (magnitude a * magnitude b) 149 := by
  simp [mul32, isNaN_eq_false_of_finite, isInf_eq_false_of_finite, ha, hb]

theorem value32_eq_zero_iff (w : Word) : value32 w = 0 ↔ magnitude w = 0 := by
  rw [value32, div_eq_zero_iff, Int.cast_eq_zero, exactValue]
  split <;> simp

theorem value32_mul_eq_zero_iff (a b : Word) : value32 a * value32 b = 0 ↔ magnitude a * magnitude b = 0 := by
  rw [mul_eq_zero, mul_eq_zero, value32_eq_zero_iff, value32_eq_zero_iff]

theorem signFactor_bne (p q : Bool) : signFactor (p != q) = signFactor p * signFactor q := by
  cases p <;> cases q <;> simp [signFactor]

theorem mul32_roundsTo {a b : Word} (ha : finite32 a = true) (hb : finite32 b = true)
    (hne : value32 a * value32 b ≠ 0) : RoundsTo ((value32 a : ℝ) * (value32 b : ℝ)) (mul32 a b) := by
  have hpos : 0 < magnitude a * magnitude b := Nat.pos_of_ne_zero (mt (value32_mul_eq_zero_iff a b).2 hne)
  have hreal : (value32 a : ℝ) * (value32 b : ℝ) = signFactor (signBit a != signBit b) *
      (((magnitude a * magnitude b : ℕ) : ℝ) / 2 ^ 149 / 2 ^ 149) := by
    rw [value32_eq, value32_eq, signFactor_bne]; push_cast; ring
  rw [mul32_of_finite ha hb, hreal]
  exact rn32_roundsTo _ hpos 149

theorem mul32_of_zero_factor {a b : Word} (ha : finite32 a = true) (hb : finite32 b = true)
    (hzero : value32 a * value32 b = 0) : mul32 a b = zero32 (signBit a != signBit b) := by
  rw [mul32_of_finite ha hb, (value32_mul_eq_zero_iff a b).1 hzero, rn32_zero]

/-- Settles O44: the product of the magnitudes is an integer of units 2^-298, which rn32 rounds once. -/
theorem productsAreRoundedOnce : Obligations.ProductsAreRoundedOnce := by
  intro a b ha hb
  refine ⟨mul32_roundsTo ha hb, fun hzero => ?_, ?_⟩
  · rw [mul32_of_zero_factor ha hb hzero]
    cases signBit a <;> cases signBit b <;> rfl
  · rw [mul32_of_finite ha hb, signBit_rn32]

/-! ### Special operands -/

/-- The sums without a value (R153): a NaN operand, or infinities of opposite signs. -/
def InvalidSum (a b : Word) : Prop :=
  isNaN a = true ∨ isNaN b = true ∨ (isInf a = true ∧ isInf b = true ∧ signBit a ≠ signBit b)

/-- The products without a value (R153): a NaN operand, or an infinity times a zero. -/
def InvalidProduct (a b : Word) : Prop :=
  isNaN a = true ∨ isNaN b = true ∨ (isInf a = true ∧ magnitude b = 0) ∨ (magnitude a = 0 ∧ isInf b = true)

theorem add32_of_invalid {a b : Word} (h : InvalidSum a b) : add32 a b = canonicalNaN := by
  rcases h with ha | hb | ⟨ha, hb, hsign⟩
  · simp [add32, ha]
  · simp [add32, hb]
  · simp [add32, ha, hb, hsign]

theorem add32_of_infinite_left {a b : Word} (h : ¬ InvalidSum a b) (hia : isInf a = true) : add32 a b = a := by
  simp only [InvalidSum, not_or, Bool.not_eq_true] at h
  obtain ⟨ha, hb, hsign⟩ := h
  have hsame : (isInf b && signBit a != signBit b) = false := by simpa [hia] using hsign
  simp [add32, ha, hb, hia, hsame]

/-- Two infinite addends of a sum with a value are the same infinity. -/
theorem add32_of_infinite_right {a b : Word} (h : ¬ InvalidSum a b) (hib : isInf b = true) : add32 a b = b := by
  cases hia : isInf a
  case true =>
    have hsame : signBit a = signBit b := by
      by_contra hne
      exact h (.inr (.inr ⟨hia, hib, hne⟩))
    rw [add32_of_infinite_left h hia, eq_infinity_of_isInf hia, eq_infinity_of_isInf hib, hsame]
  case false =>
    simp only [InvalidSum, not_or, Bool.not_eq_true] at h
    obtain ⟨ha, hb, -⟩ := h
    simp [add32, ha, hb, hia, hib]

@[simp] theorem isNaN_addFinite (a b : Word) : isNaN (addFinite a b) = false := by
  unfold addFinite
  split
  · exact isNaN_zero32 _
  · exact isNaN_rn32 _ _ _

/-- A sum with a value is an infinite addend or a rounded sum, and neither is a NaN. -/
theorem isNaN_add32_of_valid {a b : Word} (h : ¬ InvalidSum a b) : isNaN (add32 a b) = false := by
  cases hia : isInf a
  case true => rw [add32_of_infinite_left h hia, isNaN_eq_false_of_isInf hia]
  case false =>
    cases hib : isInf b
    case true => rw [add32_of_infinite_right h hib, isNaN_eq_false_of_isInf hib]
    case false =>
      simp only [InvalidSum, not_or, Bool.not_eq_true] at h
      obtain ⟨ha, hb, -⟩ := h
      rw [add32_of_finite (finite_of_not_special ha hia) (finite_of_not_special hb hib), isNaN_addFinite]

theorem isNaN_add32_iff (a b : Word) : isNaN (add32 a b) = true ↔ InvalidSum a b :=
  ⟨fun hnan => by_contra fun h => by simp [isNaN_add32_of_valid h] at hnan,
    fun h => by rw [add32_of_invalid h, isNaN_canonicalNaN]⟩

theorem isNaN_add32_eq_false_iff (a b : Word) : isNaN (add32 a b) = false ↔ ¬ InvalidSum a b := by
  rw [← isNaN_add32_iff, Bool.not_eq_true]

theorem mul32_of_invalid {a b : Word} (h : InvalidProduct a b) : mul32 a b = canonicalNaN := by
  rcases h with ha | hb | ⟨ha, hb⟩ | ⟨ha, hb⟩
  · simp [mul32, ha]
  · simp [mul32, hb]
  · simp [mul32, ha, hb]
  · simp [mul32, ha, hb]

theorem mul32_of_infinite {a b : Word} (h : ¬ InvalidProduct a b) (hinf : isInf a = true ∨ isInf b = true) :
    mul32 a b = infinity (signBit a != signBit b) := by
  simp only [InvalidProduct, not_or, Bool.not_eq_true] at h
  obtain ⟨ha, hb, hab, hba⟩ := h
  have hnozero : ¬ ((isInf a && magnitude b == 0 || isInf b && magnitude a == 0) = true) := by
    simp only [Bool.or_eq_true, Bool.and_eq_true, beq_iff_eq]; tauto
  have hsome : (isInf a || isInf b) = true := by simpa using hinf
  simp only [mul32, ha, hb, Bool.or_self, Bool.false_eq_true, if_false, if_pos hsome, if_neg hnozero]

/-- A product with a value is an infinity or a rounded product, and neither is a NaN. -/
theorem isNaN_mul32_of_valid {a b : Word} (h : ¬ InvalidProduct a b) : isNaN (mul32 a b) = false := by
  by_cases hinf : isInf a = true ∨ isInf b = true
  · rw [mul32_of_infinite h hinf, isNaN_infinity]
  · simp only [not_or, Bool.not_eq_true] at hinf
    simp only [InvalidProduct, not_or, Bool.not_eq_true] at h
    obtain ⟨ha, hb, -⟩ := h
    rw [mul32_of_finite (finite_of_not_special ha hinf.1) (finite_of_not_special hb hinf.2), isNaN_rn32]

theorem isNaN_mul32_iff (a b : Word) : isNaN (mul32 a b) = true ↔ InvalidProduct a b :=
  ⟨fun hnan => by_contra fun h => by simp [isNaN_mul32_of_valid h] at hnan,
    fun h => by rw [mul32_of_invalid h, isNaN_canonicalNaN]⟩

theorem isNaN_mul32_eq_false_iff (a b : Word) : isNaN (mul32 a b) = false ↔ ¬ InvalidProduct a b := by
  rw [← isNaN_mul32_iff, Bool.not_eq_true]

theorem infinity_bne (p q : Bool) : infinity (p != q) = if p = q then 0x7F800000#32 else 0xFF800000#32 := by
  cases p <;> cases q <;> rfl

/-- A difference is the sum with the negated subtrahend, so that infinities of the same sign are the invalid ones. -/
theorem invalidSum_neg32_iff (a b : Word) : InvalidSum a (neg32 b) ↔
    isNaN a = true ∨ isNaN b = true ∨ (isInf a = true ∧ isInf b = true ∧ signBit a = signBit b) := by
  simp [InvalidSum]

/-- Settles O45: an invalid operation gives the canonical NaN, every other one the infinity of its infinite operand. -/
theorem specialOperands : Obligations.SpecialOperands := by
  intro a b
  have hadd := isNaN_add32_eq_false_iff a b
  have hsub := isNaN_add32_eq_false_iff a (neg32 b)
  have hmul := isNaN_mul32_eq_false_iff a b
  refine ⟨isNaN_add32_iff a b, (isNaN_add32_iff a (neg32 b)).trans (invalidSum_neg32_iff a b), isNaN_mul32_iff a b,
    fun h => add32_of_invalid ((isNaN_add32_iff _ _).1 h), fun h => add32_of_invalid ((isNaN_add32_iff _ _).1 h),
    fun h => mul32_of_invalid ((isNaN_mul32_iff _ _).1 h), fun h => add32_of_infinite_left (hadd.1 h),
    fun h => add32_of_infinite_right (hadd.1 h), fun h => add32_of_infinite_left (hsub.1 h),
    fun h hb => add32_of_infinite_right (hsub.1 h) (by rwa [isInf_neg32]), fun h hinf => ?_⟩
  rw [mul32_of_infinite (hmul.1 h) hinf, infinity_bne]

/-! ### Halving -/

theorem value32_half : value32 0x3F000000#32 = 1 / 2 := by
  have h : exactValue 0x3F000000#32 = 2 ^ 148 := by decide +kernel
  rw [value32, h]; norm_num

/-- Settles O46: half32 is the product with 0.5, which is finite, positive and not zero. -/
theorem negateAndHalve : Obligations.NegateAndHalve := by
  intro a
  have hfin : finite32 0x3F000000#32 = true := by decide
  have hsign : (signBit a != signBit 0x3F000000#32) = signBit a := by
    rw [show signBit 0x3F000000#32 = false by decide, Bool.bne_false]
  refine ⟨getLsbD_neg32 a, fun ha hne => ?_, fun ha hzero => ?_, fun ha => ?_, fun ha => mul32_of_invalid (.inl ha)⟩
  · have h := mul32_roundsTo ha hfin (by simpa [value32_half] using hne)
    rwa [value32_half, Rat.cast_div, Rat.cast_one, Rat.cast_ofNat, mul_one_div] at h
  · rw [half32, mul32_of_zero_factor ha hfin (by rw [hzero, zero_mul]), hsign,
      ← eq_zero32_of_magnitude ((value32_eq_zero_iff a).1 hzero)]
  · have hvalid : ¬ InvalidProduct a 0x3F000000#32 := by
      have hnan : isNaN 0x3F000000#32 = false := by decide
      have hinf : isInf 0x3F000000#32 = false := by decide
      have hmag : magnitude 0x3F000000#32 ≠ 0 := by decide +kernel
      simp [InvalidProduct, isNaN_eq_false_of_isInf ha, hnan, hinf, hmag]
    rw [half32, mul32_of_infinite hvalid (.inl ha), hsign, ← eq_infinity_of_isInf ha]

/-! ### The butterfly without a twiddle product -/

/-- At twiddle index 0 the multiplier is bypassed (R159). -/
@[simp] theorem tmul_zero (t s : CWord) : tmul t s 0 = s := if_pos rfl

/-- Settles O47: the bypassed multiplier leaves s, and the butterfly is its lane-wise sum and difference with f. -/
theorem butterflyIndexZero : Obligations.ButterflyIndexZero := by
  intro f s t
  rw [butterfly, tmul_zero, cadd, csub]

end Sys2Proof
end

section
/-! Settles the statements about the complex transform (42_cfft.md): what BITREV, STAGE, BFLY and CFFT leave in the window,
the recursion against the stage sequence, a STAGE against its BFLY commands, and a CFFT from its CMD write to DONE. -/

namespace Sys2Proof

open Sys2Proof.Machine Sys2Proof.Claims

/-! ### A command whose checks pass -/

/-- A command that passes the common checks and has no bad argument passes them all (R247). -/
theorem validate_of_ready {i : Instr} {s : State} {l : Nibble} {w : Nat} {bin : List CWord} (h : ready s l w bin)
    (hne : i ≠ .nop) (hl : i.sizeExp = l.toNat) (hw : windowWords i = w) (hargs : argsBad i s = false) :
    validate i s = none := by
  obtain ⟨-, hmin, hmax, hlen, hrange, -⟩ := h
  rw [validate_eq_sized hne, validateSized_eq_none_iff, sizeUnsupported_eq_false_iff, lengthMismatch_eq_false_iff,
    outOfRange_eq_false_iff, commandSize, hl, hw]
  exact ⟨⟨hmin, hmax⟩, hargs, hlen, hrange⟩

theorem readWindow_of_ready {s : State} {l : Nibble} {w : Nat} {bin : List CWord} (h : ready s l w bin) :
    readWindow s.mem s.base.toNat w = some bin := by
  obtain ⟨-, -, -, -, -, hbin⟩ := h
  exact hbin

/-- A command that passes its checks is accepted with its function's image of the window (R231, R181). -/
theorem exec_of_ready {i : Instr} {s : State} {l : Nibble} {w : Nat} {bin : List CWord} (h : ready s l w bin)
    (hne : i ≠ .nop) (hl : i.sizeExp = l.toNat) (hw : windowWords i = w) (hargs : argsBad i s = false) :
    exec i s = .next (acceptedState s (captureLatch i s) (imageOf s.params i (captureLatch i s) bin)) := by
  have hv := validate_of_ready h hne hl hw hargs
  have hbin := readWindow_of_ready h
  obtain ⟨hidle, -⟩ := h
  rw [exec_eq_issue]
  exact issue_of_window hidle hv (hw ▸ hbin)

section
variable {s : State} {l : Nibble} {bin : List CWord} (h : ready s l (2 ^ l.toNat) bin)
include h

theorem length_of_ready : bin.length = 2 ^ l.toNat := readWindow_length (readWindow_of_ready h)

theorem exec_bitrev_of_ready :
    exec (.bitrev l) s = .next (acceptedState s (latchOf 1 l 0 s) (permute l.toNat bin)) := by
  simpa [imageOf, latchOf] using exec_of_ready (i := .bitrev l) h (by simp) rfl rfl rfl

theorem exec_stage_of_ready {st : Nibble} (hst : 1 ≤ st.toNat) (hle : st.toNat ≤ l.toNat) :
    exec (.stage l st) s = .next (acceptedState s (latchOf 2 l st s) (stage s.params l.toNat st.toNat bin)) := by
  have hargs : argsBad (.stage l st) s = false := by simpa [argsBad, stageOutOfRange, Nat.ne_of_gt hst] using hle
  simpa [imageOf, latchOf] using exec_of_ready (i := .stage l st) h (by simp) rfl rfl hargs

theorem exec_bfly_of_ready (hp : s.arg0.toNat < 2 ^ l.toNat) (hq : s.arg1.toNat < 2 ^ l.toNat) (hne : s.arg0 ≠ s.arg1)
    (hk : s.arg2.toNat < 2 ^ l.toNat / 2) :
    exec (.bfly l) s = .next (acceptedState s (latchOf 3 l 0 s) (butterflyAt bin s.arg0.toNat s.arg1.toNat
      (twiddle s.params l.toNat s.arg2.toNat) s.arg2.toNat)) := by
  have hargs : argsBad (.bfly l) s = false := by simp [argsBad, bflyArgsBad, hp, hq, hne, hk]
  simpa [imageOf, latchOf] using exec_of_ready (i := .bfly l) h (by simp) rfl rfl hargs

theorem exec_cfft_of_ready :
    exec (.cfft l) s = .next (acceptedState s (latchOf 4 l 0 s) (cfft s.params l.toNat bin)) := by
  simpa [imageOf, latchOf] using exec_of_ready (i := .cfft l) h (by simp) rfl rfl rfl

end

/-! ### Completion of an accepted command -/

theorem leavesWindow_of_running {t : State} {bout : List CWord} {left : Nat} (h : t.phase = .running bout left) :
    leavesWindow t bout := by
  rw [leavesWindow, complete_running h]
  exact ⟨readWindow_writeWindow t.mem _ bout, readByte_writeWindow_outside t.mem _ bout⟩

/-- After completion the unit is ready for a command over the same window, which holds the image. -/
theorem ready_complete {s : State} {l : Nibble} {w : Nat} {bin bout : List CWord} {latch : Latch} (h : ready s l w bin)
    (hbase : latch.base = s.base) (hlen : bout.length = w) : ready (complete (acceptedState s latch bout)) l w bout := by
  obtain ⟨-, hmin, hmax, hsize, hrange, -⟩ := h
  obtain ⟨hread, -⟩ := leavesWindow_of_running (t := acceptedState s latch bout) rfl
  refine ⟨rfl, hmin, hmax, hsize, hrange, ?_⟩
  change readWindow (complete (acceptedState s latch bout)).mem s.base.toNat w = some bout
  rw [← hbase, ← hlen]
  exact hread

theorem issueAndComplete_of_exec {i : Instr} {s t : State} (h : exec i s = .next t) :
    issueAndComplete i s = some (complete t) := by
  rw [issueAndComplete, h]

/-! ### BITREV -/

/-- Settles O8: the image is `permute`, word by word. -/
theorem bitrevPermutesWindow : Obligations.BitrevPermutesWindow := by
  intro s l bin h
  refine ⟨_, exec_bitrev_of_ready h, leavesWindow_of_running rfl, permute_length _ _, fun i hi => ?_⟩
  have hrev : rev l.toNat i < bin.length := length_of_ready h ▸ rev_lt l.toNat i
  refine ⟨wordAt bin (rev l.toNat i), getElem?_eq_wordAt hrev, ?_⟩
  rw [getElem?_eq_wordAt (by simpa using hi), wordAt_permute _ _ hi]

theorem permute_permute {l : Nat} {b : List CWord} (h : b.length = 2 ^ l) : permute l (permute l b) = b := by
  refine window_ext (by simp [h]) fun i hi => ?_
  rw [permute_length] at hi
  rw [wordAt_permute _ _ hi, wordAt_permute _ _ (rev_lt l i), rev_rev hi]

/-- Settles O14: the second BITREV reads the image of the first, and `permute` is its own inverse. -/
theorem bitrevTwiceRestoresWindow : Obligations.BitrevTwiceRestoresWindow := by
  intro s l bin h
  have hfirst := exec_bitrev_of_ready h
  have h' := ready_complete (latch := latchOf 1 l 0 s) h rfl (permute_length l.toNat bin)
  have hsecond := exec_bitrev_of_ready h'
  rw [permute_permute (length_of_ready h)] at hsecond
  have h'' := ready_complete (latch := latchOf 1 l 0 _) h' rfl (length_of_ready h)
  exact ⟨_, _, issueAndComplete_of_exec hfirst, issueAndComplete_of_exec hsecond, readWindow_of_ready h''⟩

/-! ### STAGE and BFLY -/

theorem two_pow_pred {n : Nat} (h : 1 ≤ n) : 2 ^ (n - 1) = 2 ^ n / 2 := by
  rw [Nat.pow_sub_one (by decide) (by omega)]

theorem stagePairs_lt_length {l st : Nat} {b : List CWord} (hlen : b.length = 2 ^ l) (hst : 1 ≤ st) (hle : st ≤ l) :
    ∀ x ∈ stagePairs l st, x.1 < b.length ∧ x.2.1 < b.length :=
  fun _ hx => hlen.symm ▸ stagePairs_lt hst hle hx

/-- The butterfly of block b at place k is one of the stage's (R186). -/
theorem mem_stagePairs_of_block {l st b k : Nat} (hst : 1 ≤ st) (hle : st ≤ l) (hb : b < 2 ^ (l - st))
    (hk : k < 2 ^ (st - 1)) : (b * 2 ^ st + k, b * 2 ^ st + k + 2 ^ (st - 1), k) ∈ stagePairs l st := by
  rw [two_pow_pred hst] at hk ⊢
  exact mem_stagePairs.2 ⟨b, by rwa [Nat.pow_div hle two_pos], k, hk, rfl⟩

/-- Each butterfly of a stage is formed on the words as they were (R186). -/
theorem getElem?_stage {prm : Params} {l st : Nat} {b : List CWord} (hlen : b.length = 2 ^ l) (hst : 1 ≤ st)
    (hle : st ≤ l) {p q k : Nat} (hx : (p, q, k) ∈ stagePairs l st) :
    (stage prm l st b)[p]? = some (butterfly (wordAt b p) (wordAt b q) (twiddle prm st k) k).1 ∧
      (stage prm l st b)[q]? = some (butterfly (wordAt b p) (wordAt b q) (twiddle prm st k) k).2 := by
  have hlt := stagePairs_lt_length hlen hst hle
  obtain ⟨hp, hq⟩ := hlt _ hx
  obtain ⟨hfst, hsnd⟩ := runButterflies_touched (fun x => twiddle prm st x.2.2) (fun x => x.2.2) _ b hlt
    (stagePairs_nodup hst) _ hx
  exact ⟨(getElem?_eq_wordAt (by rwa [stage_length])).trans (congrArg some hfst),
    (getElem?_eq_wordAt (by rwa [stage_length])).trans (congrArg some hsnd)⟩

/-- Settles O9: the butterflies of a stage share no word. -/
theorem stageCombinesBlocks : Obligations.StageCombinesBlocks := by
  intro s l st bin h hst hle
  have hlen := length_of_ready h
  refine ⟨_, exec_stage_of_ready h hst hle, leavesWindow_of_running rfl, by rw [stage_length, hlen], fun b hb k hk => ?_⟩
  have hx := mem_stagePairs_of_block hst hle hb hk
  obtain ⟨hp, hq⟩ := stagePairs_lt_length hlen hst hle _ hx
  exact ⟨_, _, getElem?_eq_wordAt hp, getElem?_eq_wordAt hq, getElem?_stage hlen hst hle hx⟩

theorem getElem?_butterflyAt_of_ne {b : List CWord} {p q i : Nat} (t : CWord) (k : Nat) (hp : i ≠ p) (hq : i ≠ q) :
    (butterflyAt b p q t k)[i]? = b[i]? := by
  rw [butterflyAt, List.getElem?_set_ne hq.symm, List.getElem?_set_ne hp.symm]

/-- Settles O10: nothing in `butterflyAt` asks for p below q. -/
theorem bflyChangesTwoWords : Obligations.BflyChangesTwoWords := by
  intro s l bin h hp hq hne hk
  have hlen := length_of_ready h
  have hpq : s.arg0.toNat ≠ s.arg1.toNat := fun e => hne (BitVec.eq_of_toNat_eq e)
  rw [← hlen] at hp hq
  refine ⟨_, _, _, exec_bfly_of_ready h (hlen ▸ hp) (hlen ▸ hq) hne hk, leavesWindow_of_running rfl,
    by rw [butterflyAt_length, hlen], getElem?_eq_wordAt hp, getElem?_eq_wordAt hq, ?_, ?_,
    fun i => getElem?_butterflyAt_of_ne _ _⟩
  · rw [getElem?_eq_wordAt (by simpa using hp), wordAt_butterflyAt _ _ _ _ _ _ hp hq, if_neg hpq, if_pos rfl]
  · rw [getElem?_eq_wordAt (by simpa using hq), wordAt_butterflyAt _ _ _ _ _ _ hp hq, if_pos rfl]

/-! ### The recursion and the stage sequence -/

theorem butterflyAt_append_left {a : List CWord} (c : List CWord) {p q : Nat} (t : CWord) (k : Nat) (hp : p < a.length)
    (hq : q < a.length) : butterflyAt (a ++ c) p q t k = butterflyAt a p q t k ++ c := by
  rw [butterflyAt, wordAt_append_left hp, wordAt_append_left hq, List.set_append_left _ _ hp,
    List.set_append_left _ _ (by simpa using hq), butterflyAt]

theorem butterflyAt_append_right (a c : List CWord) (p q : Nat) (t : CWord) (k : Nat) :
    butterflyAt (a ++ c) (a.length + p) (a.length + q) t k = a ++ butterflyAt c p q t k := by
  have hword (i : Nat) : wordAt (a ++ c) (a.length + i) = wordAt c i := by
    rw [wordAt_append_right (Nat.le_add_right _ _), Nat.add_sub_cancel_left]
  simp only [butterflyAt, hword, List.set_append_right, Nat.le_add_right, Nat.add_sub_cancel_left]

theorem runPairs_cons (prm : Params) (n : Nat) (x : Nat × Nat × Nat) (xs : List (Nat × Nat × Nat)) (b : List CWord) :
    runPairs prm n (x :: xs) b = runPairs prm n xs (butterflyAt b x.1 x.2.1 (twiddle prm n x.2.2) x.2.2) := rfl

theorem runPairs_append (prm : Params) (n : Nat) (xs ys : List (Nat × Nat × Nat)) (b : List CWord) :
    runPairs prm n (xs ++ ys) b = runPairs prm n ys (runPairs prm n xs b) := List.foldl_append

/-- Butterflies inside the first part of a window leave the rest alone. -/
theorem runPairs_append_left (prm : Params) (n : Nat) {pairs : List (Nat × Nat × Nat)} {a : List CWord} (c : List CWord)
    (h : ∀ x ∈ pairs, x.1 < a.length ∧ x.2.1 < a.length) :
    runPairs prm n pairs (a ++ c) = runPairs prm n pairs a ++ c := by
  induction pairs generalizing a with
  | nil => rfl
  | cons x xs ih =>
    obtain ⟨hp, hq⟩ := h x (by simp)
    rw [runPairs_cons, runPairs_cons, butterflyAt_append_left c _ _ hp hq]
    exact ih fun y hy => by simpa using h y (by simp [hy])

/-- A butterfly moved up by `d` words. -/
def shiftPair (d : Nat) (x : Nat × Nat × Nat) : Nat × Nat × Nat := (d + x.1, d + x.2.1, x.2.2)

/-- Butterflies moved into the second part of a window leave the first alone. -/
theorem runPairs_append_right (prm : Params) (n : Nat) (pairs : List (Nat × Nat × Nat)) (a c : List CWord) :
    runPairs prm n (pairs.map (shiftPair a.length)) (a ++ c) = a ++ runPairs prm n pairs c := by
  induction pairs generalizing c with
  | nil => rfl
  | cons x xs ih => rw [List.map_cons, runPairs_cons, shiftPair, butterflyAt_append_right, ih, runPairs_cons]

theorem blockPairs_add (d start h : Nat) : blockPairs (d + start) h = (blockPairs start h).map (shiftPair d) := by
  simp [blockPairs, shiftPair, Function.comp_def, Nat.add_assoc]

/-- The butterflies of a stage over twice as many words: those of the first half, and the same again in the second. -/
theorem stagePairs_succ {l st : Nat} (h : st ≤ l) :
    stagePairs (l + 1) st = stagePairs l st ++ (stagePairs l st).map (shiftPair (2 ^ l)) := by
  have hdvd : 2 ^ st ∣ 2 ^ l := Nat.pow_dvd_pow 2 h
  have hcount : 2 ^ (l + 1) / 2 ^ st = 2 ^ l / 2 ^ st + 2 ^ l / 2 ^ st := by
    rw [pow_succ, Nat.mul_two, Nat.add_div_of_dvd_left hdvd]
  have hstart (b : Nat) : (2 ^ l / 2 ^ st + b) * 2 ^ st = 2 ^ l + b * 2 ^ st := by
    rw [Nat.add_mul, Nat.div_mul_cancel hdvd]
  simp only [stagePairs, hcount, List.range_add, List.flatMap_append, List.flatMap_map, hstart, blockPairs_add,
    List.map_flatMap]

/-- The last stage is one block over the whole window (R185). -/
theorem stagePairs_self (l : Nat) : stagePairs (l + 1) (l + 1) = blockPairs 0 (2 ^ l) := by
  simp [stagePairs, pow_succ]

theorem stage_append (prm : Params) {l st : Nat} {a : List CWord} (c : List CWord) (ha : a.length = 2 ^ l) (hst : 1 ≤ st)
    (hle : st ≤ l) : stage prm (l + 1) st (a ++ c) = stage prm l st a ++ stage prm l st c := by
  have hlen : 2 ^ l = (runPairs prm st (stagePairs l st) a).length := by rw [runPairs_length, ha]
  rw [stage, stagePairs_succ hle, runPairs_append, runPairs_append_left _ _ _ (stagePairs_lt_length ha hst hle), hlen,
    runPairs_append_right, stage, stage]

/-- Below the last stage the two halves of a window do not meet. -/
theorem stagesUpTo_append (prm : Params) {l st : Nat} {a : List CWord} (c : List CWord) (ha : a.length = 2 ^ l)
    (hle : st ≤ l) : stagesUpTo prm (l + 1) st (a ++ c) = stagesUpTo prm l st a ++ stagesUpTo prm l st c := by
  induction st with
  | zero => rfl
  | succ st ih =>
    rw [stagesUpTo, ih (by omega), stage_append prm _ (by rw [stagesUpTo_length, ha]) (by omega) hle, stagesUpTo, stagesUpTo]

theorem length_take_half {l : Nat} {b : List CWord} (h : b.length = 2 ^ (l + 1)) : (b.take (2 ^ l)).length = 2 ^ l := by
  rw [List.length_take, h, pow_succ]; omega

theorem length_drop_half {l : Nat} {b : List CWord} (h : b.length = 2 ^ (l + 1)) : (b.drop (2 ^ l)).length = 2 ^ l := by
  rw [List.length_drop, h, pow_succ]; omega

theorem combine_eq_stagesUpTo (prm : Params) {l : Nat} {b : List CWord} (h : b.length = 2 ^ l) :
    combine prm l b = stagesUpTo prm l l b := by
  induction l generalizing b with
  | zero => rfl
  | succ l ih =>
    rw [combine, ih (length_take_half h), ih (length_drop_half h), ← stagesUpTo_append prm _ (length_take_half h) le_rfl,
      List.take_append_drop, stagesUpTo, stage, stagePairs_self]

/-- Settles O17: the stages below the last act on each half alone, and the last is the block over the whole. -/
theorem recursionEqualsStageSequence : Obligations.RecursionEqualsStageSequence :=
  fun prm _ _ h => combine_eq_stagesUpTo prm h

theorem combine_length (prm : Params) {l : Nat} {b : List CWord} (h : b.length = 2 ^ l) :
    (combine prm l b).length = 2 ^ l := by
  rw [combine_eq_stagesUpTo prm h, stagesUpTo_length, h]

/-! ### CFFT -/

theorem permute_zero {b : List CWord} (h : b.length = 1) : permute 0 b = b := by
  obtain ⟨c, rfl⟩ := List.length_eq_one_iff.1 h
  rfl

/-- The complex transform of any size, one word included, is the recursion on the reordered window (R192, R188). -/
theorem cfft_eq_combine (prm : Params) {l : Nat} {b : List CWord} (h : b.length = 2 ^ l) :
    cfft prm l b = combine prm l (permute l b) := by
  rw [cfft]
  split
  case isTrue h0 =>
    subst h0
    rw [permute_zero h, combine]
  case isFalse => rw [combine_eq_stagesUpTo prm (permute_length l b)]

/-- Settles O11: the stage loop of CFFT is the recursion. -/
theorem cfftIsRecursiveCombination : Obligations.CfftIsRecursiveCombination := by
  intro s l bin h
  exact ⟨_, exec_cfft_of_ready h, leavesWindow_of_running rfl, cfft_eq_combine _ (length_of_ready h)⟩

/-- Settles O15: the one butterfly of N = 2 has twiddle index 0, at which the multiplier is bypassed, so the image holds no
arithmetic but its sum and difference. -/
theorem cfftOfTwoIsExact : Obligations.CfftOfTwoIsExact := by
  intro s b0 b1 h
  have himage : cfft s.params 1 [b0, b1] = [cadd b0 b1, csub b0 b1] := rfl
  rw [← himage]
  exact exec_cfft_of_ready (l := 1) h

/-! ### The DC bin of a real input -/

/-- Word 0 of the block over the whole window is a sum, twiddle index 0 being bypassed (R159). -/
theorem wordAt_zero_block (prm : Params) {n : Nat} {a c : List CWord} (hpos : 0 < a.length) (hlen : c.length = a.length) :
    wordAt (runPairs prm n (blockPairs 0 a.length) (a ++ c)) 0 = cadd (wordAt a 0) (wordAt c 0) := by
  have hlt : ∀ x ∈ blockPairs 0 a.length, x.1 < (a ++ c).length ∧ x.2.1 < (a ++ c).length := by
    intro x hx
    obtain ⟨k, hk, rfl⟩ := mem_blockPairs.1 hx
    rw [List.length_append]
    constructor <;> simp only <;> omega
  obtain ⟨hfst, -⟩ := runButterflies_touched (fun x => twiddle prm n x.2.2) (fun x => x.2.2) _ (a ++ c) hlt
    (blockPairs_nodup _ _) _ (mem_blockPairs.2 ⟨0, hpos, rfl⟩)
  simpa [← runPairs_eq, butterfly, wordAt_append_left hpos, wordAt_append_right] using hfst

theorem cadd_of_real (x y : Word) : cadd { re := x, im := 0#32 } { re := y, im := 0#32 } =
    { re := add32 x y, im := 0#32 } := by
  have hzero : add32 0#32 0#32 = 0#32 := by decide
  rw [cadd, hzero]

theorem wordAt_zero_combine (prm : Params) {l : Nat} {b : List CWord} (h : b.length = 2 ^ l)
    (hreal : ∀ c ∈ b, c.im = 0#32) :
    wordAt (combine prm l b) 0 = { re := treeSum l (b.map CWord.re), im := 0#32 } := by
  induction l generalizing b with
  | zero =>
    obtain ⟨c, rfl⟩ := List.length_eq_one_iff.1 h
    rw [← hreal c (by simp)]
    rfl
  | succ l ih =>
    have ha := combine_length prm (length_take_half h)
    have hc := combine_length prm (length_drop_half h)
    have hsum := wordAt_zero_block prm (n := l + 1) (ha.symm ▸ Nat.two_pow_pos l) (hc.trans ha.symm)
    rw [ha, ih (length_take_half h) fun x hx => hreal x (List.mem_of_mem_take hx),
      ih (length_drop_half h) fun x hx => hreal x (List.mem_of_mem_drop hx), cadd_of_real] at hsum
    rw [combine, hsum, treeSum, List.map_take, List.map_drop]

theorem mem_of_mem_permute {l : Nat} {b : List CWord} {c : CWord} (h : b.length = 2 ^ l) (hc : c ∈ permute l b) :
    c ∈ b := by
  obtain ⟨i, -, rfl⟩ := List.mem_map.1 hc
  rw [wordAt_eq (h ▸ rev_lt l i)]
  exact List.getElem_mem _

/-- Settles O16: by induction on L, word 0 being the sum of the two halves' words 0 at every size. -/
theorem cfftDcBinOfRealInput : Obligations.CfftDcBinOfRealInput := by
  intro prm l b _ hlen hreal
  have hperm := permute_length l b
  rw [cfft_eq_combine prm hlen, getElem?_eq_wordAt (by rw [combine_length prm hperm]; exact Nat.two_pow_pos l),
    wordAt_zero_combine prm hperm fun c hc => hreal c (mem_of_mem_permute hlen hc)]

/-! ### A STAGE as BFLY commands -/

/-- The arguments of a BFLY pass the check of R244. -/
def BflyArgsFit (l : Nat) (x : Nat × Nat × Nat) : Prop :=
  x.1 < 2 ^ l ∧ x.2.1 < 2 ^ l ∧ x.1 ≠ x.2.1 ∧ x.2.2 < 2 ^ l / 2

/-- The operand registers as `runBflys` writes them before a BFLY. -/
def withBflyArgs (x : Nat × Nat × Nat) (s : State) : State :=
  { s with arg0 := BitVec.ofNat 16 x.1, arg1 := BitVec.ofNat 16 x.2.1, arg2 := BitVec.ofNat 16 x.2.2 }

theorem runBflys_cons_of_exec {l : Nibble} {x : Nat × Nat × Nat} {xs : List (Nat × Nat × Nat)} {s t : State}
    (h : exec (.bfly l) (withBflyArgs x s) = .next t) : runBflys l (x :: xs) s = runBflys l xs (complete t) := by
  have hrun : issueAndComplete (.bfly l)
      { s with arg0 := BitVec.ofNat 16 x.1, arg1 := BitVec.ofNat 16 x.2.1, arg2 := BitVec.ofNat 16 x.2.2 } =
      some (complete t) := issueAndComplete_of_exec h
  rw [runBflys, hrun]

theorem exec_bfly_withBflyArgs {s : State} {l : Nibble} {bin : List CWord} (h : ready s l (2 ^ l.toNat) bin)
    {x : Nat × Nat × Nat} (hx : BflyArgsFit l.toNat x) :
    exec (.bfly l) (withBflyArgs x s) = .next (acceptedState (withBflyArgs x s) (latchOf 3 l 0 (withBflyArgs x s))
      (butterflyAt bin x.1 x.2.1 (twiddle s.params l.toNat x.2.2) x.2.2)) := by
  obtain ⟨hp, hq, hne, hk⟩ := hx
  have hlt : 2 ^ l.toNat < 2 ^ 16 := Nat.pow_lt_pow_right (by decide) l.isLt
  have e0 : (withBflyArgs x s).arg0.toNat = x.1 := Nat.mod_eq_of_lt (by omega)
  have e1 : (withBflyArgs x s).arg1.toNat = x.2.1 := Nat.mod_eq_of_lt (by omega)
  have e2 : (withBflyArgs x s).arg2.toNat = x.2.2 := Nat.mod_eq_of_lt (by omega)
  have hargs : (withBflyArgs x s).arg0 ≠ (withBflyArgs x s).arg1 := fun e => hne (by rw [← e0, e, e1])
  have hexec := exec_bfly_of_ready (s := withBflyArgs x s) h (e0.symm ▸ hp) (e1.symm ▸ hq) hargs (e2.symm ▸ hk)
  rwa [e0, e1, e2] at hexec

/-- BFLY commands one after the other leave in the window their butterflies one after the other. -/
theorem runBflys_of_ready {s : State} {l : Nibble} {bin : List CWord} {xs : List (Nat × Nat × Nat)}
    (h : ready s l (2 ^ l.toNat) bin) (hfit : ∀ x ∈ xs, BflyArgsFit l.toNat x) :
    ∃ u, runBflys l xs s = some u ∧ u.base = s.base ∧
      ready u l (2 ^ l.toNat) (runPairs s.params l.toNat xs bin) := by
  induction xs generalizing s bin with
  | nil => exact ⟨s, rfl, rfl, h⟩
  | cons x xs ih =>
    rw [runBflys_cons_of_exec (exec_bfly_withBflyArgs h (hfit x (by simp))), runPairs_cons]
    exact ih (ready_complete (s := withBflyArgs x s) h rfl (by rw [butterflyAt_length, length_of_ready h]))
      fun y hy => hfit y (by simp [hy])

/-- TW(2^l, j·2^(l−st)) is TW(2^st, j): both are entry j of M/2^st steps (R133). -/
theorem twiddle_mul_pow {prm : Params} {l st : Nat} (hle : st ≤ l) (hl : l ≤ prm.log2M) (j : Nat) :
    twiddle prm l (j * 2 ^ (l - st)) = twiddle prm st j := by
  have hstep : 2 ^ (l - st) * (prm.size / 2 ^ l) = prm.size / 2 ^ st := by
    rw [Params.size, Nat.pow_div hl two_pos, Nat.pow_div (hle.trans hl) two_pos, ← pow_add]
    congr 1
    omega
  rw [twiddle, Nat.mul_assoc, hstep, twiddle]

/-- A butterfly of stage S with its index as BFLY counts it, in steps of the whole window's twiddles (R191). -/
def scaleIndex (d : Nat) (x : Nat × Nat × Nat) : Nat × Nat × Nat := (x.1, x.2.1, x.2.2 * d)

theorem stageAsBflys_eq {l st : Nat} (hst : 1 ≤ st) (hle : st ≤ l) :
    stageAsBflys l st = (stagePairs l st).map (scaleIndex (2 ^ (l - st))) := by
  simp only [stageAsBflys, stagePairs, blockPairs, scaleIndex, List.map_flatMap, List.map_map, Function.comp_def,
    two_pow_pred hst, Nat.pow_div hle two_pos]

@[simp] theorem pairIndices_map_scaleIndex (d : Nat) (pairs : List (Nat × Nat × Nat)) :
    pairIndices (pairs.map (scaleIndex d)) = pairIndices pairs := by
  simp [pairIndices, List.flatMap_map, scaleIndex]

theorem runPairs_map_scaleIndex {prm : Params} {l st : Nat} (hle : st ≤ l) (hl : l ≤ prm.log2M)
    (pairs : List (Nat × Nat × Nat)) (b : List CWord) :
    runPairs prm l (pairs.map (scaleIndex (2 ^ (l - st)))) b = runPairs prm st pairs b := by
  have hindex (k : Nat) : k * 2 ^ (l - st) = 0 ↔ k = 0 := by simp
  simp only [runPairs, List.foldl_map, scaleIndex, twiddle_mul_pow hle hl, butterflyAt,
    butterfly_index_congr _ _ _ (hindex _)]

/-- Butterflies that share no word may be run in any order (R186). -/
theorem runPairs_perm (prm : Params) (n : Nat) {xs ys : List (Nat × Nat × Nat)} {b : List CWord} (h : xs.Perm ys)
    (hlt : ∀ x ∈ ys, x.1 < b.length ∧ x.2.1 < b.length) (hnodup : (pairIndices ys).Nodup) :
    runPairs prm n xs b = runPairs prm n ys b := by
  have hltx : ∀ x ∈ xs, x.1 < b.length ∧ x.2.1 < b.length := fun x hx => hlt x (h.mem_iff.1 hx)
  have hnodupx : (pairIndices xs).Nodup := (h.flatMap_right _).nodup_iff.2 hnodup
  refine window_ext (by simp) fun i _ => ?_
  simp only [runPairs_eq]
  by_cases hi : ∃ x ∈ xs, i = x.1 ∨ i = x.2.1
  · obtain ⟨x, hx, hi⟩ := hi
    obtain ⟨hfst, hsnd⟩ := runButterflies_touched (fun x => twiddle prm n x.2.2) (fun x => x.2.2) xs b hltx hnodupx x hx
    obtain ⟨hfst', hsnd'⟩ := runButterflies_touched (fun x => twiddle prm n x.2.2) (fun x => x.2.2) ys b hlt hnodup x
      (h.mem_iff.1 hx)
    rcases hi with rfl | rfl
    · rw [hfst, hfst']
    · rw [hsnd, hsnd']
  · have hnot : ∀ x ∈ xs, i ≠ x.1 ∧ i ≠ x.2.1 := by simpa only [not_exists, not_and, not_or] using hi
    rw [runButterflies_untouched _ _ _ _ _ hltx hnot,
      runButterflies_untouched _ _ _ _ _ hlt fun x hx => hnot x (h.mem_iff.2 hx)]

theorem bflyArgsFit_of_mem_stageAsBflys {l st : Nat} (hst : 1 ≤ st) (hle : st ≤ l) {x : Nat × Nat × Nat}
    (hx : x ∈ stageAsBflys l st) : BflyArgsFit l x := by
  rw [stageAsBflys_eq hst hle] at hx
  obtain ⟨y, hy, rfl⟩ := List.mem_map.1 hx
  obtain ⟨hp, hq⟩ := stagePairs_lt hst hle hy
  obtain ⟨b, -, k, hk, rfl⟩ := mem_stagePairs.1 hy
  have hhalf : 2 ^ l / 2 = 2 ^ st / 2 * 2 ^ (l - st) := by
    rw [← two_pow_pred hst, ← two_pow_pred (hst.trans hle), ← pow_add]
    congr 1
    omega
  refine ⟨hp, hq, ?_, ?_⟩
  · simp only [scaleIndex]
    omega
  · rw [hhalf]
    exact Nat.mul_lt_mul_of_pos_right hk (Nat.two_pow_pos _)

theorem runPairs_eq_stage_of_perm {prm : Params} {l st : Nat} {b : List CWord} {order : List (Nat × Nat × Nat)}
    (hlen : b.length = 2 ^ l) (hst : 1 ≤ st) (hle : st ≤ l) (hl : l ≤ prm.log2M) (h : order.Perm (stageAsBflys l st)) :
    runPairs prm l order b = stage prm l st b := by
  have hlt : ∀ x ∈ stageAsBflys l st, x.1 < b.length ∧ x.2.1 < b.length := by
    intro x hx
    obtain ⟨hp, hq, -, -⟩ := bflyArgsFit_of_mem_stageAsBflys hst hle hx
    exact hlen.symm ▸ ⟨hp, hq⟩
  have heq := stageAsBflys_eq hst hle
  rw [runPairs_perm prm l h hlt (by rw [heq, pairIndices_map_scaleIndex]; exact stagePairs_nodup hst), heq,
    runPairs_map_scaleIndex hle hl, stage]

/-- Settles O18: each BFLY passes its checks, and the butterflies of a stage share no word. -/
theorem stageEqualsBflysInAnyOrder : Obligations.StageEqualsBflysInAnyOrder := by
  intro s l st bin order h hst hle horder
  have hl : l.toNat ≤ s.params.log2M := by
    obtain ⟨-, -, hmax, -⟩ := h
    exact hmax
  obtain ⟨u, hrun, hbase, hu⟩ := runBflys_of_ready h fun x hx =>
    bflyArgsFit_of_mem_stageAsBflys hst hle (horder.mem_iff.1 hx)
  rw [runPairs_eq_stage_of_perm (length_of_ready h) hst hle hl horder] at hu
  have ht := ready_complete (latch := latchOf 2 l st s) (bout := stage s.params l.toNat st.toNat bin) h rfl
    (by rw [stage_length, length_of_ready h])
  exact ⟨_, u, _, issueAndComplete_of_exec (exec_stage_of_ready h hst hle), hrun, readWindow_of_ready ht,
    hbase ▸ readWindow_of_ready hu⟩

/-! ### From the CMD write to DONE -/

theorem run_succ_of_next (M : Host.Core) {s t : M.State} (h : M.step s = .next t) (n : Nat) :
    M.run (n + 1) s = M.run n t := by
  rw [Host.Core.run, h]

/-- A running command, with no event to come, completes at the last of its clock edges (R233, R292). -/
theorem run_of_running {s : State} {bout : List CWord} {left : Nat} (hr : s.resetPhase = .out)
    (hp : s.phase = .running bout (left + 1)) (ha : s.agenda = []) :
    core.run (left + 1) s = .next (complete (beginStep s [])) := by
  refine (run_succ_of_next core (step_nil ha) left).trans ?_
  induction left generalizing s with
  | zero => exact congrArg Host.Outcome.next (clockEdge_last (s := beginStep s []) hr hp le_rfl)
  | succ left ih =>
    rw [clockEdge_waiting (s := beginStep s []) hr hp (by omega)]
    have hrest := ih (s := { beginStep s [] with phase := .running bout (left + 1) }) hr rfl rfl
    refine ((run_succ_of_next core (step_nil rfl) left).trans hrest).trans (congrArg Host.Outcome.next ?_)
    rw [complete_running rfl, complete_running (s := beginStep s []) hp]
    rfl

/-- Out of reset, the CMD write of a command's word runs the command, the event taken off and acknowledged (R230). -/
theorem step_commandWrite {s : State} {i : Instr} {rest : List Event} (hr : s.resetPhase = .out)
    (ha : s.agenda = .bus { we := true, addr := 0x024#18, wdata := encode i, wstrb := 0xF#4 } :: rest) :
    step s = exec i (ackWrite (beginStep s rest)) := by
  rw [step_bus ha hr, ← commandWrite_of_decode (decode_encode i)]
  exact busAccess_writeReg (a := 0x024) (by decide) (by decide) _ _

/-- Settles O22: the write's step accepts, and the LATENCY clock edges after it end in the completion step. -/
theorem cfftFromWriteToDone : Obligations.CfftFromWriteToDone := by
  intro s l bin hr h ha
  have hready : ready (ackWrite (beginStep s [])) l (2 ^ l.toNat) bin := h
  have hstep := (step_commandWrite hr ha).trans (exec_cfft_of_ready hready)
  rw [cfft_eq_combine _ (length_of_ready h)] at hstep
  obtain ⟨hread, hframe⟩ := leavesWindow_of_running (t := acceptedState (ackWrite (beginStep s [])) (latchOf 4 l 0 s)
    (combine s.params l.toNat (permute l.toNat bin))) rfl
  rw [combine_length _ (permute_length _ _)] at hread hframe
  exact ⟨_, (run_succ_of_next core hstep _).trans (run_of_running hr rfl rfl), rfl, rfl, hread, hframe, rfl, rfl, rfl, rfl,
    rfl, rfl⟩

end Sys2Proof
end

section
/-! Settles the statements about the real transform (43_rfft.md): what RPOST and RFFT leave in the window, and RFFT against its
two steps run as commands. -/

namespace Sys2Proof

open Sys2Proof.Machine Sys2Proof.Claims

/-! ### The recombination word by word -/

theorem wordAt_of_getElem? {z : List CWord} {i : Nat} {a : CWord} (h : z[i]? = some a) : wordAt z i = a := by
  rw [wordAt, List.getD_eq_getElem?_getD, h, Option.getD_some]

section
variable (prm : Params) {l : Nat} (z : List CWord)

/-- What the recombination of one pair leaves in each word; the two places of a pair differ, for k is below N/4. -/
theorem wordAt_recombineAt {out : List CWord} {k : Nat} (hlen : out.length = 2 ^ l / 2) (hpos : 1 ≤ k) (hk : k < 2 ^ l / 4)
    (i : Nat) : wordAt (recombineAt prm l z out k) i =
      if i = 2 ^ l / 2 - k then (recombine (wordAt z k) (wordAt z (2 ^ l / 2 - k)) (twiddle prm l k)).2
      else if i = k then (recombine (wordAt z k) (wordAt z (2 ^ l / 2 - k)) (twiddle prm l k)).1
      else wordAt out i := by
  rw [recombineAt, wordAt_set _ _ _ _ (by rw [List.length_set]; omega), wordAt_set _ _ _ _ (by omega)]

/-- A word that is in no pair stays. -/
theorem wordAt_foldl_recombineAt_of_ne {out : List CWord} {ks : List Nat} {i : Nat} (hlen : out.length = 2 ^ l / 2)
    (hks : ∀ k ∈ ks, 1 ≤ k ∧ k < 2 ^ l / 4) (hi : ∀ k ∈ ks, i ≠ k ∧ i ≠ 2 ^ l / 2 - k) :
    wordAt (ks.foldl (recombineAt prm l z) out) i = wordAt out i := by
  induction ks generalizing out with
  | nil => rfl
  | cons k ks ih =>
    obtain ⟨⟨hpos, hk⟩, hks⟩ := List.forall_mem_cons.1 hks
    obtain ⟨⟨hlow, hhigh⟩, hi⟩ := List.forall_mem_cons.1 hi
    rw [List.foldl_cons, ih (by rw [recombineAt_length, hlen]) hks hi, wordAt_recombineAt prm z hlen hpos hk,
      if_neg hhigh, if_neg hlow]

/-- Each pair of the loop holds its recombination at the end: the loop reads Z alone, and a pair of another k is
elsewhere (R211). -/
theorem wordAt_foldl_recombineAt {out : List CWord} {ks : List Nat} {k : Nat} (hlen : out.length = 2 ^ l / 2)
    (hks : ∀ k ∈ ks, 1 ≤ k ∧ k < 2 ^ l / 4) (hmem : k ∈ ks) :
    wordAt (ks.foldl (recombineAt prm l z) out) k =
        (recombine (wordAt z k) (wordAt z (2 ^ l / 2 - k)) (twiddle prm l k)).1 ∧
      wordAt (ks.foldl (recombineAt prm l z) out) (2 ^ l / 2 - k) =
        (recombine (wordAt z k) (wordAt z (2 ^ l / 2 - k)) (twiddle prm l k)).2 := by
  induction ks generalizing out with
  | nil => cases hmem
  | cons k' ks ih =>
    obtain ⟨⟨hpos', hk'⟩, htail⟩ := List.forall_mem_cons.1 hks
    obtain ⟨hpos, hk⟩ := hks k hmem
    have hlen' : (recombineAt prm l z out k').length = 2 ^ l / 2 := by rw [recombineAt_length, hlen]
    rw [List.foldl_cons]
    by_cases hlater : k ∈ ks
    · exact ih hlen' htail hlater
    · obtain rfl : k = k' := (List.mem_cons.1 hmem).resolve_right hlater
      have hsep : ∀ j ∈ ks, (k ≠ j ∧ k ≠ 2 ^ l / 2 - j) ∧ (2 ^ l / 2 - k ≠ j ∧ 2 ^ l / 2 - k ≠ 2 ^ l / 2 - j) := by
        intro j hj
        have hne : j ≠ k := ne_of_mem_of_not_mem hj hlater
        obtain ⟨hposj, hj⟩ := htail j hj
        omega
      rw [wordAt_foldl_recombineAt_of_ne prm z hlen' htail fun j hj => (hsep j hj).1,
        wordAt_foldl_recombineAt_of_ne prm z hlen' htail fun j hj => (hsep j hj).2,
        wordAt_recombineAt prm z hlen hpos hk, wordAt_recombineAt prm z hlen hpos hk, if_neg (by omega), if_pos rfl,
        if_pos rfl]
      exact ⟨rfl, rfl⟩

theorem recombinePairs_length : (recombinePairs prm l z).length = z.length := by
  rw [recombinePairs, foldl_recombineAt_length, List.length_set]

/-- The k of R211's loop. -/
theorem mem_pairRange {k : Nat} : k ∈ List.range' 1 (2 ^ l / 4 - 1) ↔ 1 ≤ k ∧ k < 2 ^ l / 4 := by
  rw [List.mem_range'_1]
  omega

theorem wordAt_rpost_of_ne {i : Nat} (hlen : z.length = 2 ^ l / 2) (hmid : 4 ≤ 2 ^ l → i ≠ 2 ^ l / 4) :
    wordAt (rpost prm l z) i = wordAt (recombinePairs prm l z) i := by
  rw [rpost]
  split
  case isTrue h4 =>
    rw [wordAt_set _ _ _ _ (by rw [recombinePairs_length]; omega), if_neg (hmid h4)]
  case isFalse => rfl

/-- The DC word (R213). -/
theorem wordAt_rpost_zero (hlen : z.length = 2 ^ l / 2) (hpos : 0 < 2 ^ l / 2) :
    wordAt (rpost prm l z) 0 = dcBin (wordAt z 0) := by
  rw [wordAt_rpost_of_ne prm z hlen (by omega), recombinePairs,
    wordAt_foldl_recombineAt_of_ne prm z (by rw [List.length_set, hlen]) (fun k => mem_pairRange.1) (fun k hk => ?_),
    wordAt_set _ _ _ _ (by omega), if_pos rfl]
  obtain ⟨hpos, hk⟩ := mem_pairRange.1 hk
  omega

/-- The two words of pair k (R211). -/
theorem wordAt_rpost_pair {k : Nat} (hlen : z.length = 2 ^ l / 2) (hpos : 1 ≤ k) (hk : k < 2 ^ l / 4) :
    wordAt (rpost prm l z) k = (recombine (wordAt z k) (wordAt z (2 ^ l / 2 - k)) (twiddle prm l k)).1 ∧
      wordAt (rpost prm l z) (2 ^ l / 2 - k) =
        (recombine (wordAt z k) (wordAt z (2 ^ l / 2 - k)) (twiddle prm l k)).2 := by
  rw [wordAt_rpost_of_ne prm z hlen (by omega), wordAt_rpost_of_ne prm z hlen (by omega)]
  exact wordAt_foldl_recombineAt prm z (by rw [List.length_set, hlen]) (fun k => mem_pairRange.1)
    (mem_pairRange.2 ⟨hpos, hk⟩)

/-- The midpoint (R212). -/
theorem wordAt_rpost_mid (hlen : z.length = 2 ^ l / 2) (h4 : 4 ≤ 2 ^ l) :
    wordAt (rpost prm l z) (2 ^ l / 4) = midBin (wordAt z (2 ^ l / 4)) := by
  rw [rpost, if_pos h4, wordAt_set _ _ _ _ (by rw [recombinePairs_length]; omega), if_pos rfl]

/-- The loop of `rpost` computes R211's recombination, word by word. -/
theorem recombined_rpost {z : List CWord} (hlen : z.length = 2 ^ l / 2) : recombined prm l z (rpost prm l z) := by
  have hword : ∀ i < 2 ^ l / 2, (rpost prm l z)[i]? = some (wordAt (rpost prm l z) i) := fun i hi =>
    getElem?_eq_wordAt (by rwa [rpost_length, hlen])
  refine ⟨by rw [rpost_length, hlen], fun a ha => ?_, fun k a b hpos hk ha hb => ?_, fun a h4 ha => ?_⟩
  · obtain ⟨hz, -⟩ := List.getElem?_eq_some_iff.1 ha
    rw [hword 0 (hlen ▸ hz), wordAt_rpost_zero prm z hlen (hlen ▸ hz), wordAt_of_getElem? ha]
  · obtain ⟨hlow, hhigh⟩ := wordAt_rpost_pair prm z hlen hpos hk
    rw [hword k (by omega), hword (2 ^ l / 2 - k) (by omega), hlow, hhigh, wordAt_of_getElem? ha, wordAt_of_getElem? hb]
    exact ⟨rfl, rfl⟩
  · rw [hword (2 ^ l / 4) (by omega), wordAt_rpost_mid prm z hlen h4, wordAt_of_getElem? ha]

end

/-! ### RPOST and RFFT under their checks -/

section
variable {s : State} {l : Nibble} {bin : List CWord} (h : ready s l (2 ^ l.toNat / 2) bin)
include h

theorem length_of_ready_half : bin.length = 2 ^ l.toNat / 2 := readWindow_length (readWindow_of_ready h)

theorem exec_rpost_of_ready :
    exec (.rpost l) s = .next (acceptedState s (latchOf 5 l 0 s) (rpost s.params l.toNat bin)) := by
  simpa [imageOf, latchOf] using exec_of_ready (i := .rpost l) h (by simp) rfl rfl rfl

theorem exec_rfft_of_ready :
    exec (.rfft l) s = .next (acceptedState s (latchOf 6 l 0 s) (rfft s.params l.toNat bin)) := by
  simpa [imageOf, latchOf] using exec_of_ready (i := .rfft l) h (by simp) rfl rfl rfl

end

/-! ### RPOST -/

/-- Settles O12: the pairs of the loop share no word with each other, nor with the DC word or the midpoint. -/
theorem rpostRecombinesWindow : Obligations.RpostRecombinesWindow := by
  intro s l bin h
  exact ⟨_, exec_rpost_of_ready h, leavesWindow_of_running rfl, recombined_rpost _ (length_of_ready_half h)⟩

/-! ### RFFT -/

/-- Settles O13: RFFT is `rpost` of the half-length transform, whose stage loop is the recursion. -/
theorem rfftRecombinesHalfTransform : Obligations.RfftRecombinesHalfTransform := by
  intro s l bin h
  have ⟨_, hmin, _⟩ := h
  have hbin := length_of_ready_half h
  have hlen : bin.length = 2 ^ (l.toNat - 1) := hbin.trans (two_pow_pred hmin).symm
  refine ⟨_, exec_rfft_of_ready h, leavesWindow_of_running rfl, ?_⟩
  rw [rfft, ← cfft_eq_combine _ hlen]
  exact recombined_rpost _ ((cfft_length _ _ _ hlen).trans hbin)

/-! ### RFFT as its two steps -/

/-- A command of another size over the same window is ready once LEN is rewritten for it (R246). -/
theorem ready_of_len {s : State} {l l' : Nibble} {w w' : Nat} {bin : List CWord} {len : Half} (h : ready s l w bin)
    (hw : w = w') (hmin : 1 ≤ l'.toNat) (hmax : l'.toNat ≤ s.params.log2M) (hlen : len.toNat = 2 ^ l'.toNat) :
    ready { s with len := len } l' w' bin := by
  subst hw
  obtain ⟨hidle, -, -, -, hrange, hbin⟩ := h
  exact ⟨hidle, hmin, hmax, hlen, hrange, hbin⟩

theorem toNat_ofNat_two_pow (l : Nibble) : (BitVec.ofNat 16 (2 ^ l.toNat)).toNat = 2 ^ l.toNat :=
  Nat.mod_eq_of_lt (Nat.pow_lt_pow_right (by decide) l.isLt)

/-- An accepted command run to completion leaves its image in the window, ready for a command over it. -/
theorem exists_issueAndComplete {i : Instr} {s : State} {l : Nibble} {w : Nat} {bin bout : List CWord} {latch : Latch}
    (h : ready s l w bin) (hexec : exec i s = .next (acceptedState s latch bout)) (hbase : latch.base = s.base)
    (hlen : bout.length = w) :
    ∃ t, issueAndComplete i s = some t ∧ t.params = s.params ∧ t.base = s.base ∧ ready t l w bout :=
  ⟨_, issueAndComplete_of_exec hexec, rfl, rfl, ready_complete h hbase hlen⟩

theorem exists_issueAndComplete_cfft {s : State} {l : Nibble} {bin : List CWord} (h : ready s l (2 ^ l.toNat) bin) :
    ∃ t, issueAndComplete (.cfft l) s = some t ∧ t.params = s.params ∧ t.base = s.base ∧
      ready t l (2 ^ l.toNat) (cfft s.params l.toNat bin) := by
  have hlen := length_of_ready h
  exact exists_issueAndComplete h (exec_cfft_of_ready h) rfl ((cfft_length _ _ _ hlen).trans hlen)

section
variable {s : State} {l : Nibble} {bin : List CWord} (h : ready s l (2 ^ l.toNat / 2) bin)
include h

theorem exists_issueAndComplete_rpost :
    ∃ t, issueAndComplete (.rpost l) s = some t ∧ t.params = s.params ∧ t.base = s.base ∧
      ready t l (2 ^ l.toNat / 2) (rpost s.params l.toNat bin) :=
  exists_issueAndComplete h (exec_rpost_of_ready h) rfl ((rpost_length _ _ _).trans (length_of_ready_half h))

theorem exists_issueAndComplete_rfft :
    ∃ t, issueAndComplete (.rfft l) s = some t ∧ t.params = s.params ∧ t.base = s.base ∧
      ready t l (2 ^ l.toNat / 2) (rfft s.params l.toNat bin) := by
  have ⟨_, hmin, _⟩ := h
  have hlen := length_of_ready_half h
  exact exists_issueAndComplete h (exec_rfft_of_ready h) rfl ((rfft_length _ _ _ hmin hlen).trans hlen)

/-- For L ≥ 2 the image of RFFT is made by CFFT of size exponent L − 1, then RPOST, with LEN rewritten before each. -/
theorem rfft_as_cfft_then_rpost {e : Nibble} (hsucc : e.toNat + 1 = l.toNat) (hl : 2 ≤ l.toNat) :
    ∃ u v, issueAndComplete (.cfft e) { s with len := BitVec.ofNat 16 (2 ^ e.toNat) } = some u ∧
      issueAndComplete (.rpost l) { u with len := s.len } = some v ∧ v.base = s.base ∧
      ready v l (2 ^ l.toNat / 2) (rfft s.params l.toNat bin) := by
  have ⟨_, hmin, hmax, hsize, _⟩ := h
  have hhalf : 2 ^ l.toNat / 2 = 2 ^ e.toNat := by rw [← hsucc, pow_succ, Nat.mul_div_cancel _ two_pos]
  have hcfft : ready { s with len := BitVec.ofNat 16 (2 ^ e.toNat) } e (2 ^ e.toNat) bin :=
    ready_of_len h hhalf (by omega) (by omega) (toNat_ofNat_two_pow e)
  obtain ⟨u, hu, huparams, hubase, huready⟩ := exists_issueAndComplete_cfft hcfft
  have hrpost : ready { u with len := s.len } l (2 ^ l.toNat / 2) (cfft s.params e.toNat bin) :=
    ready_of_len huready hhalf.symm hmin (huparams ▸ hmax) hsize
  obtain ⟨v, hv, -, hvbase, hvready⟩ := exists_issueAndComplete_rpost hrpost
  refine ⟨u, v, hu, hv, hvbase.trans hubase, ?_⟩
  rw [rfft, ← hsucc, Nat.add_sub_cancel, hsucc]
  exact huparams ▸ hvready

end

/-- Settles O19: each command is accepted on the window that the one before it left, and the images are equal by the
definition of `rfft`; for L = 1 the half-length transform is the identity. -/
theorem rfftEqualsCfftThenRpost : Obligations.RfftEqualsCfftThenRpost := by
  refine ⟨fun s l e bin h hsucc hl => ?_, fun s bin h => ?_⟩
  · obtain ⟨t, ht, -, htbase, htready⟩ := exists_issueAndComplete_rfft h
    obtain ⟨u, v, hu, hv, hvbase, hvready⟩ := rfft_as_cfft_then_rpost h hsucc hl
    exact ⟨t, u, v, _, ht, hu, hv, htbase ▸ readWindow_of_ready htready, hvbase ▸ readWindow_of_ready hvready⟩
  · obtain ⟨t, ht, -, htbase, htready⟩ := exists_issueAndComplete_rfft (l := 1) h
    obtain ⟨v, hv, -, hvbase, hvready⟩ := exists_issueAndComplete_rpost (l := 1) h
    exact ⟨t, v, _, ht, hv, htbase ▸ readWindow_of_ready htready, hvbase ▸ readWindow_of_ready hvready⟩

end Sys2Proof
end

section
/-! Settles the statements about the life of a command (44_control.md): the CMD write at the port, its drop, rejection and
acceptance with their frame, NOP, and the completion step. -/

namespace Sys2Proof

open Sys2Proof.Machine Sys2Proof.Claims

/-! ### A CMD write at the port -/

/-- Out of reset, a CMD write of any word is its command write, the event taken off and acknowledged (R230). -/
theorem step_eq_commandWrite {s : State} {w : Word} {rest : List Event} (hr : s.resetPhase = .out)
    (ha : s.agenda = .bus { we := true, addr := 0x024#18, wdata := w, wstrb := 0xF#4 } :: rest) :
    step s = commandWrite w (ackWrite (beginStep s rest)) :=
  (step_bus ha hr).trans (busAccess_writeReg (a := 0x024) (by decide) (by decide) w _)

/-- Settles O5: by what the word is and whether the unit is BUSY, the command write is exec, the rejection or the overrun. -/
theorem stepRunsDecodedCommand : Obligations.StepRunsDecodedCommand := by
  intro s w rest hr ha s'
  have hstep : step s = commandWrite w s' := step_eq_commandWrite hr ha
  exact ⟨hstep, fun _ hi => hstep.trans (commandWrite_of_decode hi s'),
    fun _ he hidle => hstep.trans (commandWrite_of_illegal he hidle),
    fun hbusy => hstep.trans (commandWrite_of_busy (s := s') hbusy w)⟩

/-! ### Overrun and rejection -/

/-- Settles O25: a word that decodes and one that does not, and likewise every command. -/
theorem commandWhileBusyIsDropped : Obligations.CommandWhileBusyIsDropped := by
  intro w s hbusy
  exact ⟨commandWrite_of_busy hbusy w, fun i => (exec_eq_issue i s).trans (issue_of_busy hbusy)⟩

/-- The codes of R241 are 1 to 5. -/
theorem one_le_errorCode (e : ErrorKind) : 1 ≤ (errorCode e).toNat := by
  cases e <;> decide

/-- A CMD write while not BUSY that leaves ERR set was a rejection: acceptance clears ERR (R41). -/
theorem commandWrite_err {w : Word} {s t : State} (hidle : s.status.busy = false) (h : commandWrite w s = .next t)
    (herr : t.status.err = true) : ∃ e, t = reject e s := by
  cases hd : decode w with
  | error d =>
    rw [commandWrite_of_illegal hd hidle] at h
    cases h
    exact ⟨_, rfl⟩
  | ok i =>
    rw [commandWrite_of_decode hd] at h
    rcases exec_next_cases h with ⟨hbusy, -⟩ | ⟨-, e, -, rfl⟩ | ⟨-, -, bin, -, rfl⟩
    · exact absurd hbusy (by simp [hidle])
    · exact ⟨e, rfl⟩
    · exact absurd herr (by simp)

/-- Settles O24: such a write is `reject`, which changes these three fields of STATUS. -/
theorem rejectionChangesStatusOnly : Obligations.RejectionChangesStatusOnly := by
  intro w s t hidle h herr
  obtain ⟨e, rfl⟩ := commandWrite_err hidle h herr
  obtain ⟨-, hle⟩ := errorCode_range e
  exact ⟨rfl, one_le_errorCode e, hle⟩

/-! ### The frame of a command -/

/-- The CMD write of a command changes LATCH, STATUS and the phase at most (R231, R232, R234). -/
theorem exec_frame {i : Instr} {s t : State} (h : exec i s = .next t) :
    ∃ latch status phase, t = { s with latch := latch, status := status, phase := phase } := by
  rcases exec_next_cases h with ⟨-, rfl⟩ | ⟨-, e, -, rfl⟩ | ⟨-, -, bin, -, rfl⟩ <;> exact ⟨_, _, _, rfl⟩

/-- Only a CMD write while BUSY touches OVR (R41). -/
theorem exec_ovr {i : Instr} {s t : State} (h : exec i s = .next t) (hidle : s.status.busy = false) :
    t.status.ovr = s.status.ovr := by
  rcases exec_next_cases h with ⟨hbusy, -⟩ | ⟨-, e, -, rfl⟩ | ⟨-, -, bin, -, rfl⟩
  · exact absurd hbusy (by simp [hidle])
  · rfl
  · rfl

/-- LATCH and the phase change only by acceptance, which takes the unit from not BUSY to BUSY (R41, R231). -/
theorem exec_latch_phase {i : Instr} {s t : State} (h : exec i s = .next t)
    (hb : t.status.busy = false ∨ s.status.busy = true) : t.latch = s.latch ∧ t.phase = s.phase := by
  rcases exec_next_cases h with ⟨-, rfl⟩ | ⟨-, e, -, rfl⟩ | ⟨hidle, -, bin, -, rfl⟩
  · exact ⟨rfl, rfl⟩
  · exact ⟨rfl, rfl⟩
  · exact absurd hb (by simp [hidle])

/-- Settles O26: every other field is as the frame leaves it. -/
theorem commandWriteFrame : Obligations.CommandWriteFrame := by
  intro i s t h
  have hovr := exec_ovr h
  have hlatch := exec_latch_phase h
  obtain ⟨latch, status, phase, rfl⟩ := exec_frame h
  exact ⟨fun _ => rfl, rfl, rfl, rfl, rfl, rfl, rfl, rfl, rfl, rfl, rfl, hovr, hlatch⟩

/-! ### NOP -/

/-- NOP has no check to fail and an empty window, so nothing unwritten to read (R235). -/
theorem exec_nop_of_idle {s : State} (hidle : s.status.busy = false) :
    exec .nop s = .next (acceptedState s (latchOf 0 0 0 s) []) := by
  have hlatch : captureLatch .nop s = latchOf 0 0 0 s := by simp [captureLatch, latchOf, encode]
  rw [exec_eq_issue, issue_of_window hidle (validate_nop s) rfl, hlatch]
  rfl

/-- Settles O7: the window that completion writes is empty, so every byte lies outside it. -/
theorem nopIsAccepted : Obligations.NopIsAccepted := by
  intro s hidle
  obtain ⟨-, houtside⟩ := leavesWindow_of_running (t := acceptedState s (latchOf 0 0 0 s) []) rfl
  exact ⟨exec_nop_of_idle hidle, fun a => houtside a (Nat.lt_or_ge _ _)⟩

/-! ### Completion -/

/-- Time passes at a clock edge of the agenda, and when no event is left (log 8). -/
theorem step_clockEdge {s : State} (h : s.agenda = [] ∨ ∃ rest, s.agenda = .clk :: rest) :
    ∃ rest, step s = .next (clockEdge (beginStep s rest)) := by
  rcases h with hnil | ⟨rest, hclk⟩
  · exact ⟨[], step_nil hnil⟩
  · exact ⟨rest, step_cons hclk⟩

/-- Settles O20: the last clock edge is `complete`, which writes the window and changes STATUS and the phase besides. -/
theorem completionWritesTheWindow : Obligations.CompletionWritesTheWindow := by
  intro s bout left hr hp hlast ha
  obtain ⟨rest, hstep⟩ := step_clockEdge ha
  rw [clockEdge_last (s := beginStep s rest) hr hp hlast] at hstep
  obtain ⟨hread, houtside⟩ := leavesWindow_of_running (t := beginStep s rest) hp
  rw [complete_running (s := beginStep s rest) hp] at hstep hread houtside
  exact ⟨_, hstep, hread, houtside, rfl, rfl, rfl, hr, rfl, rfl, rfl, rfl, rfl, rfl, rfl⟩

end Sys2Proof
end

section
/-! Settles the statements about checks and the interrupt (60_exceptions.md): the priority order of a CMD write's checks, and
what raises and lowers irq. -/

namespace Sys2Proof

open Sys2Proof.Machine Sys2Proof.Claims

/-! ### What fails each check -/

theorem sizeUnsupported_eq_true_iff (p : Params) (i : Instr) :
    sizeUnsupported p i = true ↔ i.sizeExp = 0 ∨ p.log2M < i.sizeExp := by
  simp [sizeUnsupported]

theorem stageOutOfRange_eq_true_iff (l st : Nibble) :
    stageOutOfRange l st = true ↔ st.toNat = 0 ∨ l.toNat < st.toNat := by
  simp only [stageOutOfRange, Bool.or_eq_true, beq_iff_eq, decide_eq_true_eq]

theorem bflyArgsBad_eq_true_iff (l : Nibble) (s : State) :
    bflyArgsBad l s = true ↔ 2 ^ l.toNat ≤ s.arg0.toNat ∨ 2 ^ l.toNat ≤ s.arg1.toNat ∨ s.arg0 = s.arg1 ∨
      2 ^ l.toNat / 2 ≤ s.arg2.toNat := by
  simp only [bflyArgsBad, Bool.or_eq_true, beq_iff_eq, decide_eq_true_eq, or_assoc]

/-- Only STAGE and BFLY have arguments that can be bad (R244). -/
theorem argsBad_eq_true_iff (i : Instr) (s : State) :
    argsBad i s = true ↔ (∃ l st, i = .stage l st ∧ (st.toNat = 0 ∨ l.toNat < st.toNat)) ∨
      (∃ l, i = .bfly l ∧ (2 ^ l.toNat ≤ s.arg0.toNat ∨ 2 ^ l.toNat ≤ s.arg1.toNat ∨ s.arg0 = s.arg1 ∨
        2 ^ l.toNat / 2 ≤ s.arg2.toNat)) := by
  cases i with
  | stage l st => simp [argsBad, stageOutOfRange_eq_true_iff]
  | bfly l => simp [argsBad, bflyArgsBad_eq_true_iff]
  | _ => simp [argsBad]

theorem lengthMismatch_eq_true_iff (i : Instr) (s : State) :
    lengthMismatch i s = true ↔ s.len.toNat ≠ 2 ^ i.sizeExp := by
  simp [lengthMismatch, commandSize]

/-- The window is half as long for RPOST and RFFT (R180), so the two range conditions are the one of R245. -/
theorem outOfRange_eq_true_iff {i : Instr} (hne : i ≠ .nop) (s : State) :
    outOfRange i s = true ↔
      ((∃ l, i = .rpost l) ∨ (∃ l, i = .rfft l) → s.params.size < s.base.toNat + 2 ^ i.sizeExp / 2) ∧
      (¬ ((∃ l, i = .rpost l) ∨ (∃ l, i = .rfft l)) → s.params.size < s.base.toNat + 2 ^ i.sizeExp) := by
  rw [outOfRange, decide_eq_true_eq]
  cases i with
  | nop => exact absurd rfl hne
  | _ => simp [windowWords, Instr.sizeExp]

/-! ### The first check that fails -/

section
variable {i : Instr} {s : State} (hne : i ≠ .nop)
include hne

theorem validate_of_sizeUnsupported (hsize : sizeUnsupported s.params i = true) :
    validate i s = some .unsupportedSize := by
  rw [validate_eq_sized hne, validateSized, if_pos hsize]

theorem validate_of_argsBad (hsize : ¬ sizeUnsupported s.params i = true) (hargs : argsBad i s = true) :
    validate i s = some .badArg := by
  rw [validate_eq_sized hne, validateSized, if_neg hsize, if_pos hargs]

theorem validate_of_lengthMismatch (hsize : ¬ sizeUnsupported s.params i = true) (hargs : ¬ argsBad i s = true)
    (hlen : lengthMismatch i s = true) : validate i s = some .sizeMismatch := by
  rw [validate_eq_sized hne, validateSized, if_neg hsize, if_neg hargs, if_pos hlen]

theorem validate_of_outOfRange (hsize : ¬ sizeUnsupported s.params i = true) (hargs : ¬ argsBad i s = true)
    (hlen : ¬ lengthMismatch i s = true) (hrange : outOfRange i s = true) : validate i s = some .range := by
  rw [validate_eq_sized hne, validateSized, if_neg hsize, if_neg hargs, if_neg hlen, if_pos hrange]

theorem validate_of_checks (hsize : ¬ sizeUnsupported s.params i = true) (hargs : ¬ argsBad i s = true)
    (hlen : ¬ lengthMismatch i s = true) (hrange : ¬ outOfRange i s = true) : validate i s = none := by
  rw [validate_eq_sized hne, validateSized, if_neg hsize, if_neg hargs, if_neg hlen, if_neg hrange]

end

/-- A command that passes its checks is accepted if its window is written, and stops the model otherwise (R231, R282). -/
theorem exec_of_valid {i : Instr} {s : State} (hidle : s.status.busy = false) (hv : validate i s = none) :
    (∃ latch bout, exec i s = .next (acceptedState s latch bout)) ∨ exec i s = .fault .unwrittenWindow := by
  rw [exec_eq_issue]
  cases hw : readWindow s.mem s.base.toNat (windowWords i) with
  | none => exact .inr (issue_of_unwritten hidle hv hw)
  | some bin => exact .inl ⟨_, _, issue_of_window hidle hv hw⟩

/-- Settles O23: each condition of R247 is one check of `validate`, and the first check that fails names the code. -/
theorem checksInPriorityOrder : Obligations.ChecksInPriorityOrder := by
  refine ⟨fun w e s hd hidle => commandWrite_of_illegal hd hidle,
    fun s hidle => ⟨rfl, _, exec_nop_of_idle hidle, rfl⟩, ?_⟩
  intro s i hidle hne sizeBad argBad lenBad half rangeBad
  have hsize : sizeUnsupported s.params i = true ↔ sizeBad := sizeUnsupported_eq_true_iff s.params i
  have hargs : argsBad i s = true ↔ argBad := argsBad_eq_true_iff i s
  have hlen : lengthMismatch i s = true ↔ lenBad := lengthMismatch_eq_true_iff i s
  have hrange : outOfRange i s = true ↔ rangeBad := outOfRange_eq_true_iff hne s
  rw [← hsize, ← hargs, ← hlen, ← hrange]
  refine ⟨fun h2 => exec_of_error hidle (validate_of_sizeUnsupported hne h2),
    fun n2 h3 => exec_of_error hidle (validate_of_argsBad hne n2 h3),
    fun n2 n3 h4 => exec_of_error hidle (validate_of_lengthMismatch hne n2 n3 h4),
    fun n2 n3 n4 h5 => exec_of_error hidle (validate_of_outOfRange hne n2 n3 n4 h5), fun n2 n3 n4 n5 => ?_⟩
  have hv : validate i s = none := validate_of_checks hne n2 n3 n4 n5
  exact ⟨hv, exec_of_valid hidle hv⟩

/-! ### The interrupt -/

/-- DONE is up after a completion, so irq is IE (R41, R250). -/
theorem irq_complete {s : State} {bout : List CWord} {left : Nat} (h : s.phase = .running bout left) :
    irq (complete s) = s.ie := by
  rw [complete_running h]
  exact Bool.and_true s.ie

/-- DONE is up after a rejection, so irq is IE (R41, R250). -/
theorem irq_reject (e : ErrorKind) (s : State) : irq (reject e s) = s.ie :=
  Bool.and_true s.ie

theorem irq_hostClear {w : Word} (h : w.getLsbD 1 = true) (s : State) : irq (hostClear w s) = false := by
  simp [irq, h]

/-- Settles O33: a write of STATUS is `hostClear`, one of CTRL stores IE, and ERR up after a CMD write means a rejection. -/
theorem interruptLevel : Obligations.InterruptLevel := by
  refine ⟨fun _ => rfl, fun _ _ _ => irq_complete, fun w s t hidle h herr => ?rejected, fun s t v h hbit => ?status,
    fun s t v h hbit => ?ctrl⟩
  case rejected =>
    obtain ⟨e, rfl⟩ := commandWrite_err hidle h herr
    exact irq_reject e s
  case status =>
    rw [busAccess_writeReg (a := 0x00C) (by decide) (by decide)] at h
    cases h
    exact irq_hostClear hbit (ackWrite s)
  case ctrl =>
    rw [busAccess_writeReg (a := 0x008) (by decide) (by decide)] at h
    cases h
    exact congrArg (· && s.status.done) hbit

end Sys2Proof
end

section
/-! Settles the statements about reset and hazards (70_reset_and_hazards.md): the reset pin, what a read or a command over
unwritten sample words does, the hazard of a sample RAM access while BUSY, and the clock edges of a running command. -/

namespace Sys2Proof

open Sys2Proof.Machine

/-! ### The reset pin -/

/-- The event of a clock edge, or none left, is one clock edge, the rest of the agenda still to come (log 8). -/
theorem step_of_clockEdge {s : State} {rest : List Event} (h : s.agenda = .clk :: rest ∨ (s.agenda = [] ∧ rest = [])) :
    step s = .next (clockEdge (beginStep s rest)) := by
  rcases h with hclk | ⟨hnil, rfl⟩
  · exact step_cons hclk
  · exact step_nil hnil

/-- Until the unit has left reset a step starts from the reset state (R280). -/
theorem beginStep_inReset {s : State} (h : Inv s) (hr : s.resetPhase ≠ .out) (rest : List Event) :
    beginStep s rest = { State.resetOf s.params with resetPhase := s.resetPhase, agenda := rest } :=
  congrArg (beginStep · rest) (h.resetHeld hr)

/-- Settles O55: low is the reset state at once; until the first clock edge after the pin's rise, the invariant holds the
registers at that state. -/
theorem resetPinBehaviour : Obligations.ResetPinBehaviour := by
  refine ⟨fun s rest ha => step_cons ha, fun s r rest hr ha => ⟨BusOut.idle, rfl, step_bus_inReset ha hr⟩, ?held, ?rise,
    ?firstEdge, ?inReset⟩
  case held =>
    intro s rest hr ha
    refine ⟨BusOut.idle, rfl, ?_⟩
    rw [step_of_clockEdge ha, clockEdge_held (s := beginStep s rest) hr]
    rfl
  case rise =>
    intro s rest h hr ha
    rw [step_cons ha, beginStep_inReset h (by simp [hr]), hr]
    rfl
  case firstEdge =>
    intro s rest h hr ha
    rw [step_of_clockEdge ha, clockEdge_ending (s := beginStep s rest) hr, beginStep_inReset h (by simp [hr])]
    rfl
  case inReset =>
    intro s h hr
    have hs : s = { State.resetOf s.params with resetPhase := s.resetPhase, bus := s.bus, agenda := s.agenda } :=
      h.resetHeld hr
    exact ⟨fun r => (congrArg (readReg · r) hs).trans rfl, congrArg State.phase hs, fun a => congrArg (readByte ·.mem a) hs,
      congrArg irq hs⟩

/-! ### Unwritten sample words -/

theorem ramRead_unwritten {s : State} {a : Nat} (h : s.status.busy = false) (hv : readHalf s.mem a = none) :
    ramRead a s = .fault .unwrittenSample := by
  simp [ramRead, h, hv]

theorem readHalf_eq_none_of_byte {m : Memory} {a b : Nat} (hb : b < 4) (h : readByte m (a + b) = none) :
    readHalf m a = none := by
  by_contra hne
  have hwritten := (readHalf_isSome_iff m a).1 (Option.isSome_iff_ne_none.2 hne) b hb
  simp [h] at hwritten

/-- Settles O40: such a read is `ramRead`, which answers as `readHalf` does, and a half with an unwritten byte has no value. -/
theorem unwrittenHalfReadFaults : Obligations.UnwrittenHalfReadFaults := by
  intro r s a hwe hidle hleg hram
  have hread : busAccess r s = ramRead a s := by rw [busAccess_legalRead hleg hwe, hram]; rfl
  rw [hread]
  refine ⟨fun b hb x hbyte => ?_, ramRead_unwritten hidle, fun v => ramRead_idle hidle⟩
  rw [ramRead_unwritten hidle (readHalf_eq_none_of_byte hb hbyte)]
  exact nofun

theorem readWindow_eq_none_iff (m : Memory) (j n : Nat) :
    readWindow m j n = none ↔ ∃ i < n, readSample m (j + i) = none := by
  induction n generalizing j with
  | zero => simp [readWindow]
  | succ n ih =>
    have hshift : (∃ i < n, readSample m (j + 1 + i) = none) ↔ ∃ i < n, readSample m (j + (i + 1)) = none := by
      simp only [Nat.add_assoc, Nat.add_comm 1]
    rw [Nat.exists_lt_succ_left, ← hshift, ← ih (j + 1), Nat.add_zero, readWindow]
    cases readSample m j <;> cases readWindow m (j + 1) n <;> simp

/-- Settles O27: the one stop of a CMD write is `issue`'s, at an unreadable window. -/
theorem commandFaultsOnUnwrittenWindow : Obligations.CommandFaultsOnUnwrittenWindow := by
  intro i s r
  rw [exec_eq_issue, ← readWindow_eq_none_iff]
  constructor
  · exact issue_fault_cases
  · rintro ⟨rfl, hidle, hv, hw⟩
    exact issue_of_unwritten hidle hv hw

/-! ### The hazard of the sample RAM -/

theorem commandWrite_fault {w : Word} {s : State} {r : Fault} (h : commandWrite w s = .fault r) :
    r = .unwrittenWindow := by
  cases hd : decode w with
  | error e => simp [commandWrite, hd] at h
  | ok i =>
    rw [commandWrite_of_decode hd, exec_eq_issue] at h
    obtain ⟨hr, -⟩ := issue_fault_cases h
    exact hr

/-- A register write stops only as a CMD write does (R282). -/
theorem writeReg_fault {g : Reg} {w : Word} {s : State} {r : Fault} (h : writeReg g w s = .fault r) :
    r = .unwrittenWindow := by
  cases g with
  | cmd => exact commandWrite_fault h
  | _ => exact nomatch h

theorem ramRead_hazard_iff (a : Nat) (s : State) : ramRead a s = .fault .hazardSramBusy ↔ s.status.busy = true := by
  cases hb : s.status.busy with
  | true => simp [ramRead, hb]
  | false => cases hv : readHalf s.mem a <;> simp [ramRead, hb, hv]

theorem ramWrite_hazard_iff (a : Nat) (w : Word) (s : State) :
    ramWrite a w s = .fault .hazardSramBusy ↔ s.status.busy = true := by
  cases hb : s.status.busy <;> simp [ramWrite, hb]

theorem busRead_hazard_iff (g : Region) (s : State) :
    busRead g s = .fault .hazardSramBusy ↔ s.status.busy = true ∧ ∃ a, g = .ram a := by
  cases g with
  | ram a => simpa [busRead] using ramRead_hazard_iff a s
  | _ => simp [busRead]

theorem busWrite_hazard_iff (g : Region) (w : Word) (s : State) :
    busWrite g w s = .fault .hazardSramBusy ↔ s.status.busy = true ∧ ∃ a, g = .ram a := by
  cases g with
  | ram a => simpa [busWrite] using ramWrite_hazard_iff a w s
  | reg g =>
    have hne : writeReg g w (ackWrite s) ≠ .fault .hazardSramBusy := fun h => nomatch writeReg_fault h
    simpa [busWrite] using hne
  | _ => simp [busWrite]

/-- Settles O39: a bus error comes before the hazard, and of the legal accesses `busRead` and `busWrite` raise it for the sample
RAM alone. -/
theorem sampleAccessWhileBusyIsHazard : Obligations.SampleAccessWhileBusyIsHazard := by
  intro r s
  cases hleg : accessLegal r with
  | true =>
    cases hwe : r.we with
    | true => simpa [busAccess_legalWrite hleg hwe] using busWrite_hazard_iff (regionOf s.params r.addr.toNat) r.wdata s
    | false => simpa [busAccess_legalRead hleg hwe] using busRead_hazard_iff (regionOf s.params r.addr.toNat) s
  | false =>
    by_cases hmap : regionOf s.params r.addr.toNat = .unmapped
    · simp [busAccess_unmapped hmap]
    · simp [busAccess_illegal hmap hleg]

/-! ### The clock edges of a running command -/

theorem beginStep_nil {s : State} (h : s.agenda = []) : beginStep s [] = { s with bus := BusOut.idle } := by
  rw [beginStep, ← h]

/-- With no event to come, each clock edge before the last only counts down (R233, R292). -/
theorem run_waiting {s : State} {bout : List CWord} {left n : Nat} (hr : s.resetPhase = .out)
    (hp : s.phase = .running bout left) (ha : s.agenda = []) (hn : n < left) :
    ∃ b, core.run n s = .next { s with phase := .running bout (left - n), bus := b } := by
  induction n generalizing s left with
  | zero => exact ⟨s.bus, by rw [Nat.sub_zero, ← hp]; rfl⟩
  | succ n ih =>
    have hstep : step s = .next { s with phase := .running bout (left - 1), bus := BusOut.idle } := by
      rw [step_nil ha, beginStep_nil ha, clockEdge_waiting (s := { s with bus := BusOut.idle }) hr hp (by omega)]
    obtain ⟨b, hrun⟩ := ih (s := { s with phase := .running bout (left - 1), bus := BusOut.idle }) hr rfl ha (by omega)
    refine ⟨b, (run_succ_of_next core hstep n).trans ?_⟩
    rw [hrun, Nat.sub_sub, Nat.add_comm 1 n]

/-- Settles O21: the run waits, then ends in the completion step; a single clock edge is idle or counts down. -/
theorem completionAfterLatency : Obligations.CompletionAfterLatency := by
  refine ⟨fun s bout left hr hp hpos ha => ⟨fun n hn => run_waiting hr hp ha hn, ?last⟩,
    fun s rest hr ha => ⟨fun hp => ⟨BusOut.idle, rfl, ?idle⟩, fun bout left hp hl => ⟨BusOut.idle, rfl, ?waiting⟩⟩⟩
  case last =>
    obtain ⟨k, rfl⟩ := Nat.exists_eq_add_of_le' hpos
    obtain ⟨hread, houtside⟩ := leavesWindow_of_running (t := { s with bus := BusOut.idle }) hp
    have hrun := run_of_running hr hp ha
    rw [beginStep_nil ha] at hrun
    rw [complete_running (s := { s with bus := BusOut.idle }) hp] at hrun hread houtside
    exact ⟨_, _, hrun, hread, houtside⟩
  case idle =>
    rw [step_of_clockEdge ha, clockEdge_idle (s := beginStep s rest) hr hp]
    rfl
  case waiting =>
    rw [step_of_clockEdge ha, clockEdge_waiting (s := beginStep s rest) hr hp hl]
    rfl

end Sys2Proof
end
